-- ==== Sys2Proof/Word.lean ====
section
/-! DEFINITION. The word types of the machine: the 64-bit command word, the 64-bit pattern of an `F` value, the byte
of an external image, and the two columns of the output memory. -/

namespace Sys2Proof

/-- A command word, bit 63 the most significant (00_scope R10; 30_encoding R90). -/
abbrev Word := BitVec 64

/-- An `F` value, held as its binary64 bit pattern: sign in bit 63, exponent in 62:52, fraction in 51:0
(00_scope R10; 10_state R22; log 1). `asF` and `bitsF` are therefore the identity. -/
abbrev F := BitVec 64

/-- A byte of an external image (20_memory R64), and the width of a slot index (30_encoding R91). -/
abbrev Byte := BitVec 8

/-- The two columns of YMEM (20_memory R62): `c0` mono or left, `c1` right. -/
inductive Col where
  | c0
  | c1
  deriving DecidableEq, Repr

end Sys2Proof
end

