-- ==== Sys2Proof/Machine/Float.lean ====
section
/-! DEFINITION. The numeric type `F` of 00_scope R7 and 10_state R22 at its default: IEEE 754 binary64, round to
nearest, ties to even, gradual underflow, signed zeros, no fused operation (log 1). Every finite value is a whole
number of units of 2^-1074, so an operation computes exactly on those whole numbers and rounds once at the end. -/

namespace Sys2Proof.Machine

/-! ### Constants (00_scope R9: every literal of the rules is exact) -/

def fZero : F := 0x0000000000000000
def fHalf : F := 0x3FE0000000000000
def fOne : F := 0x3FF0000000000000
def fTwo : F := 0x4000000000000000
def fTwelve : F := 0x4028000000000000
def fThousand : F := 0x408F400000000000
/-- -(2^52), the bound of 40_delay_line R130. -/
def fWrapLimit : F := 0xC330000000000000
/-- The NaN that an invalid operation gives. Never observable: a non-finite value is refused (log 14). -/
def fNaN : F := 0x7FF8000000000000

/-! ### The pattern -/

/-- How many units of 2^-1074 make 1.0. -/
def fScale : Nat := 2 ^ 1074

/-- The pattern of +infinity; as a magnitude, the first that is not finite. -/
def fInfMag : Nat := 0x7FF0000000000000

def fSign (a : F) : Bool := a.msb
def fMag (a : F) : Nat := a.toNat % 2 ^ 63

/-- `finite(v)` of 00_scope R9: neither an infinity nor a NaN. -/
def fFinite (a : F) : Bool := fMag a < fInfMag
def fIsInf (a : F) : Bool := fMag a == fInfMag
def fIsNaN (a : F) : Bool := fInfMag < fMag a
def fIsZero (a : F) : Bool := fMag a == 0

/-- The magnitude of a value in units of 2^-1074; an infinity counts as the first power of two above every finite
value, so that comparisons need no case of their own. -/
def fUnits (a : F) : Nat :=
  if fMag a < 2 ^ 52 then fMag a else (2 ^ 52 + fMag a % 2 ^ 52) * 2 ^ (fMag a / 2 ^ 52 - 1)

/-- The value in units of 2^-1074, as an integer. -/
def fInt (a : F) : Int := if fSign a then -(fUnits a : Int) else (fUnits a : Int)

def fEncode (neg : Bool) (mag : Nat) : F := BitVec.ofNat 64 (mag + if neg then 2 ^ 63 else 0)

/-- `n / d` units of 2^-1074 rounded to nearest, ties to even, subnormals kept, overflow to infinity
(10_state R22). The exponent and the fraction of the pattern are one number, so a carry out of the fraction
moves the exponent by itself. -/
def fRound (neg : Bool) (n d : Nat) : F :=
  let sh := Nat.log2 (n / d) - 52
  let unit := d * 2 ^ sh
  let q := n / unit
  let r := n % unit
  let up := if unit < 2 * r || (2 * r == unit && q % 2 == 1) then 1 else 0
  fEncode neg (min (sh * 2 ^ 52 + q + up) fInfMag)

/-! ### Operations (00_scope R9: each rounds once) -/

def fNeg (a : F) : F := fEncode (!fSign a) (fMag a)

/-- `abs(v)`: clears the sign, exact. -/
def fAbs (a : F) : F := fEncode false (fMag a)

def fAdd (a b : F) : F :=
  if fIsNaN a || fIsNaN b then fNaN
  else if fIsInf a then (if fIsInf b && fSign a != fSign b then fNaN else a)
  else if fIsInf b then b
  else
    let sum := fInt a + fInt b
    if sum = 0 then fEncode (fSign a && fSign b) 0 else fRound (decide (sum < 0)) sum.natAbs 1

def fSub (a b : F) : F := fAdd a (fNeg b)

def fMul (a b : F) : F :=
  if fIsNaN a || fIsNaN b then fNaN
  else if fIsInf a || fIsInf b then
    (if fIsZero a || fIsZero b then fNaN else fEncode (fSign a != fSign b) fInfMag)
  else fRound (fSign a != fSign b) (fUnits a * fUnits b) fScale

def fDiv (a b : F) : F :=
  if fIsNaN a || fIsNaN b then fNaN
  else if fIsInf a then (if fIsInf b then fNaN else fEncode (fSign a != fSign b) fInfMag)
  else if fIsInf b then fEncode (fSign a != fSign b) 0
  else if fIsZero b then (if fIsZero a then fNaN else fEncode (fSign a != fSign b) fInfMag)
  else fRound (fSign a != fSign b) (fUnits a * fScale) (fUnits b)

/-! ### Comparisons (the IEEE comparisons: -0.0 = +0.0) -/

def fLt (a b : F) : Bool := !fIsNaN a && !fIsNaN b && decide (fInt a < fInt b)
def fLe (a b : F) : Bool := !fIsNaN a && !fIsNaN b && decide (fInt a ≤ fInt b)
def fEq (a b : F) : Bool := !fIsNaN a && !fIsNaN b && decide (fInt a = fInt b)

/-! ### Integers (00_scope R9) -/

/-- `toF(n)`, exact below 2^53. -/
def toF (n : Nat) : F := fRound false (n * fScale) 1

/-- `floor(v)`, on finite values. -/
def fFloor (a : F) : Int := fInt a / (fScale : Int)

/-- `trunc(v)`, on finite values: the fraction is dropped toward zero. -/
def fTrunc (a : F) : Int :=
  if fSign a then -((fUnits a / fScale : Nat) : Int) else ((fUnits a / fScale : Nat) : Int)

end Sys2Proof.Machine
end

