-- ==== Sys2Proof/Config.lean ====
section
/-! DEFINITION. What an implementation fixes (00_scope R7) and the free values of the spec (10_state R24, R40). -/

namespace Sys2Proof.Config

open Sys2Proof.Machine

/-! ### Capacities: the spec's defaults. The machine reads them from the state (`State.params` and the length of the
slot file), so every statement holds for other values too (log 2). -/

def NSLOT : Nat := 16
def CAP_MAX : Nat := 2 ^ 24
def NFILT_MAX : Nat := 32
def XLEN : Nat := 2 ^ 24
def YLEN : Nat := 2 ^ 24

/-! ### The constant π (00_scope R7; 93_implementation_defined G1; log 4) -/

def PI : F := 0x400921FB54442D18

/-- `TWO_PI = 2.0 × PI`, an exact doubling. -/
def TWO_PI : F := fMul fTwo PI

/-! ### Free values

`SIN`, `EXP2` and `LOG2` are uninterpreted functions of their operand with the six named properties of 10_state R24.
Each is an opaque function, guarded so that exactly those properties hold of it and nothing else is known: a function
with the properties is its own guarded form (log 3). -/

opaque sinFree : F → F
opaque exp2Free : F → F
opaque log2Free : F → F

/-- The sine, argument in radians: `SIN_ZERO` and `SIN_BOUND`. R24 bounds it for finite operands only: at an infinity or a
NaN nothing is known of it, as for every value that R24 leaves open (DESIGN CHOICE, log 3). -/
def SIN (v : F) : F :=
  if v = fZero then fZero
  else if fFinite v && !(fFinite (sinFree v) && fLe (fAbs (sinFree v)) fOne) then fZero
  else sinFree v

/-- `2^v`: `EXP2_ZERO`, `EXP2_ONE` and `EXP2_POS`. Above magnitude 1000.0 nothing is known, not even that the value
is finite. -/
def EXP2 (v : F) : F :=
  if v = fZero then fOne
  else if v = fOne then fTwo
  else if v = fNeg fOne then fHalf
  else if fLe (fAbs v) fThousand && !(fFinite (exp2Free v) && fLt fZero (exp2Free v)) then fOne
  else exp2Free v

/-- The base-2 logarithm: `LOG2_ONE`. -/
def LOG2 (v : F) : F :=
  if v = fOne then fZero
  else if v = fTwo then fOne
  else if v = fHalf then fNeg fOne
  else log2Free v

/-- What a result register holds after reset: nothing is known of it (10_state R40; 93_implementation_defined U7;
log 5). -/
opaque resAtReset : Nat → F

end Sys2Proof.Config
end

