-- ==== Sys2Proof/Syntax.lean ====
section
/-! DEFINITION. The thirty commands of 30_encoding R94, one constructor per row of spec/opcode_table.json. -/

namespace Sys2Proof

/-- A decoded command. A slot index is the 8-bit field `u` (or `v`), a sample count the 32-bit field `imm`, an `F`
operand its bit pattern, a `U` operand a 64-bit unsigned number (30_encoding R91, R92). -/
inductive Instr where
  | dlCfg (u : Byte) (delayMs : F) (fs : Word)
  | dlWrite (u : Byte) (x : F)
  | dlRead (u : Byte) (offset : F)
  | dlProc (u : Byte) (x g : F)
  | fircCfg (u : Byte) (delayMs gain : F) (fs : Word)
  | fircProc (u : Byte) (x : F)
  | iircCfg (u : Byte) (delayMs gain : F) (fs : Word)
  | iircProc (u : Byte) (x : F)
  | apCfg (u : Byte) (delayMs gain : F) (fs : Word)
  | apProc (u : Byte) (x : F)
  | lfoCfg (u : Byte) (rate center range : F) (fs : Word)
  | lfoTick (u : Byte)
  | triCfg (u : Byte) (rate : F)
  | triTick (u : Byte)
  | flCfg (u : Byte) (minMs maxMs rate depth : F) (fs : Word)
  | flStep (u : Byte) (x : F)
  | flBlock (u : Byte) (len : BitVec 32)
  | rvCfg (u : Byte) (fs : Word) (wet : F) (spread : Word) (combDelayMs combGain apDelayMs apGain : List F)
  | rvStep (u : Byte) (x : F)
  | rvBlock (u : Byte) (len : BitVec 32)
  | rvBlock2 (u v : Byte) (len : BitVec 32)
  | trCfg (u : Byte) (rate depth : F) (fs : Word)
  | trStep (u : Byte) (x : F)
  | trBlock (u : Byte) (len : BitVec 32)
  | psCfg (u : Byte) (windowMs : F) (fs : Word)
  | psShift (u : Byte) (semitones : F)
  | psStep (u : Byte) (x : F)
  | psBlock (u : Byte) (len : BitVec 32)
  | semi (fTarget fRoot : F)
  | norm (c : Col) (len : BitVec 32)
  deriving DecidableEq, Repr

end Sys2Proof
end

