-- ==== Sys2Proof/WellFormed.lean ====
section
/-! DEFINITION. Which commands an encoding can express: the fields are as wide as their types say, so only the array
counts of RV.CFG can be out of range (30_encoding R93; 60_exceptions R309). -/

namespace Sys2Proof

/-- An array of RV.CFG whose count decoding accepts: at most NFILT_MAX, and a count that fits its operand word. -/
def arrayOk (nfiltMax : Nat) (a : List F) : Bool := a.length ≤ nfiltMax && a.length < 2 ^ 64

/-- A command that some command stream holds, for the capacity `nfiltMax`. -/
def Instr.wellFormed (nfiltMax : Nat) : Instr → Bool
  | .rvCfg _ _ _ _ cd cg ad ag => arrayOk nfiltMax cd && arrayOk nfiltMax cg && arrayOk nfiltMax ad && arrayOk nfiltMax ag
  | .dlCfg .. | .dlWrite .. | .dlRead .. | .dlProc .. | .fircCfg .. | .fircProc .. | .iircCfg .. | .iircProc ..
  | .apCfg .. | .apProc .. | .lfoCfg .. | .lfoTick .. | .triCfg .. | .triTick .. | .flCfg .. | .flStep .. | .flBlock ..
  | .rvStep .. | .rvBlock .. | .rvBlock2 .. | .trCfg .. | .trStep .. | .trBlock .. | .psCfg .. | .psShift .. | .psStep ..
  | .psBlock .. | .semi .. | .norm .. => true

end Sys2Proof
end

