-- ==== Sys2Proof/Decode.lean ====
section
/-! DEFINITION. Decoding (30_encoding R90 to R96; 60_exceptions R309), total on any list of command words, and the
encoder written from the same tables. -/

namespace Sys2Proof

/-! ### The header word (R90, R91) -/

def hdrOpc (h : Word) : Byte := h.extractLsb' 56 8
def hdrU (h : Word) : Byte := h.extractLsb' 48 8
def hdrV (h : Word) : Byte := h.extractLsb' 40 8
def hdrRsv (h : Word) : Byte := h.extractLsb' 32 8
def hdrImm (h : Word) : BitVec 32 := h.extractLsb' 0 32

/-- The header word with these fields and `rsv` zero. -/
def header (opc u v : Byte) (imm : BitVec 32) : Word := opc ++ u ++ v ++ (0 : Byte) ++ imm

/-- The thirty opcodes of R94. -/
inductive Opcode where
  | dlCfg | dlWrite | dlRead | dlProc | fircCfg | fircProc | iircCfg | iircProc | apCfg | apProc
  | lfoCfg | lfoTick | triCfg | triTick | flCfg | flStep | flBlock | rvCfg | rvStep | rvBlock | rvBlock2
  | trCfg | trStep | trBlock | psCfg | psShift | psStep | psBlock | semi | norm
  deriving DecidableEq, Repr

/-- The column `opc` of R94. -/
def opcodeByte : Opcode → Byte
  | .dlCfg => 0x10
  | .dlWrite => 0x11
  | .dlRead => 0x12
  | .dlProc => 0x13
  | .fircCfg => 0x20
  | .fircProc => 0x21
  | .iircCfg => 0x28
  | .iircProc => 0x29
  | .apCfg => 0x30
  | .apProc => 0x31
  | .lfoCfg => 0x40
  | .lfoTick => 0x41
  | .triCfg => 0x48
  | .triTick => 0x49
  | .flCfg => 0x50
  | .flStep => 0x51
  | .flBlock => 0x52
  | .rvCfg => 0x60
  | .rvStep => 0x61
  | .rvBlock => 0x62
  | .rvBlock2 => 0x63
  | .trCfg => 0x70
  | .trStep => 0x71
  | .trBlock => 0x72
  | .psCfg => 0x80
  | .psShift => 0x81
  | .psStep => 0x82
  | .psBlock => 0x83
  | .semi => 0x88
  | .norm => 0x90

/-- The thirty opcodes in the order of R94. -/
def allOpcodes : List Opcode :=
  [.dlCfg, .dlWrite, .dlRead, .dlProc, .fircCfg, .fircProc, .iircCfg, .iircProc, .apCfg, .apProc,
   .lfoCfg, .lfoTick, .triCfg, .triTick, .flCfg, .flStep, .flBlock, .rvCfg, .rvStep, .rvBlock, .rvBlock2,
   .trCfg, .trStep, .trBlock, .psCfg, .psShift, .psStep, .psBlock, .semi, .norm]

/-- The opcode with this byte; the 226 other bytes are reserved (R96). -/
def opcodeOf (b : Byte) : Option Opcode := allOpcodes.find? fun o => opcodeByte o == b

/-- The five variants of the header format (R95). -/
inductive HeaderFormat where
  | u
  | uImm
  | uVImm
  | noFields
  | cImm
  deriving DecidableEq, Repr

/-- The column `header fields used` of R94. -/
def opcodeFormat : Opcode → HeaderFormat
  | .flBlock | .rvBlock | .trBlock | .psBlock => .uImm
  | .rvBlock2 => .uVImm
  | .semi => .noFields
  | .norm => .cImm
  | .dlCfg | .dlWrite | .dlRead | .dlProc | .fircCfg | .fircProc | .iircCfg | .iircProc | .apCfg | .apProc
  | .lfoCfg | .lfoTick | .triCfg | .triTick | .flCfg | .flStep | .rvCfg | .rvStep | .trCfg | .trStep
  | .psCfg | .psShift | .psStep => .u

/-- Every field the command does not use is zero, and for NORM bits 55:49 are (R90, R96). -/
def unusedZero (h : Word) : HeaderFormat → Bool
  | .u => hdrV h == 0 && hdrRsv h == 0 && hdrImm h == 0
  | .uImm => hdrV h == 0 && hdrRsv h == 0
  | .uVImm => hdrRsv h == 0
  | .noFields => hdrU h == 0 && hdrV h == 0 && hdrRsv h == 0 && hdrImm h == 0
  | .cImm => (hdrU h == 0 || hdrU h == 1) && hdrV h == 0 && hdrRsv h == 0

/-- The row a header selects, none for an illegal header (R96). -/
def decodeHeader (h : Word) : Option Opcode :=
  match opcodeOf (hdrOpc h) with
  | some o => if unusedZero h (opcodeFormat o) then some o else none
  | none => none

/-- The column of NORM: bit 48 (R94). -/
def hdrCol (h : Word) : Col := if hdrU h == 0 then .c0 else .c1

/-- The mask column of R95. -/
def formatMask : HeaderFormat → Word
  | .u => 0xFF00FFFFFFFFFFFF
  | .uImm => 0xFF00FFFF00000000
  | .uVImm => 0xFF0000FF00000000
  | .noFields => 0xFFFFFFFFFFFFFFFF
  | .cImm => 0xFFFEFFFF00000000

/-- The match column of R95: `opc << 56`. -/
def opcodeMatch (o : Opcode) : Word := (opcodeByte o).zeroExtend 64 <<< 56

/-! ### A whole command (R93; 60_exceptions R309) -/

/-- What decoding raises (60_exceptions R309). -/
inductive DecodeFault where
  /-- E_ILLEGAL: the header matches no row, or the operand words reach past the end of the stream. -/
  | illegal
  /-- E_CAPACITY: an array count of RV.CFG above NFILT_MAX. -/
  | capacity
  deriving DecidableEq, Repr

abbrev Decoded := Except DecodeFault Instr

def with1 (ws : List Word) (k : Word → Instr) : Decoded :=
  match ws with
  | a :: _ => .ok (k a)
  | _ => .error .illegal

def with2 (ws : List Word) (k : Word → Word → Instr) : Decoded :=
  match ws with
  | a :: b :: _ => .ok (k a b)
  | _ => .error .illegal

def with3 (ws : List Word) (k : Word → Word → Word → Instr) : Decoded :=
  match ws with
  | a :: b :: c :: _ => .ok (k a b c)
  | _ => .error .illegal

def with4 (ws : List Word) (k : Word → Word → Word → Word → Instr) : Decoded :=
  match ws with
  | a :: b :: c :: d :: _ => .ok (k a b c d)
  | _ => .error .illegal

def with5 (ws : List Word) (k : Word → Word → Word → Word → Word → Instr) : Decoded :=
  match ws with
  | a :: b :: c :: d :: e :: _ => .ok (k a b c d e)
  | _ => .error .illegal

/-- The operand words of RV.CFG: seven fixed words, four of them counts, then the four arrays. The counts are tested
before the length (R309). -/
def decodeRvCfg (nfiltMax : Nat) (u : Byte) (ws : List Word) : Decoded :=
  match ws with
  | fs :: wet :: spread :: nCD :: nCG :: nAD :: nAG :: rest =>
    if nCD.toNat > nfiltMax || nCG.toNat > nfiltMax || nAD.toNat > nfiltMax || nAG.toNat > nfiltMax then
      .error .capacity
    else if rest.length < nCD.toNat + nCG.toNat + nAD.toNat + nAG.toNat then .error .illegal
    else
      let r1 := rest.drop nCD.toNat
      let r2 := r1.drop nCG.toNat
      let r3 := r2.drop nAD.toNat
      .ok (.rvCfg u fs wet spread (rest.take nCD.toNat) (r1.take nCG.toNat) (r2.take nAD.toNat) (r3.take nAG.toNat))
  | _ => .error .illegal

/-- The command that the opcode, the header's fields and the operand words make (R94). -/
def decodeOperands (nfiltMax : Nat) (o : Opcode) (h : Word) (ws : List Word) : Decoded :=
  match o with
  | .dlCfg => with2 ws (.dlCfg (hdrU h))
  | .dlWrite => with1 ws (.dlWrite (hdrU h))
  | .dlRead => with1 ws (.dlRead (hdrU h))
  | .dlProc => with2 ws (.dlProc (hdrU h))
  | .fircCfg => with3 ws (.fircCfg (hdrU h))
  | .fircProc => with1 ws (.fircProc (hdrU h))
  | .iircCfg => with3 ws (.iircCfg (hdrU h))
  | .iircProc => with1 ws (.iircProc (hdrU h))
  | .apCfg => with3 ws (.apCfg (hdrU h))
  | .apProc => with1 ws (.apProc (hdrU h))
  | .lfoCfg => with4 ws (.lfoCfg (hdrU h))
  | .lfoTick => .ok (.lfoTick (hdrU h))
  | .triCfg => with1 ws (.triCfg (hdrU h))
  | .triTick => .ok (.triTick (hdrU h))
  | .flCfg => with5 ws (.flCfg (hdrU h))
  | .flStep => with1 ws (.flStep (hdrU h))
  | .flBlock => .ok (.flBlock (hdrU h) (hdrImm h))
  | .rvCfg => decodeRvCfg nfiltMax (hdrU h) ws
  | .rvStep => with1 ws (.rvStep (hdrU h))
  | .rvBlock => .ok (.rvBlock (hdrU h) (hdrImm h))
  | .rvBlock2 => .ok (.rvBlock2 (hdrU h) (hdrV h) (hdrImm h))
  | .trCfg => with3 ws (.trCfg (hdrU h))
  | .trStep => with1 ws (.trStep (hdrU h))
  | .trBlock => .ok (.trBlock (hdrU h) (hdrImm h))
  | .psCfg => with2 ws (.psCfg (hdrU h))
  | .psShift => with1 ws (.psShift (hdrU h))
  | .psStep => with1 ws (.psStep (hdrU h))
  | .psBlock => .ok (.psBlock (hdrU h) (hdrImm h))
  | .semi => with2 ws .semi
  | .norm => .ok (.norm (hdrCol h) (hdrImm h))

/-- `Decode` of 60_exceptions R309, on the words of CMD from `pc` on. Words after the command are not looked at. With no
word at all there is no command to decode; that the answer is then E_ILLEGAL is the model's choice (DESIGN CHOICE,
log 20), and `step` never asks for it. -/
def decode (nfiltMax : Nat) (ws : List Word) : Decoded :=
  match ws with
  | [] => .error .illegal
  | h :: ops =>
    match decodeHeader h with
    | none => .error .illegal
    | some o => decodeOperands nfiltMax o h ops

/-! ### Encoding -/

def colByte : Col → Byte
  | .c0 => 0
  | .c1 => 1

/-- The words of a command (R90 to R94). -/
def encode : Instr → List Word
  | .dlCfg u d fs => [header 0x10 u 0 0, d, fs]
  | .dlWrite u x => [header 0x11 u 0 0, x]
  | .dlRead u o => [header 0x12 u 0 0, o]
  | .dlProc u x g => [header 0x13 u 0 0, x, g]
  | .fircCfg u d g fs => [header 0x20 u 0 0, d, g, fs]
  | .fircProc u x => [header 0x21 u 0 0, x]
  | .iircCfg u d g fs => [header 0x28 u 0 0, d, g, fs]
  | .iircProc u x => [header 0x29 u 0 0, x]
  | .apCfg u d g fs => [header 0x30 u 0 0, d, g, fs]
  | .apProc u x => [header 0x31 u 0 0, x]
  | .lfoCfg u r c g fs => [header 0x40 u 0 0, r, c, g, fs]
  | .lfoTick u => [header 0x41 u 0 0]
  | .triCfg u r => [header 0x48 u 0 0, r]
  | .triTick u => [header 0x49 u 0 0]
  | .flCfg u mn mx r d fs => [header 0x50 u 0 0, mn, mx, r, d, fs]
  | .flStep u x => [header 0x51 u 0 0, x]
  | .flBlock u len => [header 0x52 u 0 len]
  | .rvCfg u fs wet spread cd cg ad ag =>
    header 0x60 u 0 0 :: fs :: wet :: spread :: BitVec.ofNat 64 cd.length :: BitVec.ofNat 64 cg.length ::
      BitVec.ofNat 64 ad.length :: BitVec.ofNat 64 ag.length :: (cd ++ (cg ++ (ad ++ ag)))
  | .rvStep u x => [header 0x61 u 0 0, x]
  | .rvBlock u len => [header 0x62 u 0 len]
  | .rvBlock2 u v len => [header 0x63 u v len]
  | .trCfg u r d fs => [header 0x70 u 0 0, r, d, fs]
  | .trStep u x => [header 0x71 u 0 0, x]
  | .trBlock u len => [header 0x72 u 0 len]
  | .psCfg u w fs => [header 0x80 u 0 0, w, fs]
  | .psShift u t => [header 0x81 u 0 0, t]
  | .psStep u x => [header 0x82 u 0 0, x]
  | .psBlock u len => [header 0x83 u 0 len]
  | .semi t r => [header 0x88 0 0 0, t, r]
  | .norm c len => [header 0x90 (colByte c) 0 len]

/-- `nops`, the number of operand words (R93, column `nops` of R94). -/
def nops : Instr → Nat
  | .lfoTick .. | .triTick .. | .flBlock .. | .rvBlock .. | .rvBlock2 .. | .trBlock .. | .psBlock .. | .norm .. => 0
  | .dlWrite .. | .dlRead .. | .fircProc .. | .iircProc .. | .apProc .. | .triCfg .. | .flStep .. | .rvStep ..
  | .trStep .. | .psShift .. | .psStep .. => 1
  | .dlCfg .. | .dlProc .. | .psCfg .. | .semi .. => 2
  | .fircCfg .. | .iircCfg .. | .apCfg .. | .trCfg .. => 3
  | .lfoCfg .. => 4
  | .flCfg .. => 5
  | .rvCfg _ _ _ _ cd cg ad ag => 7 + cd.length + cg.length + ad.length + ag.length

/-! ### External byte image (20_memory R64): every word least significant byte first -/

def wordBytes (w : Word) : List Byte := (List.range 8).map fun k => w.extractLsb' (8 * k) 8

/-- The words of a byte image; none when its length is no multiple of eight, a case on which the spec is silent
(DESIGN CHOICE, log 19). -/
def imageWords : List Byte → Option (List Word)
  | [] => some []
  | b0 :: b1 :: b2 :: b3 :: b4 :: b5 :: b6 :: b7 :: rest =>
    (imageWords rest).map ((b7 ++ b6 ++ b5 ++ b4 ++ b3 ++ b2 ++ b1 ++ b0 : BitVec 64) :: ·)
  | _ => none

def wordsImage (ws : List Word) : List Byte := ws.flatMap wordBytes

/-- Decoding the first command of a byte image. An image that holds no whole number of words is E_ILLEGAL as a whole, even
where its first command stands in it complete: the model's choice (DESIGN CHOICE, log 19). -/
def decodeImage (nfiltMax : Nat) (bs : List Byte) : Decoded :=
  match imageWords bs with
  | some ws => decode nfiltMax ws
  | none => .error .illegal

/-! ### The table's numbering of an instruction's bits -/

/-- The longest command, in words, for a capacity: RV.CFG with four full arrays (R93). -/
def longestCommand (nfiltMax : Nat) : Nat := 8 + 4 * nfiltMax

/-- The instruction whose bits are `w` (bit 0 the least of the first word), its bits from `nbits` on zero, as the
words of the longest command. -/
def tableWords (nfiltMax nbits w : Nat) : List Word :=
  (List.range (longestCommand nfiltMax)).map fun k => BitVec.ofNat 64 (w % 2 ^ nbits / 2 ^ (64 * k))

def decodeTableWord (nbits w : Nat) : Option Instr :=
  match decode Config.NFILT_MAX (tableWords Config.NFILT_MAX nbits w) with
  | .ok i => some i
  | .error _ => none

end Sys2Proof
end

