-- ==== Sys2Proof/Machine/State.lean ====
section
/-! DEFINITION. The architectural state (10_state R21, R25 to R38), its reset value (R40), and the reasons a step can
stop. Plain data throughout. -/

namespace Sys2Proof.Machine

/-! ### Memories -/

/-- A cell of XMEM or YMEM: `none` is `Unwritten`, `some v` is `Val v` (10_state R21). -/
abbrev Cell := Option F

/-- A sample memory as its written cells, indices strictly rising; a cell that is not listed is Unwritten, which is
what every cell is after reset (20_memory R60, R67; 10_state R40; log 9). -/
abbrev Mem := List (Nat × F)

/-- The canonical form of a memory: strictly rising indices, so that equal memories are equal lists. -/
abbrev memWf (m : Mem) : Prop := (m.map Prod.fst).Pairwise (· < ·)

/-! ### Unit instances (10_state R31 to R38) -/

/-- R31: capacity, buffer, write cursor. -/
structure DLState where
  L : Nat
  buf : List F
  cur : Nat
  deriving DecidableEq, Repr

/-- R32: one delay line plus a gain; used by FIRC, IIRC and AP. -/
structure CombState where
  d : DLState
  gain : F
  deriving DecidableEq, Repr

/-- R33. -/
structure LFOState where
  phase : F
  step : F
  center : F
  range : F
  deriving DecidableEq, Repr

/-- R34: the phasor and its increment. -/
structure TRIState where
  p : F
  rate : F
  deriving DecidableEq, Repr

/-- R35. -/
structure FLState where
  d : DLState
  lfo : LFOState
  depth : F
  minD : Nat
  maxD : Nat
  deriving DecidableEq, Repr

/-- R36. `N` and `M` of the rule are the lengths of the two lists. -/
structure RVState where
  comb : List CombState
  ap : List CombState
  scale : F
  wet : F
  deriving DecidableEq, Repr

/-- R37. -/
structure TRState where
  lfo : LFOState
  deriving DecidableEq, Repr

/-- R38. -/
structure PSState where
  W : Nat
  d : DLState
  tri : TRIState
  factor : F
  deriving DecidableEq, Repr

/-- R30: a slot is empty or holds one instance of one of the ten kinds. -/
inductive Slot where
  | empty
  | dl (d : DLState)
  | firc (c : CombState)
  | iirc (c : CombState)
  | ap (c : CombState)
  | lfo (l : LFOState)
  | tri (t : TRIState)
  | fl (f : FLState)
  | rv (r : RVState)
  | tr (t : TRState)
  | ps (p : PSState)
  deriving DecidableEq, Repr

/-! ### The machine -/

/-- R25: the four result registers. -/
structure ResultRegs where
  r0 : F
  r1 : F
  r2 : F
  r3 : F
  deriving DecidableEq, Repr

/-- The capacities of 00_scope R7: parameters of the step, held in the state so that nothing is proved of one value
of them only (log 2). No step writes them. -/
structure Params where
  capMax : Nat
  nfiltMax : Nat
  xlen : Nat
  ylen : Nat
  deriving DecidableEq, Repr

/-- R21. `CMD` is the command stream, a parameter of the run that no step writes (30_encoding R90; log 6). NSLOT is the
length of `U` (log 2). -/
structure State where
  pc : Nat
  RES : ResultRegs
  STATUS : BitVec 32
  FCI : Nat
  U : List Slot
  XMEM : Mem
  YMEM0 : Mem
  YMEM1 : Mem
  CMD : List Word
  params : Params
  deriving DecidableEq, Repr

/-- The causes of 60_exceptions R301. -/
inductive Cause where
  | zeroDelay
  | lenMismatch
  /-- Reserved for the host's numbering; the engine never raises it. -/
  | unknownNote
  | badRate
  | noComb
  | slot
  | illegal
  | capacity
  deriving DecidableEq, Repr

/-- Why a step faults. A fault of the spec is TAKEN by the command that raises it (`faultEntry`, a next state); only the
state it leads to has no step. -/
inductive Fault where
  /-- Raised by `step` in the FAULTED state, `STATUS.FAULT = 1`: no command executes, and only a reset leaves the
  state (60_exceptions R311; 93_implementation_defined U14). Safe: the spec gives no step either. -/
  | faulted
  deriving DecidableEq, Repr

/-- Why a step is refused. All but `notModelled` and `idle` are the spec's own refusals of
93_implementation_defined: it gives the input no meaning and asks a model to refuse it. Safe, all of them. -/
inductive Refusal where
  /-- Raised by an arm of `exec` whose instruction has no meaning yet. Safe. -/
  | notModelled (mnemonic : String)
  /-- Raised by `step` when `pc = length(CMD)`: the run is over and the engine has no step
  (70_reset_and_hazards R347). A normal end. Safe. -/
  | idle
  /-- U1: an `F` operand word that is an infinity or a NaN; raised by every command with such an operand. -/
  | nonFiniteOperand
  /-- U9: `fs` or `spread` of 2^53 or more; raised by the CFG commands. -/
  | wideOperand
  /-- U1: an Unwritten cell in the range of a block command or of `Normalise`. -/
  | unwrittenCell
  /-- U1: a non-finite cell in the range of a block command or of `Normalise`. -/
  | nonFiniteCell
  /-- U2: a computed sample, stored element, phase or result that is not finite. -/
  | nonFiniteResult
  /-- U3: a fractional read whose position is below -(2^52). -/
  | readOutOfRange
  /-- U4: a phasor rate of magnitude 1.0 or more; raised by TRI.CFG and PS.SHIFT. -/
  | phasorRate
  /-- U5: a negative minimum delay; raised by FL.CFG. -/
  | negativeDelay
  /-- U6: outside the domain of the logarithm; raised by SEMI. -/
  | logDomain
  deriving DecidableEq, Repr

/-- The state after a reset that installs the command stream `cmd` (70_reset_and_hazards R340; 10_state R40). -/
def State.resetWith (cmd : List Word) : State :=
  { pc := 0
    RES := ⟨Config.resAtReset 0, Config.resAtReset 1, Config.resAtReset 2, Config.resAtReset 3⟩
    STATUS := 0
    FCI := 0
    U := List.replicate Config.NSLOT .empty
    XMEM := []
    YMEM0 := []
    YMEM1 := []
    CMD := cmd
    params := ⟨Config.CAP_MAX, Config.NFILT_MAX, Config.XLEN, Config.YLEN⟩ }

/-- The machine right after reset, before a command stream is loaded (log 6). -/
def State.reset : State := State.resetWith []

end Sys2Proof.Machine
end

