-- ==== Sys2Proof/Machine/Flags.lean ====
section
/-! DEFINITION. The fields of STATUS (10_state R27), their reads and their writes. -/

namespace Sys2Proof.Machine

/-- Bit 0. -/
def statusFault (st : BitVec 32) : Bool := st.getLsbD 0

/-- Bits 1 and 2: NORMED0 and NORMED1. -/
def statusNormed (c : Col) (st : BitVec 32) : Bool :=
  match c with
  | .c0 => st.getLsbD 1
  | .c1 => st.getLsbD 2

/-- Bits 15:8. -/
def statusCause (st : BitVec 32) : Byte := st.extractLsb' 8 8

def normedMask : Col → BitVec 32
  | .c0 => 0x00000002
  | .c1 => 0x00000004

/-- STATUS with NORMEDc written, every other bit as before (48_normalise R291). -/
def withNormed (c : Col) (b : Bool) (st : BitVec 32) : BitVec 32 :=
  if b then st ||| normedMask c else st &&& ~~~(normedMask c)

/-- The cause codes of 60_exceptions R301. -/
def causeCode : Cause → Byte
  | .zeroDelay => 1
  | .lenMismatch => 2
  | .unknownNote => 3
  | .badRate => 4
  | .noComb => 5
  | .slot => 6
  | .illegal => 7
  | .capacity => 8

/-- STATUS with CAUSE and FAULT written by fault entry, NORMED0, NORMED1 and the rest as before
(60_exceptions R310). -/
def withFault (c : Cause) (st : BitVec 32) : BitVec 32 :=
  (st &&& 0xFFFF00FE) ||| ((causeCode c).zeroExtend 32 <<< 8) ||| 1

end Sys2Proof.Machine
end

