-- ==== Sys2Proof/Machine/Ops.lean ====
section
/-! DEFINITION. The named operations of the machine: how a command ends, fault entry, the result registers, the slot
file, the sample memories, the delay buffers, and fetching. -/

namespace Sys2Proof.Machine

/-! ### How a command ends -/

/-- Why the body of a command stops before its end: it raises a cause, or the spec refuses its input
(00_scope R11). -/
inductive Stop where
  | raise (c : Cause)
  | refuse (r : Refusal)
  deriving DecidableEq, Repr

/-- The body of a command: a value, or the first stop in the order of its tests. -/
abbrev Run (α : Type) := Except Stop α

def raise {α : Type} (c : Cause) : Run α := .error (.raise c)
def refuse {α : Type} (r : Refusal) : Run α := .error (.refuse r)

/-- Fault entry (60_exceptions R310): the cause and FAULT in STATUS, the header's index in FCI, every other effect
discarded, `pc` not advanced. There is no return from a fault (R311); only a reset leaves the state. -/
def faultEntry (c : Cause) (s : State) : State :=
  { s with STATUS := withFault c s.STATUS, FCI := s.pc }

/-- `pc <- pc + 1 + nops` (10_state R26). -/
def advance (nops : Nat) (s : State) : State := { s with pc := s.pc + 1 + nops }

/-- The outcome of a command with `nops` operand words that started in `s`: its state with `pc` advanced, or fault
entry from `s`, or a refusal. -/
def finish (nops : Nat) (s : State) (r : Run State) : Host.Outcome State Fault Refusal :=
  match r with
  | .ok t => .next (advance nops t)
  | .error (.raise c) => .next (faultEntry c s)
  | .error (.refuse r) => .refused r

/-- The value of a formula, refused when it is not finite (93_implementation_defined U2). Every formula it is applied to
is made of +, -, ×, abs and divisions by a finite number, through which an infinity or a NaN always reaches the end,
so one test at the end is the test after each operation (log 10). -/
def checked (v : F) : Run F := if fFinite v then .ok v else refuse .nonFiniteResult

/-! ### Result registers (10_state R25) -/

def writeRes0 (v : F) (s : State) : State := { s with RES := { s.RES with r0 := v } }

def writeRes (a b c d : F) (s : State) : State := { s with RES := ⟨a, b, c, d⟩ }

/-! ### The slot file (10_state R30; 60_exceptions R305) -/

/-- `kind(U[u])` must be one that `view` accepts; an index out of range, an empty slot and another kind raise E_SLOT. -/
def slotAs {α : Type} (view : Slot → Option α) (u : Byte) (s : State) : Run α :=
  match s.U[u.toNat]? with
  | none => raise .slot
  | some x =>
    match view x with
    | none => raise .slot
    | some a => .ok a

/-- The slot check of a CFG command: the index only, any previous content is replaced. -/
def cfgSlot (u : Byte) (s : State) : Run Unit := if u.toNat < s.U.length then .ok () else raise .slot

/-- `U[u] <- x`. -/
def setSlot (u : Byte) (x : Slot) (s : State) : State := { s with U := s.U.set u.toNat x }

def viewFirc : Slot → Option CombState
  | .firc c => some c
  | _ => none

def viewIirc : Slot → Option CombState
  | .iirc c => some c
  | _ => none

def viewAp : Slot → Option CombState
  | .ap c => some c
  | _ => none

def viewLfo : Slot → Option LFOState
  | .lfo l => some l
  | _ => none

def viewTri : Slot → Option TRIState
  | .tri t => some t
  | _ => none

def viewFl : Slot → Option FLState
  | .fl f => some f
  | _ => none

def viewRv : Slot → Option RVState
  | .rv r => some r
  | _ => none

def viewTr : Slot → Option TRState
  | .tr t => some t
  | _ => none

def viewPs : Slot → Option PSState
  | .ps p => some p
  | _ => none

/-- The delay line that the raw DL commands act on: of a DL, FIRC, IIRC or AP slot (40_delay_line R129). -/
def viewDelay : Slot → Option DLState
  | .dl d => some d
  | .firc c => some c.d
  | .iirc c => some c.d
  | .ap c => some c.d
  | _ => none

/-- The slot with its delay line replaced, its kind and its gain kept. -/
def withDelay (d : DLState) : Slot → Slot
  | .dl _ => .dl d
  | .firc c => .firc { c with d := d }
  | .iirc c => .iirc { c with d := d }
  | .ap c => .ap { c with d := d }
  | x => x

/-- `U[u]` with its delay line replaced. -/
def setDelay (u : Byte) (d : DLState) (s : State) : State :=
  { s with U := s.U.modify u.toNat (withDelay d) }

/-- The body of a per-sample command: the instance of slot `u`, one step of it, its result in `RES[0]` and its new state
in the slot. -/
def stepUnit {α : Type} (view : Slot → Option α) (wrap : α → Slot) (f : α → Run (F × α)) (u : Byte) (s : State) :
    Run State := do
  let a ← slotAs view u s
  let (y, a') ← f a
  return writeRes0 y (setSlot u (wrap a') s)

/-- The steps of a block: `f` on each sample in order, the outputs in order and the last state. -/
def stepAll {α : Type} (f : α → F → Run (F × α)) (a : α) (xs : List F) : Run (List F × α) :=
  match xs with
  | [] => .ok ([], a)
  | x :: xs => do
    let (y, a') ← f a x
    let (ys, a'') ← stepAll f a' xs
    return (y :: ys, a'')

/-! ### Sample memories (00_scope R11: MemRead and MemWrite; 20_memory R61, R62) -/

def memRead (m : Mem) (i : Nat) : Cell :=
  match m with
  | [] => none
  | (j, v) :: m => if i = j then some v else memRead m i

def memWrite (m : Mem) (i : Nat) (v : F) : Mem :=
  match m with
  | [] => [(i, v)]
  | (j, w) :: m =>
    if i < j then (i, v) :: (j, w) :: m else if i = j then (i, v) :: m else (j, w) :: memWrite m i v

/-- `n` cells from index `i` on, ascending; an Unwritten or a non-finite one is refused (U1). -/
def readCells (m : Mem) (i n : Nat) : Run (List F) :=
  match n with
  | 0 => .ok []
  | n + 1 =>
    match memRead m i with
    | none => refuse .unwrittenCell
    | some v => if fFinite v then (readCells m (i + 1) n).map (v :: ·) else refuse .nonFiniteCell

/-- The cells from index `i` on written with the values of a list, ascending. -/
def writeCells (m : Mem) (i : Nat) (vs : List F) : Mem :=
  match vs with
  | [] => m
  | v :: vs => writeCells (memWrite m i v) (i + 1) vs

/-- `YMEM[c]`. -/
def column (c : Col) (s : State) : Mem :=
  match c with
  | .c0 => s.YMEM0
  | .c1 => s.YMEM1

def setColumn (c : Col) (m : Mem) (s : State) : State :=
  match c with
  | .c0 => { s with YMEM0 := m }
  | .c1 => { s with YMEM1 := m }

/-- `STATUS.NORMEDc <- b`. -/
def setNormed (c : Col) (b : Bool) (s : State) : State := { s with STATUS := withNormed c b s.STATUS }

/-! ### Delay buffers (10_state R31) -/

/-- `buf[i]`. Every rule reduces the index into `0 .. L-1` first (00_scope R11); outside it, which no run reaches, the
read gives +0.0 (log 15). -/
def bufAt (d : DLState) (i : Nat) : F := d.buf.getD i fZero

/-- `buf[cur] <- v ; cur <- (cur + 1) mod L`. -/
def push (d : DLState) (v : F) : DLState :=
  { d with buf := d.buf.set d.cur v, cur := (d.cur + 1) % d.L }

/-- A fresh delay line: `L` copies of +0.0, cursor 0 (10_state R31, R41). -/
def freshDelay (L : Nat) : DLState := ⟨L, List.replicate L fZero, 0⟩

/-! ### Fetching -/

/-- The words of CMD from `pc` on. -/
def fetch (s : State) : List Word := s.CMD.drop s.pc

/-- The cause that a decoding fault raises (60_exceptions R309). -/
def decodeCause : DecodeFault → Cause
  | .illegal => .illegal
  | .capacity => .capacity

/-- `CMD` with `ws` in place of its words from index `at0` on, the words beyond them kept; a stream shorter than `at0`
is filled up with zero words. -/
def placeWords (cmd : List Word) (at0 : Nat) (ws : List Word) : List Word :=
  cmd.take at0 ++ List.replicate (at0 - cmd.length) 0 ++ ws ++ cmd.drop (at0 + ws.length)

end Sys2Proof.Machine
end

