-- ==== Sys2Proof/Machine/Operands.lean ====
section
/-! DEFINITION. Operand forms (30_encoding R92): the tests on operand words (60_exceptions R312 item 2), and the
conversions of milliseconds and sample rates. -/

namespace Sys2Proof.Machine

/-- Every `F` operand word is finite, or the command is refused (U1). -/
def finiteOperands (vs : List F) : Run Unit :=
  if vs.all fFinite then .ok () else refuse .nonFiniteOperand

/-- A `U` operand that the rules convert with `toF` is below 2^53, or the command is refused (U9). -/
def narrowOperand (n : Word) : Run Unit := if n.toNat < 2 ^ 53 then .ok () else refuse .wideOperand

/-- `if fs = 0: raise E_BAD_RATE` (60_exceptions R303). -/
def goodRate (fs : Word) : Run Unit := if fs = 0 then raise .badRate else .ok ()

/-- `(ms × toF(fs)) ÷ 1000.0`, two roundings (40_delay_line R122). -/
def msQuotient (ms : F) (fs : Word) : F := fDiv (fMul ms (toF fs.toNat)) fThousand

/-- `MsToSamples` (40_delay_line R122). An infinite quotient is E_CAPACITY or E_ZERO_DELAY by its sign, not a refusal
(log 16). -/
def msToSamples (capMax : Nat) (ms : F) (fs : Word) : Run Nat :=
  if fLt (msQuotient ms fs) fOne then raise .zeroDelay
  else if fLt (toF capMax) (msQuotient ms fs) then raise .capacity
  else .ok (fTrunc (msQuotient ms fs)).toNat

/-- The `len` test of a block command (60_exceptions R308). -/
def blockLen (len : Nat) (s : State) : Run Unit :=
  if s.params.xlen < len || s.params.ylen < len then raise .capacity else .ok ()

end Sys2Proof.Machine
end

