-- ==== Sys2Proof/Machine/DelayLine.lean ====
section
/-! DEFINITION. The unit circular_delay_line_with_fractional_read (40_delay_line): DL.CFG, DL.WRITE, DL.READ, DL.PROC,
and the functions FracRead and DLProc that other units use. -/

namespace Sys2Proof.Machine

/-- A bound on the additions of the wrap-add loop for every position it is specified for: each adds at least 0.75 to a
position of at least -(2^52) (R130; log 11). -/
def wrapFuel : Nat := 2 ^ 53

/-- `while pos < 0.0: pos = pos + toF(L)`, one rounded addition at a time (R124). A loop that outlasts its bound is the
reference's hang, and is refused (R130, U3). -/
def wrapAdd (fuel : Nat) (pos len : F) : Run F :=
  match fuel with
  | 0 => if fLt pos fZero then refuse .readOutOfRange else .ok pos
  | n + 1 => if fLt pos fZero then wrapAdd n (fAdd pos len) len else .ok pos

/-- The interpolation of R124 at a position that is not negative. -/
def interpolate (d : DLState) (pos : F) : F :=
  let i := (fFloor pos).toNat
  let frac := fSub pos (toF i)
  fAdd (fMul (fSub fOne frac) (bufAt d (i % d.L))) (fMul frac (bufAt d ((i + 1) % d.L)))

/-- `FracRead` (R124): the fractional read; it does not change the delay line. -/
def fracRead (d : DLState) (offset : F) : Run F := do
  let pos ← checked (fSub (toF d.cur) offset)
  if fLt pos fWrapLimit then refuse .readOutOfRange
  let pos ← wrapAdd wrapFuel pos (toF d.L)
  checked (interpolate d pos)

/-- `DLProc` (R127): the element at the cursor is read, `x + g × out` is written there, the cursor advances, the
element read is returned. -/
def dlProc (d : DLState) (x g : F) : Run (F × DLState) := do
  let out := bufAt d d.cur
  let w ← checked (fAdd x (fMul g out))
  return (out, push d w)

/-- DL.CFG (R121). -/
def execDlCfg (u : Byte) (delayMs : F) (fs : Word) (s : State) : Host.Outcome State Fault Refusal :=
  finish 2 s do
    finiteOperands [delayMs]
    narrowOperand fs
    cfgSlot u s
    goodRate fs
    let L ← msToSamples s.params.capMax delayMs fs
    return setSlot u (.dl (freshDelay L)) s

/-- DL.WRITE (R123), on a DL, FIRC, IIRC or AP slot (R129). -/
def execDlWrite (u : Byte) (x : F) (s : State) : Host.Outcome State Fault Refusal :=
  finish 1 s do
    finiteOperands [x]
    let d ← slotAs viewDelay u s
    return setDelay u (push d x) s

/-- DL.READ (R125), on a DL, FIRC, IIRC or AP slot (R129). -/
def execDlRead (u : Byte) (offset : F) (s : State) : Host.Outcome State Fault Refusal :=
  finish 1 s do
    finiteOperands [offset]
    let d ← slotAs viewDelay u s
    let y ← fracRead d offset
    return writeRes0 y s

/-- DL.PROC (R127), on a DL, FIRC, IIRC or AP slot, with its own gain operand (R129). -/
def execDlProc (u : Byte) (x g : F) (s : State) : Host.Outcome State Fault Refusal :=
  finish 2 s do
    finiteOperands [x, g]
    let d ← slotAs viewDelay u s
    let (out, d') ← dlProc d x g
    return writeRes0 out (setDelay u d' s)

end Sys2Proof.Machine
end

