-- ==== Sys2Proof/Machine/Comb.lean ====
section
/-! DEFINITION. The units fir_comb_filter and iir_comb_filter (41_comb_filters): FIRC.CFG, FIRC.PROC, IIRC.CFG,
IIRC.PROC. Both variants have the same update (R140, R142, R146; 90_conflicts C1, C2). -/

namespace Sys2Proof.Machine

/-- One sample through a comb: DLProc with the stored gain, the element read before the write returned
(R142, R146, R150). -/
def combProc (x : F) (c : CombState) : Run (F × CombState) := do
  let (out, d) ← dlProc c.d x c.gain
  return (out, { c with d := d })

/-- A fresh comb or all-pass filter: a zeroed delay line and the gain, which is not checked (R141, R149). -/
def newComb (capMax : Nat) (delayMs gain : F) (fs : Word) : Run CombState := do
  let L ← msToSamples capMax delayMs fs
  return ⟨freshDelay L, gain⟩

/-- The body shared by FIRC.CFG, IIRC.CFG and AP.CFG (R141, R145; 42_allpass R161). -/
def combCfg (wrap : CombState → Slot) (u : Byte) (delayMs gain : F) (fs : Word) (s : State) : Run State := do
  finiteOperands [delayMs, gain]
  narrowOperand fs
  cfgSlot u s
  goodRate fs
  let c ← newComb s.params.capMax delayMs gain fs
  return setSlot u (wrap c) s

/-- FIRC.CFG (R141). -/
def execFircCfg (u : Byte) (delayMs gain : F) (fs : Word) (s : State) : Host.Outcome State Fault Refusal :=
  finish 3 s (combCfg .firc u delayMs gain fs s)

/-- FIRC.PROC (R142). -/
def execFircProc (u : Byte) (x : F) (s : State) : Host.Outcome State Fault Refusal :=
  finish 1 s do
    finiteOperands [x]
    stepUnit viewFirc .firc (combProc x) u s

/-- IIRC.CFG (R145). -/
def execIircCfg (u : Byte) (delayMs gain : F) (fs : Word) (s : State) : Host.Outcome State Fault Refusal :=
  finish 3 s (combCfg .iirc u delayMs gain fs s)

/-- IIRC.PROC (R146). -/
def execIircProc (u : Byte) (x : F) (s : State) : Host.Outcome State Fault Refusal :=
  finish 1 s do
    finiteOperands [x]
    stepUnit viewIirc .iirc (combProc x) u s

end Sys2Proof.Machine
end

