-- ==== Sys2Proof/Machine/AllPass.lean ====
section
/-! DEFINITION. The unit allpass_biquad, a Schroeder all-pass (42_allpass): AP.CFG, AP.PROC. -/

namespace Sys2Proof.Machine

/-- `APProc` (R162). -/
def apProc (x : F) (a : CombState) : Run (F × CombState) := do
  let delayed := bufAt a.d a.d.cur
  let bufferIn ← checked (fAdd x (fMul a.gain delayed))
  let out ← checked (fSub delayed (fMul a.gain bufferIn))
  return (out, { a with d := push a.d bufferIn })

/-- AP.CFG (R161). -/
def execApCfg (u : Byte) (delayMs gain : F) (fs : Word) (s : State) : Host.Outcome State Fault Refusal :=
  finish 3 s (combCfg .ap u delayMs gain fs s)

/-- AP.PROC (R162). -/
def execApProc (u : Byte) (x : F) (s : State) : Host.Outcome State Fault Refusal :=
  finish 1 s do
    finiteOperands [x]
    stepUnit viewAp .ap (apProc x) u s

end Sys2Proof.Machine
end

