-- ==== Sys2Proof/Machine/Normalise.lean ====
section
/-! DEFINITION. Peak normalisation and NORM (48_normalise), and the body that every mono block command shares
(20_memory R74). -/

namespace Sys2Proof.Machine

/-- The left-to-right maximum of the absolute values, from +0.0 (R291). -/
def peakOf (vs : List F) : F := vs.foldl (fun peak v => if fLt peak (fAbs v) then fAbs v else peak) fZero

/-- `Normalise(c, len)` (R291): when the peak is above 1.0 every cell of the range is divided by it and NORMEDc is set,
otherwise NORMEDc is cleared and no cell is touched. A quotient has magnitude at most 1.0, so it needs no test. -/
def normalise (c : Col) (len : Nat) (s : State) : Run State := do
  let vs ← readCells (column c s) 0 len
  if fLt fOne (peakOf vs) then
    return setNormed c true (setColumn c (writeCells (column c s) 0 (vs.map (fDiv · (peakOf vs)))) s)
  else
    return setNormed c false s

/-- NORM (R292). -/
def execNorm (c : Col) (len : BitVec 32) (s : State) : Host.Outcome State Fault Refusal :=
  finish 0 s do
    if s.params.ylen < len.toNat then raise .capacity
    normalise c len.toNat s

/-- One channel of a block command: `YMEM[c][n] <- Val step(XMEM[n])` for `n` in `0 .. len-1`, the instance's last
state in its slot, then `Normalise(c, len)` (44_flanger R204; 45_reverb_bank R226, R228). -/
def channel {α : Type} (wrap : α → Slot) (f : α → F → Run (F × α)) (u : Byte) (a : α) (c : Col) (xs : List F)
    (s : State) : Run State := do
  let (ys, a') ← stepAll f a xs
  normalise c xs.length (setColumn c (writeCells (column c s) 0 ys) (setSlot u (wrap a') s))

/-- The body of a mono block command: slot, `len`, input cells, then the channel (60_exceptions R312). -/
def blockUnit {α : Type} (view : Slot → Option α) (wrap : α → Slot) (f : α → F → Run (F × α)) (u : Byte) (len : Nat)
    (s : State) : Run State := do
  let a ← slotAs view u s
  blockLen len s
  let xs ← readCells s.XMEM 0 len
  channel wrap f u a .c0 xs s

end Sys2Proof.Machine
end

