-- ==== Sys2Proof/Machine/Oscillators.lean ====
section
/-! DEFINITION. The units lfo_phase_accumulator and triangular_oscillator (43_oscillators): LFO.CFG, LFO.TICK, TRI.CFG,
TRI.TICK, and the functions LFONew, LFOTick, Tri, PhaseB and PhasorAdvance that other units use. -/

namespace Sys2Proof.Machine

/-! ### lfo_phase_accumulator -/

/-- `LFONew` (R171). -/
def lfoNew (rate center range : F) (fs : Word) : Run LFOState := do
  let step ← checked (fDiv (fMul Config.TWO_PI rate) (toF fs.toNat))
  return ⟨fZero, step, center, range⟩

/-- The phase after one advance: one subtraction of TWO_PI, upward only, on a strict comparison (R172, R173). -/
def lfoAdvance (l : LFOState) : F :=
  let p := fAdd l.phase l.step
  if fLt Config.TWO_PI p then fSub p Config.TWO_PI else p

/-- `LFOTick` (R172): the value is computed from the phase before the advance. -/
def lfoTick (l : LFOState) : Run (F × LFOState) := do
  let v ← checked (fAdd l.center (fMul l.range (Config.SIN l.phase)))
  let phase ← checked (lfoAdvance l)
  return (v, { l with phase := phase })

/-- LFO.CFG (R171); rate, center and range are not checked. -/
def execLfoCfg (u : Byte) (rate center range : F) (fs : Word) (s : State) : Host.Outcome State Fault Refusal :=
  finish 4 s do
    finiteOperands [rate, center, range]
    narrowOperand fs
    cfgSlot u s
    goodRate fs
    let l ← lfoNew rate center range fs
    return setSlot u (.lfo l) s

/-- LFO.TICK (R172). -/
def execLfoTick (u : Byte) (s : State) : Host.Outcome State Fault Refusal :=
  finish 0 s (stepUnit viewLfo .lfo lfoTick u s)

/-! ### triangular_oscillator -/

/-- `Tri(p) = 1.0 - (2.0 × abs(p - 0.5))` (R181). -/
def tri (p : F) : F := fSub fOne (fMul fTwo (fAbs (fSub p fHalf)))

/-- `PhaseB(p)` (R182). -/
def phaseB (p : F) : F :=
  let q := fAdd p fHalf
  if fLe fOne q then fSub q fOne else q

/-- `PhasorAdvance(p, rate)` (R183): one correction, in either direction. -/
def phasorAdvance (p rate : F) : F :=
  let q := fAdd p rate
  if fLe fOne q then fSub q fOne
  else if fLt q fZero then fAdd q fOne
  else q

/-- `if abs(rate) ≥ 1.0: refuse(phasor_rate)` (R185; 47_pitch_shifter R262; U4). -/
def phasorRateOk (rate : F) : Run Unit := if fLe fOne (fAbs rate) then refuse .phasorRate else .ok ()

/-- What TRITick returns: the two gains and the two phases. -/
structure TriOut where
  gA : F
  gB : F
  pA : F
  pB : F
  deriving DecidableEq, Repr

/-- `TRITick` (R186): gains and phases before the advance, each gain at its own phase. -/
def triTick (t : TRIState) : Run (TriOut × TRIState) := do
  let pB ← checked (phaseB t.p)
  let gA ← checked (tri t.p)
  let gB ← checked (tri pB)
  let p ← checked (phasorAdvance t.p t.rate)
  return (⟨gA, gB, t.p, pB⟩, { t with p := p })

/-- TRI.CFG (R185). -/
def execTriCfg (u : Byte) (rate : F) (s : State) : Host.Outcome State Fault Refusal :=
  finish 1 s do
    finiteOperands [rate]
    cfgSlot u s
    phasorRateOk rate
    return setSlot u (.tri ⟨fZero, rate⟩) s

/-- TRI.TICK (R186). -/
def execTriTick (u : Byte) (s : State) : Host.Outcome State Fault Refusal :=
  finish 0 s do
    let t ← slotAs viewTri u s
    let (o, t') ← triTick t
    return writeRes o.gA o.gB o.pA o.pB (setSlot u (.tri t') s)

end Sys2Proof.Machine
end

