-- ==== Sys2Proof/Machine/Flanger.lean ====
section
/-! DEFINITION. The unit flanger_modulated_delay (44_flanger): FL.CFG, FL.STEP, FL.BLOCK. -/

namespace Sys2Proof.Machine

/-- The minimum delay in samples (R201): 0 is allowed, a negative quotient is refused (U5). -/
def minDelay (capMax : Nat) (minMs : F) (fs : Word) : Run Nat :=
  if fLt (msQuotient minMs fs) fZero then refuse .negativeDelay
  else if fLt (toF capMax) (msQuotient minMs fs) then raise .capacity
  else .ok (fTrunc (msQuotient minMs fs)).toNat

/-- The LFO's center and range for two delay bounds (R201). -/
def sweepCenter (minD maxD : Nat) : F := fDiv (fAdd (toF minD) (toF maxD)) fTwo
def sweepRange (minD maxD : Nat) : F := fDiv (fSub (toF maxD) (toF minD)) fTwo

/-- FL.CFG (R201). -/
def execFlCfg (u : Byte) (minMs maxMs rate depth : F) (fs : Word) (s : State) : Host.Outcome State Fault Refusal :=
  finish 5 s do
    finiteOperands [minMs, maxMs, rate, depth]
    narrowOperand fs
    cfgSlot u s
    goodRate fs
    let maxD ← msToSamples s.params.capMax maxMs fs
    let minD ← minDelay s.params.capMax minMs fs
    let center ← checked (sweepCenter minD maxD)
    let range ← checked (sweepRange minD maxD)
    let lfo ← lfoNew rate center range fs
    return setSlot u (.fl ⟨freshDelay maxD, lfo, depth, minD, maxD⟩) s

/-- `FLStep` (R202): the modulated read, the output, and only then the raw input is written. -/
def flStep (f : FLState) (x : F) : Run (F × FLState) := do
  let (cd, lfo) ← lfoTick f.lfo
  let dl ← fracRead f.d cd
  let y ← checked (fAdd x (fMul f.depth dl))
  return (y, { f with lfo := lfo, d := push f.d x })

/-- FL.STEP (R202). -/
def execFlStep (u : Byte) (x : F) (s : State) : Host.Outcome State Fault Refusal :=
  finish 1 s do
    finiteOperands [x]
    stepUnit viewFl .fl (flStep · x) u s

/-- FL.BLOCK (R204). -/
def execFlBlock (u : Byte) (len : BitVec 32) (s : State) : Host.Outcome State Fault Refusal :=
  finish 0 s (blockUnit viewFl .fl flStep u len.toNat s)

end Sys2Proof.Machine
end

