-- ==== Sys2Proof/Machine/PitchShifter.lean ====
section
/-! DEFINITION. The unit pitch_shifter_overlap_add and the semitone conversion (47_pitch_shifter): PS.CFG, PS.SHIFT,
PS.STEP, PS.BLOCK, SEMI. -/

namespace Sys2Proof.Machine

/-- The window in samples (R261): `MsToSamples`, then `if 2 × W > CAP_MAX: raise E_CAPACITY`. -/
def windowSamples (capMax : Nat) (windowMs : F) (fs : Word) : Run Nat := do
  let W ← msToSamples capMax windowMs fs
  if capMax < 2 * W then raise .capacity
  return W

/-- PS.CFG (R261). -/
def execPsCfg (u : Byte) (windowMs : F) (fs : Word) (s : State) : Host.Outcome State Fault Refusal :=
  finish 2 s do
    finiteOperands [windowMs]
    narrowOperand fs
    cfgSlot u s
    goodRate fs
    let W ← windowSamples s.params.capMax windowMs fs
    return setSlot u (.ps ⟨W, freshDelay (2 * W), ⟨fZero, fZero⟩, fOne⟩) s

/-- The shift of R262: only `factor` and `rate` change. -/
def psShift (p : PSState) (semitones : F) : Run PSState := do
  let f ← checked (Config.EXP2 (fDiv semitones fTwelve))
  let r ← checked (fDiv (fSub fOne f) (toF p.W))
  phasorRateOk r
  return { p with factor := f, tri := { p.tri with rate := r } }

/-- PS.SHIFT (R262). -/
def execPsShift (u : Byte) (semitones : F) (s : State) : Host.Outcome State Fault Refusal :=
  finish 1 s do
    finiteOperands [semitones]
    let p ← slotAs viewPs u s
    let p' ← psShift p semitones
    return setSlot u (.ps p') s

/-- `PSStep` (R264): both taps are read, the output formed, the raw input written, the cursor advanced, and last the
phasor. -/
def psStep (q : PSState) (x : F) : Run (F × PSState) := do
  let pA := q.tri.p
  let pB ← checked (phaseB pA)
  let dA ← checked (fMul pA (toF q.W))
  let dB ← checked (fMul pB (toF q.W))
  let gA ← checked (tri pA)
  let gB ← checked (tri pB)
  let vA ← fracRead q.d dA
  let vB ← fracRead q.d dB
  let y ← checked (fAdd (fMul vA gA) (fMul vB gB))
  let p ← checked (phasorAdvance q.tri.p q.tri.rate)
  return (y, { q with d := push q.d x, tri := { q.tri with p := p } })

/-- PS.STEP (R264). -/
def execPsStep (u : Byte) (x : F) (s : State) : Host.Outcome State Fault Refusal :=
  finish 1 s do
    finiteOperands [x]
    stepUnit viewPs .ps (psStep · x) u s

/-- PS.BLOCK (R269); buffer, cursor and phasor persist across blocks (R270). -/
def execPsBlock (u : Byte) (len : BitVec 32) (s : State) : Host.Outcome State Fault Refusal :=
  finish 0 s (blockUnit viewPs .ps psStep u len.toNat s)

/-- The semitone distance of R275: both frequencies above 0.0, and a quotient that neither vanishes nor overflows,
or the command is refused (U6). -/
def semitones (fTarget fRoot : F) : Run F :=
  if fLe fTarget fZero || fLe fRoot fZero then refuse .logDomain
  else if fIsZero (fDiv fTarget fRoot) || !fFinite (fDiv fTarget fRoot) then refuse .logDomain
  else checked (fMul fTwelve (Config.LOG2 (fDiv fTarget fRoot)))

/-- SEMI (R275). -/
def execSemi (fTarget fRoot : F) (s : State) : Host.Outcome State Fault Refusal :=
  finish 2 s do
    finiteOperands [fTarget, fRoot]
    let y ← semitones fTarget fRoot
    return writeRes0 y s

end Sys2Proof.Machine
end

