-- ==== Sys2Proof/Machine/Reverb.lean ====
section
/-! DEFINITION. The unit multi_comb_parallel_bank, a Schroeder reverberator (45_reverb_bank): RV.CFG, RV.STEP, RV.BLOCK,
RV.BLOCK2. -/

namespace Sys2Proof.Machine

/-- `spread_ms` (R222). -/
def spreadMs (spread fs : Word) : F := fDiv (fMul (toF spread.toNat) fThousand) (toF fs.toNat)

/-- The filters of a bank or a chain in index order, each delay in milliseconds paired with its gain (R221). -/
def newFilters (capMax : Nat) (fs : Word) (params : List (F × F)) : Run (List CombState) :=
  match params with
  | [] => .ok []
  | (ms, gain) :: params => do
    let c ← newComb capMax ms gain fs
    let cs ← newFilters capMax fs params
    return c :: cs

/-- `if any of nCD, nCG, nAD, nAG > NFILT_MAX: raise E_CAPACITY` (R221; decoding makes the same test first). -/
def countsOk (nfiltMax : Nat) (counts : List Nat) : Run Unit :=
  if counts.any (nfiltMax < ·) then raise .capacity else .ok ()

/-- `if nCD ≠ nCG or nAD ≠ nAG: raise E_LEN_MISMATCH`, then `if nCD = 0: raise E_NO_COMB` (R221). -/
def banksOk (nCD nCG nAD nAG : Nat) : Run Unit :=
  if nCD ≠ nCG || nAD ≠ nAG then raise .lenMismatch
  else if nCD = 0 then raise .noComb
  else .ok ()

/-- RV.CFG (R221). -/
def execRvCfg (u : Byte) (fs : Word) (wet : F) (spread : Word) (combDelayMs combGain apDelayMs apGain : List F)
    (s : State) : Host.Outcome State Fault Refusal :=
  finish (7 + combDelayMs.length + combGain.length + apDelayMs.length + apGain.length) s do
    countsOk s.params.nfiltMax [combDelayMs.length, combGain.length, apDelayMs.length, apGain.length]
    finiteOperands (wet :: (combDelayMs ++ combGain ++ apDelayMs ++ apGain))
    narrowOperand fs
    narrowOperand spread
    cfgSlot u s
    goodRate fs
    banksOk combDelayMs.length combGain.length apDelayMs.length apGain.length
    let comb ← newFilters s.params.capMax fs ((combDelayMs.map (fAdd · (spreadMs spread fs))).zip combGain)
    let ap ← newFilters s.params.capMax fs (apDelayMs.zip apGain)
    return setSlot u (.rv ⟨comb, ap, fDiv fOne (toF combDelayMs.length), wet⟩) s

/-- The parallel bank: every comb is stepped with the same input, the outputs summed in index order onto `acc`
(R223). -/
def combBank (x : F) (acc : F) (cs : List CombState) : Run (F × List CombState) :=
  match cs with
  | [] => .ok (acc, [])
  | c :: cs => do
    let (out, c') ← combProc x c
    let acc' ← checked (fAdd acc out)
    let (sum, cs') ← combBank x acc' cs
    return (sum, c' :: cs')

/-- The serial chain: each all-pass feeds the next (R223). -/
def apChain (w : F) (as : List CombState) : Run (F × List CombState) :=
  match as with
  | [] => .ok (w, [])
  | a :: as => do
    let (out, a') ← apProc w a
    let (last, as') ← apChain out as
    return (last, a' :: as')

/-- `RVStep` (R223). -/
def rvStep (r : RVState) (x : F) : Run (F × RVState) := do
  let (acc, comb) ← combBank x fZero r.comb
  let w ← checked (fMul acc r.scale)
  let (w, ap) ← apChain w r.ap
  let y ← checked (fAdd x (fMul w r.wet))
  return (y, { r with comb := comb, ap := ap })

/-- RV.STEP (R223). -/
def execRvStep (u : Byte) (x : F) (s : State) : Host.Outcome State Fault Refusal :=
  finish 1 s do
    finiteOperands [x]
    stepUnit viewRv .rv (rvStep · x) u s

/-- RV.BLOCK (R226). -/
def execRvBlock (u : Byte) (len : BitVec 32) (s : State) : Host.Outcome State Fault Refusal :=
  finish 0 s (blockUnit viewRv .rv rvStep u len.toNat s)

/-- The slot check of RV.BLOCK2: both in range, different, both of kind RV (60_exceptions R305). -/
def stereoSlots (u v : Byte) (s : State) : Run (RVState × RVState) := do
  if u = v then raise .slot
  let l ← slotAs viewRv u s
  let r ← slotAs viewRv v s
  return (l, r)

/-- RV.BLOCK2 (R228): the left channel is completed, normalisation included, before the right one starts. -/
def execRvBlock2 (u v : Byte) (len : BitVec 32) (s : State) : Host.Outcome State Fault Refusal :=
  finish 0 s do
    let (l, r) ← stereoSlots u v s
    blockLen len.toNat s
    let xs ← readCells s.XMEM 0 len.toNat
    let t ← channel .rv rvStep u l .c0 xs s
    channel .rv rvStep v r .c1 xs t

end Sys2Proof.Machine
end

