-- ==== Sys2Proof/Machine/Tremolo.lean ====
section
/-! DEFINITION. The unit tremolo_amplitude_modulator (46_tremolo): TR.CFG, TR.STEP, TR.BLOCK. -/

namespace Sys2Proof.Machine

/-- TR.CFG (R251): center `1 - depth/2`, range `depth/2`; depth is not checked. -/
def execTrCfg (u : Byte) (rate depth : F) (fs : Word) (s : State) : Host.Outcome State Fault Refusal :=
  finish 3 s do
    finiteOperands [rate, depth]
    narrowOperand fs
    cfgSlot u s
    goodRate fs
    let half ← checked (fDiv depth fTwo)
    let center ← checked (fSub fOne half)
    let lfo ← lfoNew rate center half fs
    return setSlot u (.tr ⟨lfo⟩) s

/-- `TRStep` (R252). -/
def trStep (t : TRState) (x : F) : Run (F × TRState) := do
  let (g, lfo) ← lfoTick t.lfo
  let y ← checked (fMul x g)
  return (y, ⟨lfo⟩)

/-- TR.STEP (R252). -/
def execTrStep (u : Byte) (x : F) (s : State) : Host.Outcome State Fault Refusal :=
  finish 1 s do
    finiteOperands [x]
    stepUnit viewTr .tr (trStep · x) u s

/-- TR.BLOCK (R253). -/
def execTrBlock (u : Byte) (len : BitVec 32) (s : State) : Host.Outcome State Fault Refusal :=
  finish 0 s (blockUnit viewTr .tr trStep u len.toNat s)

end Sys2Proof.Machine
end

