-- ==== Sys2Proof/Machine/Dispatch.lean ====
section
/-! DEFINITION. One arm per command (30_encoding R94): the meaning of each. -/

namespace Sys2Proof.Machine

def exec (i : Instr) (s : State) : Host.Outcome State Fault Refusal :=
  match i with
  | .dlCfg u d fs => Sys2Proof.Machine.execDlCfg u d fs s
  | .dlWrite u x => Sys2Proof.Machine.execDlWrite u x s
  | .dlRead u o => Sys2Proof.Machine.execDlRead u o s
  | .dlProc u x g => Sys2Proof.Machine.execDlProc u x g s
  | .fircCfg u d g fs => Sys2Proof.Machine.execFircCfg u d g fs s
  | .fircProc u x => Sys2Proof.Machine.execFircProc u x s
  | .iircCfg u d g fs => Sys2Proof.Machine.execIircCfg u d g fs s
  | .iircProc u x => Sys2Proof.Machine.execIircProc u x s
  | .apCfg u d g fs => Sys2Proof.Machine.execApCfg u d g fs s
  | .apProc u x => Sys2Proof.Machine.execApProc u x s
  | .lfoCfg u r c g fs => Sys2Proof.Machine.execLfoCfg u r c g fs s
  | .lfoTick u => Sys2Proof.Machine.execLfoTick u s
  | .triCfg u r => Sys2Proof.Machine.execTriCfg u r s
  | .triTick u => Sys2Proof.Machine.execTriTick u s
  | .flCfg u mn mx r d fs => Sys2Proof.Machine.execFlCfg u mn mx r d fs s
  | .flStep u x => Sys2Proof.Machine.execFlStep u x s
  | .flBlock u len => Sys2Proof.Machine.execFlBlock u len s
  | .rvCfg u fs wet spread cd cg ad ag => Sys2Proof.Machine.execRvCfg u fs wet spread cd cg ad ag s
  | .rvStep u x => Sys2Proof.Machine.execRvStep u x s
  | .rvBlock u len => Sys2Proof.Machine.execRvBlock u len s
  | .rvBlock2 u v len => Sys2Proof.Machine.execRvBlock2 u v len s
  | .trCfg u r d fs => Sys2Proof.Machine.execTrCfg u r d fs s
  | .trStep u x => Sys2Proof.Machine.execTrStep u x s
  | .trBlock u len => Sys2Proof.Machine.execTrBlock u len s
  | .psCfg u w fs => Sys2Proof.Machine.execPsCfg u w fs s
  | .psShift u t => Sys2Proof.Machine.execPsShift u t s
  | .psStep u x => Sys2Proof.Machine.execPsStep u x s
  | .psBlock u len => Sys2Proof.Machine.execPsBlock u len s
  | .semi t r => Sys2Proof.Machine.execSemi t r s
  | .norm c len => Sys2Proof.Machine.execNorm c len s

end Sys2Proof.Machine
end

