-- ==== Sys2Proof/Machine/Step.lean ====
section
/-! DEFINITION. One step of the engine (10_state R20, R26; 60_exceptions R309, R311; 70_reset_and_hazards R347). -/

namespace Sys2Proof.Machine

/-- Fetch, decode and execute the command at `pc`. A FAULTED engine has no step (R311); an engine whose stream has no
word at `pc` is idle and has none either (R347); a command that does not decode raises its cause (R309). -/
def step (s : State) : Host.Outcome State Fault Refusal :=
  if statusFault s.STATUS then .fault .faulted
  else
    match fetch s with
    | [] => .refused .idle
    | ws =>
      match decode s.params.nfiltMax ws with
      | .ok i => exec i s
      | .error e => .next (faultEntry (decodeCause e) s)

/-- `s` with the instruction whose bits are `w` standing in CMD at `pc`, its bits from `nbits` on zero up to the longest
command; the other words of CMD are as before (log 6). -/
def State.withFetchWord (s : State) (nbits w : Nat) : State :=
  { s with CMD := placeWords s.CMD s.pc (tableWords s.params.nfiltMax nbits w) }

end Sys2Proof.Machine
end

