-- ==== Sys2Proof/Machine/Pseudo.lean ====
section
/-! DEFINITION. The pseudo-commands of 30_encoding R99, each a fixed sequence of commands. -/

namespace Sys2Proof.Machine

inductive Pseudo where
  | flanger (u : Byte) (minMs maxMs rate depth : F) (fs : Word) (len : BitVec 32)
  | reverb (u : Byte) (fs : Word) (wet : F) (cd cg ad ag : List F) (len : BitVec 32)
  | reverbSt (u v : Byte) (fs : Word) (wet : F) (spread : Word) (cd cg ad ag : List F) (len : BitVec 32)
  | tremolo (u : Byte) (rate depth : F) (fs : Word) (len : BitVec 32)
  | pitchShift (u : Byte) (windowMs semitones : F) (fs : Word) (len : BitVec 32)
  /-- The feed-forward comb tap; `L` is the capacity of slot `u`, and the host forms `x + g × RES[0]` after it. -/
  | fircFF (u : Byte) (L : Nat) (x : F)
  deriving DecidableEq, Repr

/-- The expansions of R99. -/
def expand : Pseudo → List Instr
  | .flanger u mn mx r d fs len => [.flCfg u mn mx r d fs, .flBlock u len]
  | .reverb u fs wet cd cg ad ag len => [.rvCfg u fs wet 0 cd cg ad ag, .rvBlock u len]
  | .reverbSt u v fs wet spread cd cg ad ag len =>
    [.rvCfg u fs wet 0 cd cg ad ag, .rvCfg v fs wet spread cd cg ad ag, .rvBlock2 u v len]
  | .tremolo u r d fs len => [.trCfg u r d fs, .trBlock u len]
  | .pitchShift u w t fs len => [.psCfg u w fs, .psShift u t, .psBlock u len]
  | .fircFF u L x => [.dlRead u (toF L), .dlWrite u x]

/-- The command stream of a sequence of commands (R90). -/
def assemble (is : List Instr) : List Word := is.flatMap encode

end Sys2Proof.Machine
end

