-- ==== Sys2Proof/Machine/HostMoves.lean ====
section
/-! DEFINITION. What the host can do between commands (20_memory R70 to R75; 70_reset_and_hazards R340, R343). The moves
are not steps of the engine and `step` never makes one (log 12). -/

namespace Sys2Proof.Machine

/-- The moves of the host that change the state (20_memory R70). -/
inductive HostMove where
  /-- Write one cell of XMEM. -/
  | writeX (i : Nat) (v : F)
  /-- Reset the engine with a new command stream (70_reset_and_hazards R340). -/
  | reset (cmd : List Word)
  deriving DecidableEq, Repr

/-- A reset of this machine: the values of 10_state R40, its own slot count and capacities kept. -/
def resetMachine (cmd : List Word) (s : State) : State :=
  { State.resetWith cmd with U := List.replicate s.U.length .empty, params := s.params }

/-- A host move; none when the cell does not exist (DESIGN CHOICE, log 18). It is possible in every state: the states of the model are the
command boundaries (R70). -/
def hostMove (m : HostMove) (s : State) : Option State :=
  match m with
  | .writeX i v => if i < s.params.xlen then some { s with XMEM := memWrite s.XMEM i v } else none
  | .reset cmd => some (resetMachine cmd s)

/-- The host's read of a cell of XMEM (R70). An Unwritten cell returns no defined value (R66). What a read at XLEN and
above gives, no rule says: the model makes no test and answers what its list of cells holds there, which is nothing, as
for an Unwritten cell, in every state whose memories are inside their sizes (DESIGN CHOICE, log 18). -/
def hostReadX (i : Nat) (s : State) : Cell := memRead s.XMEM i

/-- The host's read of a cell of YMEM (R70), and at YLEN and above the same choice as `hostReadX` (DESIGN CHOICE,
log 18). -/
def hostReadY (c : Col) (i : Nat) (s : State) : Cell := memRead (column c s) i

/-! The host's reads of the registers (R70). -/

def hostReadRes (i : Fin 4) (s : State) : F :=
  match i with
  | 0 => s.RES.r0
  | 1 => s.RES.r1
  | 2 => s.RES.r2
  | 3 => s.RES.r3
def hostReadStatus (s : State) : BitVec 32 := s.STATUS
def hostReadFci (s : State) : Nat := s.FCI

/-- The host writing samples to XMEM from index `i` on (R71). No rule says what a load past XLEN does: the model tests
nothing here and lists such cells too, where `hostMove` and `hostChain` answer none (DESIGN CHOICE, log 18). -/
def hostLoad (i : Nat) (vs : List F) (s : State) : State := { s with XMEM := writeCells s.XMEM i vs }

/-- Chaining (R75): `YMEM[0][0 .. len-1]` copied to `XMEM[0 .. len-1]` between two block commands; none when a cell
of the range holds no defined value or does not exist (DESIGN CHOICE, log 18). -/
def hostChain (len : Nat) (s : State) : Option State :=
  if s.params.xlen < len then none
  else ((List.range len).mapM (memRead s.YMEM0)).map fun vs => hostLoad 0 vs s

/-- The engine is idle: the run has completed normally (70_reset_and_hazards R347). -/
def idle (s : State) : Bool := s.pc == s.CMD.length && !statusFault s.STATUS

end Sys2Proof.Machine
end

