-- ==== Sys2Proof/Safety.lean ====
section
/-! DEFINITION. What counts as a sound state, what each command may change, and the rules' formulas written without
the machine's tests: the terms the statements are written in. -/

namespace Sys2Proof.Machine

/-! ### Sound states -/

/-- R31: the buffer has `L` elements and the cursor is in `[0, L)`; so `L ≥ 1`. -/
def delayOk (d : DLState) : Bool := d.buf.length == d.L && decide (d.cur < d.L)

/-- The shape of an instance (10_state R31 to R38). -/
def slotShaped : Slot → Bool
  | .empty | .lfo _ | .tri _ | .tr _ => true
  | .dl d => delayOk d
  | .firc c | .iirc c | .ap c => delayOk c.d
  | .fl f => delayOk f.d && f.d.L == f.maxD
  | .rv r => !r.comb.isEmpty && r.comb.all (fun c => delayOk c.d) && r.ap.all (fun a => delayOk a.d)
  | .ps p => delayOk p.d && p.d.L == 2 * p.W

def slotsShaped (s : State) : Bool := s.U.all slotShaped

def delayFinite (d : DLState) : Bool := d.buf.all fFinite
def combFinite (c : CombState) : Bool := delayFinite c.d && fFinite c.gain
def lfoFinite (l : LFOState) : Bool := fFinite l.phase && fFinite l.step && fFinite l.center && fFinite l.range

/-- Every `F` field of an instance is finite (93_implementation_defined U1, U2). -/
def slotFinite : Slot → Bool
  | .empty => true
  | .dl d => delayFinite d
  | .firc c | .iirc c | .ap c => combFinite c
  | .lfo l => lfoFinite l
  | .tri t => fFinite t.p && fFinite t.rate
  | .fl f => delayFinite f.d && lfoFinite f.lfo && fFinite f.depth
  | .rv r => r.comb.all combFinite && r.ap.all combFinite && fFinite r.scale && fFinite r.wet
  | .tr t => lfoFinite t.lfo
  | .ps p => delayFinite p.d && fFinite p.tri.p && fFinite p.tri.rate && fFinite p.factor

/-- A phasor as 43_oscillators R183 keeps it: in the closed interval `[0, 1]`, its rate of magnitude below 1.0. -/
def phasorOk (t : TRIState) : Bool := fLe fZero t.p && fLe t.p fOne && fLt (fAbs t.rate) fOne

/-- The band that 43_oscillators R173 gives an LFO: with its step in `[0, TWO_PI)` its phase is in `[0, TWO_PI]`
(90_conflicts C6). Nothing is asked of other steps. -/
def lfoBandOk (l : LFOState) : Bool :=
  !(fLe fZero l.step && fLt l.step Config.TWO_PI) || (fLe fZero l.phase && fLe l.phase Config.TWO_PI)

/-- Every oscillator of an instance is in its interval. -/
def slotPhasesOk : Slot → Bool
  | .empty | .dl _ | .firc _ | .iirc _ | .ap _ | .rv _ => true
  | .lfo l => lfoBandOk l
  | .tri t => phasorOk t
  | .fl f => lfoBandOk f.lfo
  | .tr t => lfoBandOk t.lfo
  | .ps p => phasorOk p.tri

def phasesOk (s : State) : Bool := s.U.all slotPhasesOk

/-- Every value in the slots and in YMEM is finite. XMEM is the host's, which may write anything. -/
def valuesFinite (s : State) : Bool :=
  s.U.all slotFinite && s.YMEM0.all (fun c => fFinite c.2) && s.YMEM1.all (fun c => fFinite c.2)

/-- A memory in canonical form with no cell beyond its size. -/
def memOk (size : Nat) (m : Mem) : Prop := memWf m ∧ ∀ c ∈ m, c.1 < size

def memoriesOk (s : State) : Prop :=
  memOk s.params.xlen s.XMEM ∧ memOk s.params.ylen s.YMEM0 ∧ memOk s.params.ylen s.YMEM1

/-- The reserved bits of STATUS (10_state R27). -/
def statusReserved (st : BitVec 32) : BitVec 32 := st &&& 0xFFFF00F8

/-- The cause codes that the engine writes (60_exceptions R301): 3 is not one of them. -/
def engineCauses : List Byte := [1, 2, 4, 5, 6, 7, 8]

/-- R27, R28: reserved bits 0; CAUSE 0 while FAULT is 0 and a cause of the engine while it is 1; FCI the index at which
the engine stands while FAULT is 1. -/
def statusOk (s : State) : Bool :=
  statusReserved s.STATUS == 0 &&
    (if statusFault s.STATUS then engineCauses.contains (statusCause s.STATUS) && s.FCI == s.pc
     else statusCause s.STATUS == 0)

/-- R347: `pc` never exceeds `length(CMD)`. -/
def pcOk (s : State) : Bool := s.pc ≤ s.CMD.length

/-! ### What each command may change -/

def isCfg : Instr → Bool
  | .dlCfg .. | .fircCfg .. | .iircCfg .. | .apCfg .. | .lfoCfg .. | .triCfg .. | .flCfg .. | .rvCfg .. | .trCfg ..
  | .psCfg .. => true
  | .dlWrite .. | .dlRead .. | .dlProc .. | .fircProc .. | .iircProc .. | .apProc .. | .lfoTick .. | .triTick ..
  | .flStep .. | .flBlock .. | .rvStep .. | .rvBlock .. | .rvBlock2 .. | .trStep .. | .trBlock .. | .psShift ..
  | .psStep .. | .psBlock .. | .semi .. | .norm .. => false

/-- The slots whose content a command may change. -/
def changedSlots : Instr → List Byte
  | .dlRead .. | .semi .. | .norm .. => []
  | .rvBlock2 u v _ => [u, v]
  | .dlCfg u _ _ | .dlWrite u _ | .dlProc u _ _ | .fircCfg u _ _ _ | .fircProc u _ | .iircCfg u _ _ _ | .iircProc u _
  | .apCfg u _ _ _ | .apProc u _ | .lfoCfg u _ _ _ _ | .lfoTick u | .triCfg u _ | .triTick u | .flCfg u _ _ _ _ _
  | .flStep u _ | .flBlock u _ | .rvCfg u _ _ _ _ _ _ _ | .rvStep u _ | .rvBlock u _ | .trCfg u _ _ _ | .trStep u _
  | .trBlock u _ | .psCfg u _ _ | .psShift u _ | .psStep u _ | .psBlock u _ => [u]

/-- How many result registers a command writes: the column `ret` of 30_encoding R94. -/
def resultCount : Instr → Nat
  | .triTick .. => 4
  | .dlRead .. | .dlProc .. | .fircProc .. | .iircProc .. | .apProc .. | .lfoTick .. | .flStep .. | .rvStep ..
  | .trStep .. | .psStep .. | .semi .. => 1
  | .dlCfg .. | .dlWrite .. | .fircCfg .. | .iircCfg .. | .apCfg .. | .lfoCfg .. | .triCfg .. | .flCfg .. | .flBlock ..
  | .rvCfg .. | .rvBlock .. | .rvBlock2 .. | .trCfg .. | .trBlock .. | .psCfg .. | .psShift .. | .psBlock .. | .norm .. => 0

/-- How many cells of YMEM[c], from index 0 on, a command may write; none for a command that does not touch the
column (20_memory R62, R74). -/
def outputLen (c : Col) : Instr → Option Nat
  | .flBlock _ len | .rvBlock _ len | .trBlock _ len | .psBlock _ len => if c = .c0 then some len.toNat else none
  | .rvBlock2 _ _ len => some len.toNat
  | .norm c' len => if c = c' then some len.toNat else none
  | .dlCfg .. | .dlWrite .. | .dlRead .. | .dlProc .. | .fircCfg .. | .fircProc .. | .iircCfg .. | .iircProc ..
  | .apCfg .. | .apProc .. | .lfoCfg .. | .lfoTick .. | .triCfg .. | .triTick .. | .flCfg .. | .flStep .. | .rvCfg ..
  | .rvStep .. | .trCfg .. | .trStep .. | .psCfg .. | .psShift .. | .psStep .. | .semi .. => none

/-- The causes that executing a command can raise: the column `raised by` of 60_exceptions R301. E_ILLEGAL is
decoding's alone. -/
def causesOf : Instr → List Cause
  | .dlCfg .. | .fircCfg .. | .iircCfg .. | .apCfg .. | .flCfg .. | .psCfg .. => [.slot, .badRate, .zeroDelay, .capacity]
  | .rvCfg .. => [.capacity, .slot, .badRate, .lenMismatch, .noComb, .zeroDelay]
  | .lfoCfg .. | .trCfg .. => [.slot, .badRate]
  | .flBlock .. | .rvBlock .. | .rvBlock2 .. | .trBlock .. | .psBlock .. => [.slot, .capacity]
  | .norm .. => [.capacity]
  | .semi .. => []
  | .dlWrite .. | .dlRead .. | .dlProc .. | .fircProc .. | .iircProc .. | .apProc .. | .lfoTick .. | .triCfg ..
  | .triTick .. | .flStep .. | .rvStep .. | .trStep .. | .psShift .. | .psStep .. => [.slot]

/-- A delay line without what a per-sample command changes. -/
def delaySettings (d : DLState) : DLState := { d with buf := [], cur := 0 }
def combSettings (c : CombState) : CombState := { c with d := delaySettings c.d }
def lfoSettings (l : LFOState) : LFOState := { l with phase := fZero }

/-- An instance without its buffers' contents, cursors, phases and phasors: what only a CFG command sets, and for the
pitch shifter also PS.SHIFT (70_reset_and_hazards R341). -/
def settings : Slot → Slot
  | .empty => .empty
  | .dl d => .dl (delaySettings d)
  | .firc c => .firc (combSettings c)
  | .iirc c => .iirc (combSettings c)
  | .ap c => .ap (combSettings c)
  | .lfo l => .lfo (lfoSettings l)
  | .tri t => .tri { t with p := fZero }
  | .fl f => .fl { f with d := delaySettings f.d, lfo := lfoSettings f.lfo }
  | .rv r => .rv { r with comb := r.comb.map combSettings, ap := r.ap.map combSettings }
  | .tr t => .tr ⟨lfoSettings t.lfo⟩
  | .ps p => .ps { p with d := delaySettings p.d, tri := { p.tri with p := fZero } }

/-! ### Preconditions of commands -/

/-- The operands of a command that have type `F` (30_encoding R94). -/
def floatOperands : Instr → List F
  | .dlCfg _ d _ => [d]
  | .dlWrite _ x | .fircProc _ x | .iircProc _ x | .apProc _ x | .flStep _ x | .rvStep _ x | .trStep _ x
  | .psStep _ x => [x]
  | .dlRead _ o => [o]
  | .dlProc _ x g => [x, g]
  | .fircCfg _ d g _ | .iircCfg _ d g _ | .apCfg _ d g _ => [d, g]
  | .lfoCfg _ r c g _ => [r, c, g]
  | .triCfg _ r => [r]
  | .flCfg _ mn mx r d _ => [mn, mx, r, d]
  | .rvCfg _ _ wet _ cd cg ad ag => wet :: (cd ++ cg ++ ad ++ ag)
  | .trCfg _ r d _ => [r, d]
  | .psCfg _ w _ => [w]
  | .psShift _ t => [t]
  | .semi t r => [t, r]
  | .lfoTick .. | .triTick .. | .flBlock .. | .rvBlock .. | .rvBlock2 .. | .trBlock .. | .psBlock .. | .norm .. => []

/-- The operands `fs` and `spread` of a command (30_encoding R94). -/
def rateOperands : Instr → List Word
  | .dlCfg _ _ fs | .fircCfg _ _ _ fs | .iircCfg _ _ _ fs | .apCfg _ _ _ fs | .lfoCfg _ _ _ _ fs | .flCfg _ _ _ _ _ fs
  | .trCfg _ _ _ fs | .psCfg _ _ fs => [fs]
  | .rvCfg _ fs _ spread _ _ _ _ => [fs, spread]
  | .dlWrite .. | .dlRead .. | .dlProc .. | .fircProc .. | .iircProc .. | .apProc .. | .lfoTick .. | .triCfg ..
  | .triTick .. | .flStep .. | .flBlock .. | .rvStep .. | .rvBlock .. | .rvBlock2 .. | .trStep .. | .trBlock ..
  | .psShift .. | .psStep .. | .psBlock .. | .semi .. | .norm .. => []

/-- What decoding and item 2 of 60_exceptions R312 leave to the later tests: counts within NFILT_MAX, finite `F`
operands, `fs` and `spread` below 2^53. -/
def operandsOk (i : Instr) (s : State) : Bool :=
  i.wellFormed s.params.nfiltMax && (floatOperands i).all fFinite && (rateOperands i).all (fun n => n.toNat < 2 ^ 53)

/-- The kinds of 10_state R30. -/
inductive Kind where
  | dl | firc | iirc | ap | lfo | tri | fl | rv | tr | ps
  deriving DecidableEq, Repr

/-- `kind(U[u])`; an empty slot has none. -/
def kindOf : Slot → Option Kind
  | .empty => none
  | .dl _ => some .dl
  | .firc _ => some .firc
  | .iirc _ => some .iirc
  | .ap _ => some .ap
  | .lfo _ => some .lfo
  | .tri _ => some .tri
  | .fl _ => some .fl
  | .rv _ => some .rv
  | .tr _ => some .tr
  | .ps _ => some .ps

/-- The slot is in range and of one of these kinds. -/
def hasKind (s : State) (u : Byte) (ks : List Kind) : Bool :=
  match s.U[u.toNat]? with
  | none => false
  | some x =>
    match kindOf x with
    | none => false
    | some k => ks.contains k

/-- The test of `CheckSlot` (60_exceptions R305), from the column `slot kind required` of 30_encoding R94. -/
def slotCheck (i : Instr) (s : State) : Bool :=
  match i with
  | .dlCfg u _ _ | .fircCfg u _ _ _ | .iircCfg u _ _ _ | .apCfg u _ _ _ | .lfoCfg u _ _ _ _ | .triCfg u _
  | .flCfg u _ _ _ _ _ | .rvCfg u _ _ _ _ _ _ _ | .trCfg u _ _ _ | .psCfg u _ _ => u.toNat < s.U.length
  | .dlWrite u _ | .dlRead u _ | .dlProc u _ _ => hasKind s u [.dl, .firc, .iirc, .ap]
  | .fircProc u _ => hasKind s u [.firc]
  | .iircProc u _ => hasKind s u [.iirc]
  | .apProc u _ => hasKind s u [.ap]
  | .lfoTick u => hasKind s u [.lfo]
  | .triTick u => hasKind s u [.tri]
  | .flStep u _ | .flBlock u _ => hasKind s u [.fl]
  | .rvStep u _ | .rvBlock u _ => hasKind s u [.rv]
  | .rvBlock2 u v _ => hasKind s u [.rv] && hasKind s v [.rv] && u != v
  | .trStep u _ | .trBlock u _ => hasKind s u [.tr]
  | .psShift u _ | .psStep u _ | .psBlock u _ => hasKind s u [.ps]
  | .semi .. | .norm .. => true

/-! ### The rules' formulas, without the machine's tests -/

/-- `FracRead` as 40_delay_line R124 writes it: after `n` rounded additions of `L` the position is no longer negative,
and the interpolation there gives `v`. R130 bounds the additions of every position that is not refused; `WrapAddLoopEnds` states
that the bound is no restriction. -/
def Reads (d : DLState) (offset v : F) : Prop :=
  let pos := fSub (toF d.cur) offset
  fFinite pos = true ∧ fLt pos fWrapLimit = false ∧
    ∃ n ≤ wrapFuel, (∀ k < n, fLt ((fun p => fAdd p (toF d.L))^[k] pos) fZero = true) ∧
      fLt ((fun p => fAdd p (toF d.L))^[n] pos) fZero = false ∧
      v = interpolate d ((fun p => fAdd p (toF d.L))^[n] pos) ∧ fFinite v = true

/-- The comb of a bank after one sample (R127): `buf[cur] <- x + (gain × out)`. -/
def combNext (x : F) (c : CombState) : CombState :=
  { c with d := push c.d (fAdd x (fMul c.gain (bufAt c.d c.d.cur))) }

/-- The sum of the bank, in index order from +0.0 (45_reverb_bank R223). -/
def bankSum (cs : List CombState) : F := cs.foldl (fun acc c => fAdd acc (bufAt c.d c.d.cur)) fZero

/-- `bufferIn` and `out` of 42_allpass R162. -/
def apIn (w : F) (a : CombState) : F := fAdd w (fMul a.gain (bufAt a.d a.d.cur))
def apOut (w : F) (a : CombState) : F := fSub (bufAt a.d a.d.cur) (fMul a.gain (apIn w a))

/-- The serial chain of R223: its output and the filters after it. -/
def chainOut (w : F) (as : List CombState) : F := as.foldl apOut w

def chainNext (w : F) (as : List CombState) : List CombState :=
  match as with
  | [] => []
  | a :: as => { a with d := push a.d (apIn w a) } :: chainNext (apOut w a) as

/-- What the chain stores, in index order. -/
def chainStored (w : F) (as : List CombState) : List F :=
  match as with
  | [] => []
  | a :: as => apIn w a :: chainStored (apOut w a) as

/-- `RVStep` (R223). -/
def rvWet (r : RVState) : F := fMul (bankSum r.comb) r.scale
def rvOut (r : RVState) (x : F) : F := fAdd x (fMul (chainOut (rvWet r) r.ap) r.wet)
def rvNext (r : RVState) (x : F) : RVState :=
  { r with comb := r.comb.map (combNext x), ap := chainNext (rvWet r) r.ap }

/-- Every element that `RVStep` stores is finite. -/
def rvStoredFinite (r : RVState) (x : F) : Bool :=
  r.comb.all (fun c => fFinite (fAdd x (fMul c.gain (bufAt c.d c.d.cur)))) &&
    (chainStored (rvWet r) r.ap).all fFinite

/-- The value of an LFO and its state after the tick (43_oscillators R172). -/
def lfoValue (l : LFOState) : F := fAdd l.center (fMul l.range (Config.SIN l.phase))
def lfoNext (l : LFOState) : LFOState :=
  { l with phase :=
      if fLt Config.TWO_PI (fAdd l.phase l.step) then fSub (fAdd l.phase l.step) Config.TWO_PI
      else fAdd l.phase l.step }

/-- A tick with finite results. -/
def lfoTickFinite (l : LFOState) : Bool := fFinite (lfoValue l) && fFinite (lfoNext l).phase

/-- One sample through a flanger with every computed value finite (44_flanger R202): from instance `f` and input `x` the
value `y` and the instance `f'`. -/
def flGives (f : FLState) (x y : F) (f' : FLState) : Prop :=
  lfoTickFinite f.lfo = true ∧
    ∃ dl, Reads f.d (lfoValue f.lfo) dl ∧ y = fAdd x (fMul f.depth dl) ∧ fFinite y = true ∧
      f' = { f with lfo := lfoNext f.lfo, d := push f.d x }

/-- One sample through a reverberator with every computed value finite (45_reverb_bank R223). -/
def rvGives (r : RVState) (x y : F) (r' : RVState) : Prop :=
  y = rvOut r x ∧ r' = rvNext r x ∧ fFinite (rvOut r x) = true ∧ rvStoredFinite r x = true

/-- One sample through a tremolo with every computed value finite (46_tremolo R252). -/
def trGives (t : TRState) (x y : F) (t' : TRState) : Prop :=
  lfoTickFinite t.lfo = true ∧ y = fMul x (lfoValue t.lfo) ∧ fFinite y = true ∧ t' = ⟨lfoNext t.lfo⟩

/-- One sample through a pitch shifter with every computed value finite (47_pitch_shifter R264). -/
def psGives (q : PSState) (x y : F) (q' : PSState) : Prop :=
  phasorOk q.tri = true ∧ fFinite (fMul q.tri.p (toF q.W)) = true ∧ fFinite (fMul (phaseB q.tri.p) (toF q.W)) = true ∧
    ∃ vA vB, Reads q.d (fMul q.tri.p (toF q.W)) vA ∧ Reads q.d (fMul (phaseB q.tri.p) (toF q.W)) vB ∧
      y = fAdd (fMul vA (tri q.tri.p)) (fMul vB (tri (phaseB q.tri.p))) ∧ fFinite y = true ∧
      q' = { q with d := push q.d x, tri := { q.tri with p := phasorAdvance q.tri.p q.tri.rate } }

/-- The samples of a block one after another: `xs` in, `ys` out, from instance `a` to instance `a'`. -/
def BlockRun {α : Type} (gives : α → F → F → α → Prop) (a : α) (xs ys : List F) (a' : α) : Prop :=
  match xs, ys with
  | [], [] => a = a'
  | x :: xs, y :: ys => ∃ b, gives a x y b ∧ BlockRun gives b xs ys a'
  | _, _ => False

/-- A block after `Normalise` (48_normalise R291). -/
def normalised (vs : List F) : List F :=
  if fLt fOne (peakOf vs) then vs.map (fDiv · (peakOf vs)) else vs

/-- The cells 0 .. n-1 of a memory hold these values, all finite. -/
def Holds (m : Mem) (vs : List F) : Prop := ∀ k < vs.length, memRead m k = vs[k]? ∧ fFinite (vs.getD k fZero) = true

/-- The state after commands executed one after another, each to a next state. -/
def runAll (is : List Instr) (s : State) : Option State :=
  match is with
  | [] => some s
  | i :: is =>
    match exec i s with
    | .next t => runAll is t
    | .fault _ => none
    | .refused _ => none

/-- The same, with what RES[0] holds after each command. -/
def runResults (is : List Instr) (s : State) : Option (List F × State) :=
  match is with
  | [] => some ([], s)
  | i :: is =>
    match exec i s with
    | .next t => (runResults is t).map fun r => (t.RES.r0 :: r.1, r.2)
    | .fault _ => none
    | .refused _ => none

/-- All values of a list are zeros, of either sign. -/
def silent (vs : List F) : Bool := vs.all fIsZero

/-- Every buffer of a reverberator holds zeros only. -/
def rvSilent (r : RVState) : Bool := r.comb.all (fun c => silent c.d.buf) && r.ap.all (fun a => silent a.d.buf)

end Sys2Proof.Machine
end

