-- ==== Sys2Proof/Certificates/Slice0/Obligations.lean ====
section
/-! DEFINITION. The statements for the provers. Each docstring names the rules of spec/ it formalises. `∀` ranges over
all states unless a premise says otherwise; a `let` names a value the rule names. -/

open Sys2Proof Sys2Proof.Machine

/-! ### Encoding -/

/-- 30_encoding R100 (words written out from R90 to R95) and its illegal examples. -/
def Obligations.WorkedEncodingsDecode : Prop :=
  decode 32 [0x1002000000000000, 0x4024000000000000, 0x000000000000BB80] = .ok (.dlCfg 2 0x4024000000000000 48000) ∧
  decode 32 [0x2900000000000000, 0x3FF0000000000000] = .ok (.iircProc 0 0x3FF0000000000000) ∧
  decode 32 [0x4103000000000000] = .ok (.lfoTick 3) ∧
  decode 32 [0x720100000000AC44] = .ok (.trBlock 1 44100) ∧
  decode 32 [0x6304050000000008] = .ok (.rvBlock2 4 5 8) ∧
  decode 32 [0x9001000000000010] = .ok (.norm .c1 16) ∧
  decode 32 [0x8800000000000000, 0x408B800000000000, 0x407B800000000000] =
    .ok (.semi 0x408B800000000000 0x407B800000000000) ∧
  decode 32 [0x6000000000000000, 0x000000000000AC44, 0x3FF0000000000000, 0x0000000000000000, 0x0000000000000001,
      0x0000000000000001, 0x0000000000000000, 0x0000000000000000, 0x4049000000000000, 0x3FE0000000000000] =
    .ok (.rvCfg 0 44100 0x3FF0000000000000 0 [0x4049000000000000] [0x3FE0000000000000] [] []) ∧
  decode 32 [0x0000000000000000] = .error .illegal ∧ decode 32 [0x4103000000000001] = .error .illegal ∧
  decode 32 [0x9002000000000010] = .error .illegal ∧
  decode 32 [0x2900000100000000, 0x3FF0000000000000] = .error .illegal

/-- 30_encoding R90 to R94: no bit of a command is dropped by its encoding, whatever words follow it. -/
def Obligations.DecodeOfEncodeIsTheCommand : Prop :=
  ∀ (nf : Nat) (i : Instr) (rest : List Word), i.wellFormed nf = true → decode nf (encode i ++ rest) = .ok i

/-- 30_encoding R93, R94: what decodes is well formed, and its encoding is exactly the words it was read from, one
header and `nops` operand words. -/
def Obligations.EncodeOfDecodeIsTheWords : Prop :=
  ∀ (nf : Nat) (ws : List Word) (i : Instr), decode nf ws = .ok i →
    i.wellFormed nf = true ∧ 1 + nops i ≤ ws.length ∧ encode i = ws.take (1 + nops i)

/-- 30_encoding R95, R96: a header selects a row exactly when `h & mask = match`, and no header matches two rows. -/
def Obligations.HeaderSelectsItsTableRow : Prop :=
  (∀ (h : Word) (o : Opcode), decodeHeader h = some o ↔ h &&& formatMask (opcodeFormat o) = opcodeMatch o) ∧
  (∀ (h : Word) (o p : Opcode), h &&& formatMask (opcodeFormat o) = opcodeMatch o →
    h &&& formatMask (opcodeFormat p) = opcodeMatch p → o = p)

/-- 60_exceptions R309: a header of no row, or operand words reaching past the end of the stream, is E_ILLEGAL; a count of
RV.CFG above NFILT_MAX is E_CAPACITY, before the length of the arrays is looked at. That `decode` answers E_ILLEGAL on no word
at all (`n = 0` in the second clause), where the spec has no command to decode, is the model's choice (log 20); `step` never
asks it. -/
def Obligations.UndecodableStreamsAreRejected : Prop :=
  (∀ (nf : Nat) (h : Word) (ws : List Word), decodeHeader h = none → decode nf (h :: ws) = .error .illegal) ∧
  (∀ (nf : Nat) (i : Instr) (n : Nat), i.wellFormed nf = true → n < 1 + nops i →
    decode nf ((encode i).take n) = .error .illegal) ∧
  (∀ (nf : Nat) (h fs wet spread nCD nCG nAD nAG : Word) (rest : List Word), decodeHeader h = some .rvCfg →
    nf < nCD.toNat ∨ nf < nCG.toNat ∨ nf < nAD.toNat ∨ nf < nAG.toNat →
    decode nf (h :: fs :: wet :: spread :: nCD :: nCG :: nAD :: nAG :: rest) = .error .capacity)

/-! ### Steps, faults, the end of a run -/

/-- 10_state R20, R26: when the engine is not FAULTED and the words at `pc` decode to `i`, a step is `exec i`. -/
def Obligations.StepRunsTheDecodedCommand : Prop :=
  ∀ (s : State) (i : Instr), statusFault s.STATUS = false →
    decode s.params.nfiltMax (s.CMD.drop s.pc) = .ok i → step s = exec i s

/-- 60_exceptions R311: no step from the FAULTED state, whatever stands at `pc`. 70_reset_and_hazards R347: no step at the
end of the stream (that the model answers `refused idle` there is its own choice, log 8). 60_exceptions R309, R310: a command
that does not decode takes fault entry with E_ILLEGAL or E_CAPACITY. -/
def Obligations.StepsWithoutADecodedCommand : Prop :=
  (∀ s : State, statusFault s.STATUS = true → step s = .fault .faulted) ∧
  (∀ s : State, statusFault s.STATUS = false → s.pc = s.CMD.length → step s = .refused .idle) ∧
  (∀ (s : State) (e : DecodeFault), statusFault s.STATUS = false → s.pc < s.CMD.length →
    decode s.params.nfiltMax (s.CMD.drop s.pc) = .error e →
    step s = .next (faultEntry (match e with | .illegal => .illegal | .capacity => .capacity) s))

/-- 60_exceptions R301, R310: what fault entry writes, and that it leaves everything else, `pc` included. -/
def Obligations.FaultEntryRecordsCauseAndIndex : Prop :=
  ∀ (c : Cause) (s : State), ∃ st : BitVec 32,
    faultEntry c s = { s with STATUS := st, FCI := s.pc } ∧
    st.getLsbD 0 = true ∧
    st.extractLsb' 8 8 = (match c with
      | .zeroDelay => 1 | .lenMismatch => 2 | .unknownNote => 3 | .badRate => 4 | .noComb => 5 | .slot => 6
      | .illegal => 7 | .capacity => 8) ∧
    ∀ k, k ≠ 0 → ¬(8 ≤ k ∧ k < 16) → st.getLsbD k = s.STATUS.getLsbD k

/-- 60_exceptions R310, R301, R312; 10_state R26: a command that answers a next state either completed (`pc` past its
words; FAULT, CAUSE and FCI as before) or took fault entry from the state it started in, with nothing else changed and a
cause that the table gives to that command. -/
def Obligations.CommandsCompleteOrFaultAtomically : Prop :=
  ∀ (i : Instr) (s t : State), exec i s = .next t →
    (t.pc = s.pc + 1 + nops i ∧ t.FCI = s.FCI ∧ statusFault t.STATUS = statusFault s.STATUS ∧
      statusCause t.STATUS = statusCause s.STATUS) ∨
    ∃ c ∈ causesOf i, t = faultEntry c s

/-- 60_exceptions R311; 70_reset_and_hazards R340; 10_state R40: the host's reset leaves the FAULTED state, empties every
slot and every cell, and installs the stream. The result registers are unspecified after it: nothing is said of them. That
the reset is a function beside `step` is the model's form (log 12); that a host read at XLEN or YLEN and above, of a cell
that does not exist, answers none like the read of an Unwritten cell is the model's choice (log 18). -/
def Obligations.HostResetStartsARun : Prop :=
  ∀ (s : State) (cmd : List Word), ∃ t, hostMove (.reset cmd) s = some t ∧
    t.pc = 0 ∧ t.STATUS = 0 ∧ t.FCI = 0 ∧ t.CMD = cmd ∧ t.U.length = s.U.length ∧ (∀ x ∈ t.U, x = .empty) ∧
    (∀ k, hostReadX k t = none) ∧ (∀ c k, hostReadY c k t = none) ∧
    (∀ i, decode t.params.nfiltMax cmd = .ok i → step t = exec i t)

/-! ### Frames: what a command leaves as it was, in every next state it answers -/

/-- 20_memory R61, R68, R83; 00_scope R7: no command writes CMD, XMEM or the capacities, and the slot file keeps its size. -/
def Obligations.InputsAndStreamAreNeverWritten : Prop :=
  ∀ (i : Instr) (s t : State), exec i s = .next t →
    t.CMD = s.CMD ∧ t.XMEM = s.XMEM ∧ t.params = s.params ∧ t.U.length = s.U.length

/-- 10_state R30; 30_encoding R94: a command changes the slots it names and no other; DL.READ, SEMI and NORM change
none. -/
def Obligations.OtherSlotsAreUnchanged : Prop :=
  ∀ (i : Instr) (s t : State) (k : Nat), exec i s = .next t → (∀ u ∈ changedSlots i, k ≠ u.toNat) →
    t.U[k]? = s.U[k]?

/-- 10_state R25, R27; 30_encoding R94: a command that returns nothing leaves the four result registers as they were, one that
returns one value leaves RES[1], RES[2] and RES[3]; NORMEDc is written only by the commands that normalise column c, the
reserved bits of STATUS by none. -/
def Obligations.OtherRegistersAreUnchanged : Prop :=
  ∀ (i : Instr) (s t : State), exec i s = .next t →
    (resultCount i = 0 → t.RES = s.RES) ∧
    (resultCount i = 1 → t.RES.r1 = s.RES.r1 ∧ t.RES.r2 = s.RES.r2 ∧ t.RES.r3 = s.RES.r3) ∧
    (∀ c, outputLen c i = none → statusNormed c t.STATUS = statusNormed c s.STATUS) ∧
    statusReserved t.STATUS = statusReserved s.STATUS

/-- 20_memory R62, R74; 48_normalise R291: a block command or NORM leaves every cell of its columns from index `len` on,
and every command leaves the whole of a column it does not name. -/
def Obligations.OtherOutputCellsAreUnchanged : Prop :=
  ∀ (i : Instr) (s t : State) (c : Col) (k : Nat), exec i s = .next t → (∀ n ∈ outputLen c i, n ≤ k) →
    memRead (column c t) k = memRead (column c s) k

/-- 70_reset_and_hazards R341: only a CFG command changes a delay length, a gain, an LFO's step, center or range, a
phasor's rate, a flanger's bounds, a reverberator's filters or a window; PS.SHIFT alone changes a pitch shifter's
`factor` and `rate`, and of that instance nothing else that is set by configuration. -/
def Obligations.SettingsChangeOnlyByConfiguration : Prop :=
  ∀ (i : Instr) (s t : State), exec i s = .next t → isCfg i = false →
    ((∀ u x, i ≠ .psShift u x) → t.U.map settings = s.U.map settings) ∧
    (∀ u x, i = .psShift u x → ∀ (k : Nat) (p : PSState), s.U[k]? = some (.ps p) →
      ∃ f r, t.U[k]? = some (.ps { p with factor := f, tri := { p.tri with rate := r } }))

/-! ### Results and completion, family by family -/

/-- 40_delay_line R121, R122; 41_comb_filters R141, R145; 42_allpass R161: in range, with finite operands, a rate in
`1 .. 2^53-1` and a quotient `q` in `[1, CAP_MAX]`, the slot gets a fresh instance with a zeroed buffer of `trunc(q)`
elements. -/
def Obligations.DelayAndFilterConfigurationsComplete : Prop :=
  ∀ (s : State) (u : Byte) (ms gain : F) (fs : Word), u.toNat < s.U.length → fFinite ms = true → fFinite gain = true →
    0 < fs.toNat → fs.toNat < 2 ^ 53 →
    let q := fDiv (fMul ms (toF fs.toNat)) fThousand
    fLt q fOne = false → fLt (toF s.params.capMax) q = false →
    let d : DLState := ⟨(fTrunc q).toNat, List.replicate (fTrunc q).toNat fZero, 0⟩
    exec (.dlCfg u ms fs) s = .next { s with pc := s.pc + 3, U := s.U.set u.toNat (.dl d) } ∧
    exec (.fircCfg u ms gain fs) s = .next { s with pc := s.pc + 4, U := s.U.set u.toNat (.firc ⟨d, gain⟩) } ∧
    exec (.iircCfg u ms gain fs) s = .next { s with pc := s.pc + 4, U := s.U.set u.toNat (.iirc ⟨d, gain⟩) } ∧
    exec (.apCfg u ms gain fs) s = .next { s with pc := s.pc + 4, U := s.U.set u.toNat (.ap ⟨d, gain⟩) }

/-- 43_oscillators R171; 46_tremolo R251: the LFO's step is `((2.0 × PI) × rate) ÷ toF(fs)`, its phase starts at +0.0, and a
tremolo's center and range are `1 - depth/2` and `depth/2`. 93 U2: a step that is not finite is refused. -/
def Obligations.LfoAndTremoloConfigurationsComplete : Prop :=
  ∀ (s : State) (u : Byte) (rate center range depth : F) (fs : Word), u.toNat < s.U.length →
    fFinite rate = true → fFinite center = true → fFinite range = true → fFinite depth = true →
    0 < fs.toNat → fs.toNat < 2 ^ 53 →
    let st := fDiv (fMul (fMul fTwo Config.PI) rate) (toF fs.toNat)
    let half := fDiv depth fTwo
    (fFinite st = true →
      exec (.lfoCfg u rate center range fs) s =
        .next { s with pc := s.pc + 5, U := s.U.set u.toNat (.lfo ⟨fZero, st, center, range⟩) } ∧
      exec (.trCfg u rate depth fs) s =
        .next { s with pc := s.pc + 4, U := s.U.set u.toNat (.tr ⟨⟨fZero, st, fSub fOne half, half⟩⟩) }) ∧
    (fFinite st = false →
      exec (.lfoCfg u rate center range fs) s = .refused .nonFiniteResult ∧
      exec (.trCfg u rate depth fs) s = .refused .nonFiniteResult)

/-- 43_oscillators R185: with a rate of magnitude below 1.0 the slot gets a phasor at +0.0; 93 U4: any other rate is refused,
after the slot check. -/
def Obligations.TriangularConfigurationCompletes : Prop :=
  ∀ (s : State) (u : Byte) (rate : F), u.toNat < s.U.length → fFinite rate = true →
    (fLt (fAbs rate) fOne = true →
      exec (.triCfg u rate) s = .next { s with pc := s.pc + 2, U := s.U.set u.toNat (.tri ⟨fZero, rate⟩) }) ∧
    (fLe fOne (fAbs rate) = true → exec (.triCfg u rate) s = .refused .phasorRate)

/-- 44_flanger R201: two bounds in samples, an LFO between them, a zeroed buffer of `maxD` elements. 93 U2: a center, range
or step that is not finite is refused. -/
def Obligations.FlangerConfigurationCompletes : Prop :=
  ∀ (s : State) (u : Byte) (minMs maxMs rate depth : F) (fs : Word), u.toNat < s.U.length →
    fFinite minMs = true → fFinite maxMs = true → fFinite rate = true → fFinite depth = true →
    0 < fs.toNat → fs.toNat < 2 ^ 53 →
    let qmax := fDiv (fMul maxMs (toF fs.toNat)) fThousand
    let qmin := fDiv (fMul minMs (toF fs.toNat)) fThousand
    fLt qmax fOne = false → fLt (toF s.params.capMax) qmax = false →
    fLt qmin fZero = false → fLt (toF s.params.capMax) qmin = false →
    let maxD := (fTrunc qmax).toNat
    let minD := (fTrunc qmin).toNat
    let center := fDiv (fAdd (toF minD) (toF maxD)) fTwo
    let range := fDiv (fSub (toF maxD) (toF minD)) fTwo
    let st := fDiv (fMul (fMul fTwo Config.PI) rate) (toF fs.toNat)
    (fFinite center = true → fFinite range = true → fFinite st = true →
      exec (.flCfg u minMs maxMs rate depth fs) s =
        .next { s with
          pc := s.pc + 6
          U := s.U.set u.toNat
            (.fl ⟨⟨maxD, List.replicate maxD fZero, 0⟩, ⟨fZero, st, center, range⟩, depth, minD, maxD⟩) }) ∧
    (fFinite center = false ∨ fFinite range = false ∨ fFinite st = false →
      exec (.flCfg u minMs maxMs rate depth fs) s = .refused .nonFiniteResult)

/-- 45_reverb_bank R221, R222: as many comb filters as comb delays, each of the delay plus the spread in milliseconds, as many
all-pass filters as all-pass delays, scale `1.0 ÷ toF(N)`; all buffers zeroed. -/
def Obligations.ReverbConfigurationCompletes : Prop :=
  ∀ (s : State) (u : Byte) (fs : Word) (wet : F) (spread : Word) (cd cg ad ag : List F), u.toNat < s.U.length →
    operandsOk (.rvCfg u fs wet spread cd cg ad ag) s = true → 0 < fs.toNat →
    cd.length = cg.length → ad.length = ag.length → cd ≠ [] →
    let q := fun ms => fDiv (fMul ms (toF fs.toNat)) fThousand
    let spreadMs := fDiv (fMul (toF spread.toNat) fThousand) (toF fs.toNat)
    (∀ ms ∈ cd, fLt (q (fAdd ms spreadMs)) fOne = false ∧ fLt (toF s.params.capMax) (q (fAdd ms spreadMs)) = false) →
    (∀ ms ∈ ad, fLt (q ms) fOne = false ∧ fLt (toF s.params.capMax) (q ms) = false) →
    let filter := fun ms gain =>
      (⟨⟨(fTrunc (q ms)).toNat, List.replicate (fTrunc (q ms)).toNat fZero, 0⟩, gain⟩ : CombState)
    exec (.rvCfg u fs wet spread cd cg ad ag) s =
      .next { s with
        pc := s.pc + 8 + 2 * cd.length + 2 * ad.length
        U := s.U.set u.toNat
          (.rv ⟨List.zipWith (fun ms gain => filter (fAdd ms spreadMs) gain) cd cg, List.zipWith filter ad ag,
            fDiv fOne (toF cd.length), wet⟩) }

/-- 47_pitch_shifter R261: a zeroed buffer of `2 × W` elements, phasor and rate +0.0, factor 1.0. -/
def Obligations.PitchShifterConfigurationCompletes : Prop :=
  ∀ (s : State) (u : Byte) (windowMs : F) (fs : Word), u.toNat < s.U.length → fFinite windowMs = true →
    0 < fs.toNat → fs.toNat < 2 ^ 53 →
    let q := fDiv (fMul windowMs (toF fs.toNat)) fThousand
    let W := (fTrunc q).toNat
    fLt q fOne = false → fLt (toF s.params.capMax) q = false → 2 * W ≤ s.params.capMax →
    exec (.psCfg u windowMs fs) s =
      .next { s with
        pc := s.pc + 3
        U := s.U.set u.toNat (.ps ⟨W, ⟨2 * W, List.replicate (2 * W) fZero, 0⟩, ⟨fZero, fZero⟩, fOne⟩) }

/-- 47_pitch_shifter R262: `factor = 2^(semitones/12)` and `rate = (1 - factor) ÷ W`, and nothing else changes; 93 U2, U4: a
factor or rate that is not finite, and a rate of magnitude 1.0 or more, are refused. That an infinite rate, which meets U2
and U4 both, is refused under the name of U2 is the model's choice (log 10). It holds for every EXP2 (a free function,
log 3); with shift +0.0 the factor is 1.0 by EXP2_ZERO. -/
def Obligations.PitchShiftSetsFactorAndRate : Prop :=
  ∀ (s : State) (u : Byte) (semitones : F) (p : PSState), s.U[u.toNat]? = some (.ps p) → fFinite semitones = true →
    let f := Config.EXP2 (fDiv semitones fTwelve)
    let r := fDiv (fSub fOne f) (toF p.W)
    (fFinite f = true → fFinite r = true → fLt (fAbs r) fOne = true →
      exec (.psShift u semitones) s =
        .next { s with
          pc := s.pc + 2
          U := s.U.set u.toNat (.ps { p with factor := f, tri := { p.tri with rate := r } }) }) ∧
    (fFinite f = true → fFinite r = true → fLe fOne (fAbs r) = true →
      exec (.psShift u semitones) s = .refused .phasorRate) ∧
    (fFinite f = false ∨ fFinite r = false → exec (.psShift u semitones) s = .refused .nonFiniteResult) ∧
    (semitones = fZero → f = fOne)

/-- 40_delay_line R123, R129: the raw write on each of the four kinds that have a delay line of their own. -/
def Obligations.DelayWriteStoresAtTheCursor : Prop :=
  ∀ (s : State) (u : Byte) (x : F), fFinite x = true →
    let stored := fun (d : DLState) => { d with buf := d.buf.set d.cur x, cur := (d.cur + 1) % d.L }
    let done := fun (y : Slot) =>
      (.next { s with pc := s.pc + 2, U := s.U.set u.toNat y } : Host.Outcome State Fault Refusal)
    (∀ d, s.U[u.toNat]? = some (.dl d) → exec (.dlWrite u x) s = done (.dl (stored d))) ∧
    (∀ c, s.U[u.toNat]? = some (.firc c) → exec (.dlWrite u x) s = done (.firc { c with d := stored c.d })) ∧
    (∀ c, s.U[u.toNat]? = some (.iirc c) → exec (.dlWrite u x) s = done (.iirc { c with d := stored c.d })) ∧
    (∀ c, s.U[u.toNat]? = some (.ap c) → exec (.dlWrite u x) s = done (.ap { c with d := stored c.d }))

/-- 40_delay_line R124, R125, R129: DL.READ returns the interpolated value at the position that the wrap-add loop reaches,
on each of the four kinds, and changes no slot; a position below -(2^52) is refused (R130, 93 U3), and so is a position or an
interpolated value that is not finite (93 U2). -/
def Obligations.DelayReadInterpolates : Prop :=
  ∀ (s : State) (u : Byte) (offset : F) (d : DLState), fFinite offset = true →
    (s.U[u.toNat]? = some (.dl d) ∨ ∃ g, s.U[u.toNat]? = some (.firc ⟨d, g⟩) ∨ s.U[u.toNat]? = some (.iirc ⟨d, g⟩) ∨
      s.U[u.toNat]? = some (.ap ⟨d, g⟩)) →
    let pos := fSub (toF d.cur) offset
    let after := fun (k : Nat) => (fun p => fAdd p (toF d.L))^[k] pos
    (∀ v, Reads d offset v →
      exec (.dlRead u offset) s = .next { s with pc := s.pc + 2, RES := { s.RES with r0 := v } }) ∧
    (fFinite pos = true → fLt pos fWrapLimit = true → exec (.dlRead u offset) s = .refused .readOutOfRange) ∧
    (fFinite pos = false → exec (.dlRead u offset) s = .refused .nonFiniteResult) ∧
    (∀ n ≤ wrapFuel, fFinite pos = true → fLt pos fWrapLimit = false → (∀ k < n, fLt (after k) fZero = true) →
      fLt (after n) fZero = false → fFinite (interpolate d (after n)) = false →
      exec (.dlRead u offset) s = .refused .nonFiniteResult)

/-- 40_delay_line R127, R129: DL.PROC reads the element at the cursor, stores `x + (g × out)` there with its own gain operand,
advances, and returns the element it read. 93 U2: a value to store that is not finite is refused. -/
def Obligations.DelayProcReturnsTheStoredElement : Prop :=
  ∀ (s : State) (u : Byte) (x g : F) (d : DLState), fFinite x = true → fFinite g = true →
    let out := d.buf.getD d.cur fZero
    let w := fAdd x (fMul g out)
    let d' : DLState := { d with buf := d.buf.set d.cur w, cur := (d.cur + 1) % d.L }
    let does := fun (y : Slot) =>
      (fFinite w = true → exec (.dlProc u x g) s =
        .next { s with pc := s.pc + 3, RES := { s.RES with r0 := out }, U := s.U.set u.toNat y }) ∧
      (fFinite w = false → exec (.dlProc u x g) s = .refused .nonFiniteResult)
    (s.U[u.toNat]? = some (.dl d) → does (.dl d')) ∧
    (∀ k, s.U[u.toNat]? = some (.firc ⟨d, k⟩) → does (.firc ⟨d', k⟩)) ∧
    (∀ k, s.U[u.toNat]? = some (.iirc ⟨d, k⟩) → does (.iirc ⟨d', k⟩)) ∧
    (∀ k, s.U[u.toNat]? = some (.ap ⟨d, k⟩) → does (.ap ⟨d', k⟩))

/-- 41_comb_filters R142, R146, R150; 90_conflicts C1, C2: both combs make the same update with the stored gain and return
the element read before the write. 93 U2: a value to store that is not finite is refused. -/
def Obligations.CombsReturnTheStoredElement : Prop :=
  ∀ (s : State) (u : Byte) (x g : F) (d : DLState), fFinite x = true →
    let out := d.buf.getD d.cur fZero
    let w := fAdd x (fMul g out)
    let d' : DLState := { d with buf := d.buf.set d.cur w, cur := (d.cur + 1) % d.L }
    let does := fun (i : Instr) (y : Slot) =>
      (fFinite w = true → exec i s =
        .next { s with pc := s.pc + 2, RES := { s.RES with r0 := out }, U := s.U.set u.toNat y }) ∧
      (fFinite w = false → exec i s = .refused .nonFiniteResult)
    (s.U[u.toNat]? = some (.firc ⟨d, g⟩) → does (.fircProc u x) (.firc ⟨d', g⟩)) ∧
    (s.U[u.toNat]? = some (.iirc ⟨d, g⟩) → does (.iircProc u x) (.iirc ⟨d', g⟩))

/-- 42_allpass R162: `bufferIn = x + gain × delayed` is stored, `delayed - gain × bufferIn` is returned. 93 U2: when either is
not finite the command is refused. -/
def Obligations.AllPassIsSchroederCanonical : Prop :=
  ∀ (s : State) (u : Byte) (x : F) (a : CombState), s.U[u.toNat]? = some (.ap a) → fFinite x = true →
    let delayed := a.d.buf.getD a.d.cur fZero
    let bufferIn := fAdd x (fMul a.gain delayed)
    let out := fSub delayed (fMul a.gain bufferIn)
    (fFinite bufferIn = true → fFinite out = true →
      exec (.apProc u x) s =
        .next { s with
          pc := s.pc + 2
          RES := { s.RES with r0 := out }
          U := s.U.set u.toNat
            (.ap { a with d := { a.d with buf := a.d.buf.set a.d.cur bufferIn, cur := (a.d.cur + 1) % a.d.L } }) }) ∧
    (fFinite bufferIn = false ∨ fFinite out = false → exec (.apProc u x) s = .refused .nonFiniteResult)

/-- 43_oscillators R172: the value comes from the phase before the advance; the phase is reduced by TWO_PI once, when it
exceeds TWO_PI. 93 U2: when either is not finite the command is refused. It holds for every SIN (a free function, log 3). -/
def Obligations.LfoTickAdvancesThePhase : Prop :=
  ∀ (s : State) (u : Byte) (l : LFOState), s.U[u.toNat]? = some (.lfo l) →
    let v := fAdd l.center (fMul l.range (Config.SIN l.phase))
    let p := fAdd l.phase l.step
    let phase := if fLt Config.TWO_PI p then fSub p Config.TWO_PI else p
    (fFinite v = true → fFinite phase = true →
      exec (.lfoTick u) s =
        .next { s with
          pc := s.pc + 1
          RES := { s.RES with r0 := v }
          U := s.U.set u.toNat (.lfo { l with phase := phase }) }) ∧
    (fFinite v = false ∨ fFinite phase = false → exec (.lfoTick u) s = .refused .nonFiniteResult)

/-- 43_oscillators R181 to R183, R186: for a phasor in `[0, 1]` and a rate of magnitude below 1.0 TRI.TICK always completes
and returns the two gains and the two phases before the advance. -/
def Obligations.TriangularTickReturnsGainsAndPhases : Prop :=
  ∀ (s : State) (u : Byte) (t : TRIState), s.U[u.toNat]? = some (.tri t) →
    phasorOk t = true →
    let gain := fun p => fSub fOne (fMul fTwo (fAbs (fSub p fHalf)))
    let q := fAdd t.p fHalf
    let pB := if fLe fOne q then fSub q fOne else q
    let n := fAdd t.p t.rate
    let p' := if fLe fOne n then fSub n fOne else if fLt n fZero then fAdd n fOne else n
    exec (.triTick u) s =
      .next { s with
        pc := s.pc + 1
        RES := ⟨gain t.p, gain pB, t.p, pB⟩
        U := s.U.set u.toNat (.tri { t with p := p' }) }

/-- 44_flanger R202: the LFO gives the delay, the buffer is read there before the raw input is written. 93 U2: an LFO tick or
an output that is not finite is refused. -/
def Obligations.FlangerStepReadsThenWrites : Prop :=
  ∀ (s : State) (u : Byte) (x : F) (f : FLState), s.U[u.toNat]? = some (.fl f) → fFinite x = true →
    (∀ dl, lfoTickFinite f.lfo = true → Reads f.d (lfoValue f.lfo) dl →
      let y := fAdd x (fMul f.depth dl)
      (fFinite y = true →
        exec (.flStep u x) s =
          .next { s with
            pc := s.pc + 2
            RES := { s.RES with r0 := y }
            U := s.U.set u.toNat
              (.fl { f with
                lfo := lfoNext f.lfo
                d := { f.d with buf := f.d.buf.set f.d.cur x, cur := (f.d.cur + 1) % f.d.L } }) }) ∧
      (fFinite y = false → exec (.flStep u x) s = .refused .nonFiniteResult)) ∧
    (lfoTickFinite f.lfo = false → exec (.flStep u x) s = .refused .nonFiniteResult)

/-- 45_reverb_bank R223: bank, scale, chain and mix. A finite output and finite stored elements are enough: no operation in
between can have been infinite or NaN. 93 U2: when the output or a stored element is not finite the command is refused. -/
def Obligations.ReverbStepCompletes : Prop :=
  ∀ (s : State) (u : Byte) (x : F) (r : RVState), s.U[u.toNat]? = some (.rv r) → fFinite x = true →
    (fFinite (rvOut r x) = true → rvStoredFinite r x = true →
      exec (.rvStep u x) s =
        .next { s with
          pc := s.pc + 2
          RES := { s.RES with r0 := rvOut r x }
          U := s.U.set u.toNat (.rv (rvNext r x)) }) ∧
    (fFinite (rvOut r x) = false ∨ rvStoredFinite r x = false → exec (.rvStep u x) s = .refused .nonFiniteResult)

/-- 46_tremolo R252: the input times the LFO value. 93 U2: an LFO tick or a product that is not finite is refused. -/
def Obligations.TremoloStepMultiplies : Prop :=
  ∀ (s : State) (u : Byte) (x : F) (t : TRState), s.U[u.toNat]? = some (.tr t) → fFinite x = true →
    (lfoTickFinite t.lfo = true → fFinite (fMul x (lfoValue t.lfo)) = true →
      exec (.trStep u x) s =
        .next { s with
          pc := s.pc + 2
          RES := { s.RES with r0 := fMul x (lfoValue t.lfo) }
          U := s.U.set u.toNat (.tr ⟨lfoNext t.lfo⟩) }) ∧
    (lfoTickFinite t.lfo = false ∨ fFinite (fMul x (lfoValue t.lfo)) = false →
      exec (.trStep u x) s = .refused .nonFiniteResult)

/-- 47_pitch_shifter R264: two crossfaded taps half a sweep apart, then the raw input is written, the cursor and then the
phasor advance. 93 U2: a delay or an output that is not finite is refused. -/
def Obligations.PitchShifterStepCrossfadesTwoTaps : Prop :=
  ∀ (s : State) (u : Byte) (x : F) (q : PSState), s.U[u.toNat]? = some (.ps q) → fFinite x = true →
    phasorOk q.tri = true →
    let pA := q.tri.p
    let pB := phaseB pA
    let dA := fMul pA (toF q.W)
    let dB := fMul pB (toF q.W)
    (∀ vA vB, fFinite dA = true → fFinite dB = true → Reads q.d dA vA → Reads q.d dB vB →
      let y := fAdd (fMul vA (tri pA)) (fMul vB (tri pB))
      (fFinite y = true →
        exec (.psStep u x) s =
          .next { s with
            pc := s.pc + 2
            RES := { s.RES with r0 := y }
            U := s.U.set u.toNat
              (.ps { q with
                d := { q.d with buf := q.d.buf.set q.d.cur x, cur := (q.d.cur + 1) % q.d.L }
                tri := { q.tri with p := phasorAdvance q.tri.p q.tri.rate } }) }) ∧
      (fFinite y = false → exec (.psStep u x) s = .refused .nonFiniteResult)) ∧
    (fFinite dA = false ∨ fFinite dB = false → exec (.psStep u x) s = .refused .nonFiniteResult)

/-- 47_pitch_shifter R275; 93 U6: `12.0 × LOG2(f_target ÷ f_root)` for two positive frequencies whose quotient neither
vanishes nor overflows, refused otherwise; 93 U2: a result that is not finite is refused. It holds for every LOG2 (a free
function, log 3). -/
def Obligations.SemiConvertsTwoFrequencies : Prop :=
  ∀ (s : State) (ft fr : F), fFinite ft = true → fFinite fr = true →
    let q := fDiv ft fr
    let y := fMul fTwelve (Config.LOG2 q)
    (fLt fZero ft = true → fLt fZero fr = true → fFinite q = true → fIsZero q = false →
      (fFinite y = true → exec (.semi ft fr) s = .next { s with pc := s.pc + 3, RES := { s.RES with r0 := y } }) ∧
      (fFinite y = false → exec (.semi ft fr) s = .refused .nonFiniteResult)) ∧
    (fLe ft fZero = true ∨ fLe fr fZero = true ∨ fFinite q = false ∨ fIsZero q = true →
      exec (.semi ft fr) s = .refused .logDomain)

/-- 48_normalise R291, R292: NORM divides the column's first `len` cells by their peak when it is above 1.0, and NORMEDc says
whether it did. -/
def Obligations.NormDividesByThePeak : Prop :=
  ∀ (s : State) (c : Col) (len : BitVec 32) (vs : List F), len.toNat ≤ s.params.ylen → vs.length = len.toNat →
    Holds (column c s) vs →
    ∃ t, exec (.norm c len) s = .next t ∧ t.pc = s.pc + 1 ∧
      statusNormed c t.STATUS = fLt fOne (peakOf vs) ∧
      (∀ k < vs.length, memRead (column c t) k = (normalised vs)[k]?) ∧
      (fLt fOne (peakOf vs) = false → column c t = column c s)

/-- 44_flanger R204; 45_reverb_bank R226; 46_tremolo R253; 47_pitch_shifter R269; 48_normalise R291; 20_memory R74: a mono
block command whose samples all go through writes the normalised outputs to column 0 and NORMED0, and leaves the instance after
its last step; RES and column 1 are as before. -/
def Obligations.MonoBlocksComplete : Prop :=
  ∀ (s : State) (u : Byte) (len : BitVec 32) (xs ys : List F), len.toNat ≤ s.params.xlen → len.toNat ≤ s.params.ylen →
    xs.length = len.toNat → Holds s.XMEM xs →
    let done := fun (y : Slot) =>
      (.next { s with
        pc := s.pc + 1
        U := s.U.set u.toNat y
        YMEM0 := writeCells s.YMEM0 0 (normalised ys)
        STATUS := withNormed .c0 (fLt fOne (peakOf ys)) s.STATUS } : Host.Outcome State Fault Refusal)
    (∀ a a', s.U[u.toNat]? = some (.fl a) → BlockRun flGives a xs ys a' →
      exec (.flBlock u len) s = done (.fl a')) ∧
    (∀ a a', s.U[u.toNat]? = some (.rv a) → BlockRun rvGives a xs ys a' →
      exec (.rvBlock u len) s = done (.rv a')) ∧
    (∀ a a', s.U[u.toNat]? = some (.tr a) → BlockRun trGives a xs ys a' →
      exec (.trBlock u len) s = done (.tr a')) ∧
    (∀ a a', s.U[u.toNat]? = some (.ps a) → BlockRun psGives a xs ys a' →
      exec (.psBlock u len) s = done (.ps a'))

/-- 45_reverb_bank R228, R231: both channels get the same input, each column is normalised by its own peak, the two instances
advance independently. -/
def Obligations.StereoReverbNormalisesEachColumn : Prop :=
  ∀ (s : State) (u v : Byte) (len : BitVec 32) (xs ls rs : List F) (l l' r r' : RVState), u ≠ v →
    s.U[u.toNat]? = some (.rv l) → s.U[v.toNat]? = some (.rv r) →
    len.toNat ≤ s.params.xlen → len.toNat ≤ s.params.ylen → xs.length = len.toNat → Holds s.XMEM xs →
    BlockRun rvGives l xs ls l' → BlockRun rvGives r xs rs r' →
    exec (.rvBlock2 u v len) s =
      .next { s with
        pc := s.pc + 1
        U := (s.U.set u.toNat (.rv l')).set v.toNat (.rv r')
        YMEM0 := writeCells s.YMEM0 0 (normalised ls)
        YMEM1 := writeCells s.YMEM1 0 (normalised rs)
        STATUS := withNormed .c1 (fLt fOne (peakOf rs)) (withNormed .c0 (fLt fOne (peakOf ls)) s.STATUS) }

/-! ### Where commands trap, and where they are refused -/

/-- 60_exceptions R305, R312: with acceptable operands, E_SLOT is raised exactly when the slot check fails. -/
def Obligations.SlotFaultsAreThoseOfCheckSlot : Prop :=
  ∀ (i : Instr) (s : State), operandsOk i s = true →
    (slotCheck i s = false → exec i s = .next (faultEntry .slot s)) ∧
    (slotCheck i s = true → exec i s ≠ .next (faultEntry .slot s))

/-- 60_exceptions R303, R312: a sample rate of 0 raises E_BAD_RATE in each of the nine commands with the operand, before any
other test of the command's own rule. -/
def Obligations.ZeroRateIsABadRate : Prop :=
  ∀ (s : State) (i : Instr), operandsOk i s = true → slotCheck i s = true → (rateOperands i).head? = some 0 →
    exec i s = .next (faultEntry .badRate s)

/-- 45_reverb_bank R221; 60_exceptions R301, R312: unequal array lengths raise E_LEN_MISMATCH, and an empty bank E_NO_COMB,
before any delay is converted. -/
def Obligations.ReverbArraysMustMatch : Prop :=
  ∀ (s : State) (u : Byte) (fs : Word) (wet : F) (spread : Word) (cd cg ad ag : List F),
    let i := Instr.rvCfg u fs wet spread cd cg ad ag
    operandsOk i s = true → slotCheck i s = true → 0 < fs.toNat →
    (cd.length ≠ cg.length ∨ ad.length ≠ ag.length → exec i s = .next (faultEntry .lenMismatch s)) ∧
    (cd = [] → cg = [] → ad.length = ag.length → exec i s = .next (faultEntry .noComb s))

/-- 40_delay_line R122; 60_exceptions R302: a quotient below 1.0 raises E_ZERO_DELAY, one above CAP_MAX E_CAPACITY, for
each command with one delay and for the flanger's maximum. 47_pitch_shifter R261: a window of more than half of CAP_MAX is
E_CAPACITY too. 44_flanger R201: with the maximum in range, a negative minimum is refused (93 U5), one above CAP_MAX is
E_CAPACITY. 45_reverb_bank R221: the combs in index order and after them the all-pass filters, the first delay out of range
decides. An infinite quotient counts by its sign, which is the model's reading of U2 (log 16). -/
def Obligations.DelaysOutOfRangeFault : Prop :=
  ∀ (s : State) (u : Byte) (ms : F) (fs : Word), u.toNat < s.U.length → fFinite ms = true → 0 < fs.toNat →
    fs.toNat < 2 ^ 53 →
    let q := fun v => fDiv (fMul v (toF fs.toNat)) fThousand
    let short := fun v => fLt (q v) fOne = true
    let long := fun v => fLt (q v) fOne = false ∧ fLt (toF s.params.capMax) (q v) = true
    let fits := fun v => fLt (q v) fOne = false ∧ fLt (toF s.params.capMax) (q v) = false
    let raises := fun (c : Cause) =>
      (exec (.dlCfg u ms fs) s = .next (faultEntry c s) ∧
      (∀ g, fFinite g = true → exec (.fircCfg u ms g fs) s = .next (faultEntry c s) ∧
        exec (.iircCfg u ms g fs) s = .next (faultEntry c s) ∧ exec (.apCfg u ms g fs) s = .next (faultEntry c s)) ∧
      (∀ mn r dp, fFinite mn = true → fFinite r = true → fFinite dp = true →
        exec (.flCfg u mn ms r dp fs) s = .next (faultEntry c s)) ∧
      exec (.psCfg u ms fs) s = .next (faultEntry c s))
    (short ms → raises .zeroDelay) ∧
    (long ms → raises .capacity) ∧
    (fits ms → s.params.capMax < 2 * (fTrunc (q ms)).toNat → exec (.psCfg u ms fs) s = .next (faultEntry .capacity s)) ∧
    (∀ mx r dp, fFinite mx = true → fFinite r = true → fFinite dp = true → fits mx →
      (fLt (q ms) fZero = true → exec (.flCfg u ms mx r dp fs) s = .refused .negativeDelay) ∧
      (fLt (q ms) fZero = false → fLt (toF s.params.capMax) (q ms) = true →
        exec (.flCfg u ms mx r dp fs) s = .next (faultEntry .capacity s))) ∧
    (∀ (wet : F) (spread : Word) (cd cg ad ag : List F),
      let i := Instr.rvCfg u fs wet spread cd cg ad ag
      operandsOk i s = true → cd.length = cg.length → ad.length = ag.length → cd ≠ [] →
      let delays := cd.map (fun v => fAdd v (fDiv (fMul (toF spread.toNat) fThousand) (toF fs.toNat))) ++ ad
      ∀ (k : Nat) (v : F), delays[k]? = some v → (∀ w ∈ delays.take k, fits w) →
        (short v → exec i s = .next (faultEntry .zeroDelay s)) ∧
        (long v → exec i s = .next (faultEntry .capacity s)))

/-- 60_exceptions R308: a block command raises E_CAPACITY when `len` is above XLEN or YLEN, NORM when it is above YLEN; the
test comes after the slot check (a failing slot check is E_SLOT whatever `len`) and before any cell is read (whatever the
cells hold); a `len` of 0 is legal and processes nothing. -/
def Obligations.BlockLengthIsChecked : Prop :=
  ∀ (s : State) (u v : Byte) (c : Col) (len : BitVec 32),
    (∀ i ∈ [Instr.flBlock u len, .rvBlock u len, .rvBlock2 u v len, .trBlock u len, .psBlock u len],
      (slotCheck i s = false → exec i s = .next (faultEntry .slot s)) ∧
      (slotCheck i s = true → s.params.xlen < len.toNat ∨ s.params.ylen < len.toNat →
        exec i s = .next (faultEntry .capacity s)) ∧
      (slotCheck i s = true → len = 0 → ∃ t, exec i s = .next t ∧ t.pc = s.pc + 1 ∧ t.YMEM0 = s.YMEM0 ∧
        t.YMEM1 = s.YMEM1 ∧ t.U = s.U ∧ statusNormed .c0 t.STATUS = false)) ∧
    (s.params.ylen < len.toNat → exec (.norm c len) s = .next (faultEntry .capacity s)) ∧
    (len = 0 → ∃ t, exec (.norm c len) s = .next t ∧ t.pc = s.pc + 1 ∧ t.YMEM0 = s.YMEM0 ∧ t.YMEM1 = s.YMEM1 ∧
      statusNormed c t.STATUS = false)

/-- 60_exceptions R312 item 2; 93 U1, U9: a well-formed command with a non-finite `F` operand, or with `fs` or `spread` of 2^53
or more, is refused whatever the slot holds. That a command with both is refused under the name of the first is the model's
choice (log 10). -/
def Obligations.BadOperandsAreRefusedBeforeTheSlot : Prop :=
  ∀ (i : Instr) (s : State), i.wellFormed s.params.nfiltMax = true → operandsOk i s = false →
    ((floatOperands i).all fFinite = false → exec i s = .refused .nonFiniteOperand) ∧
    ((floatOperands i).all fFinite = true → exec i s = .refused .wideOperand)

/-- 93 U1; 60_exceptions R312 item 4: a block command that passes its slot and `len` tests and meets an Unwritten or a
non-finite input cell is refused; so is NORM on its column. U1 has one refusal for both; that the model has two names, and
that the first such cell in ascending order decides between them, is its own choice (log 10). -/
def Obligations.BadInputCellsAreRefused : Prop :=
  ∀ (s : State) (u v : Byte) (c : Col) (len : BitVec 32) (k : Nat) (r : Refusal), k < len.toNat →
    let stops := fun (m : Mem) =>
      ((∀ j < k, ∃ x, memRead m j = some x ∧ fFinite x = true) ∧
      ((memRead m k = none ∧ r = .unwrittenCell) ∨ ∃ x, memRead m k = some x ∧ fFinite x = false ∧ r = .nonFiniteCell))
    (∀ i ∈ [Instr.flBlock u len, .rvBlock u len, .rvBlock2 u v len, .trBlock u len, .psBlock u len],
      slotCheck i s = true → len.toNat ≤ s.params.xlen → len.toNat ≤ s.params.ylen → stops s.XMEM →
      exec i s = .refused r) ∧
    (len.toNat ≤ s.params.ylen → stops (column c s) → exec (.norm c len) s = .refused r)

/-! ### Invariants of every step -/

/-- 10_state R40: after reset, whatever the stream, all the invariants below hold. -/
def Obligations.ResetMeetsTheInvariants : Prop :=
  ∀ cmd : List Word, memoriesOk (State.resetWith cmd) ∧ slotsShaped (State.resetWith cmd) = true ∧
    statusOk (State.resetWith cmd) = true ∧ pcOk (State.resetWith cmd) = true ∧
    valuesFinite (State.resetWith cmd) = true ∧ phasesOk (State.resetWith cmd) = true

/-- 20_memory R60, R67: every step keeps the three sample memories in canonical form and inside their sizes. -/
def Obligations.StepsKeepMemoriesCanonical : Prop :=
  ∀ s t : State, memoriesOk s → step s = .next t → memoriesOk t

/-- 10_state R31 to R38: every step keeps each buffer as long as its capacity, each cursor inside it, a flanger's buffer as
long as its longest delay, a pitch shifter's twice its window, a bank not empty. -/
def Obligations.StepsKeepSlotsShaped : Prop :=
  ∀ s t : State, slotsShaped s = true → step s = .next t → slotsShaped t = true

/-- 10_state R27, R28; 60_exceptions R301, R309, R310; 70_reset_and_hazards R347: every step keeps the reserved bits 0, CAUSE 0
exactly while FAULT is 0, the cause one that the engine raises, FCI at the index where the engine stands, and `pc` inside
the stream, which no step writes. -/
def Obligations.StepsKeepStatusAndPcLegal : Prop :=
  ∀ s t : State, step s = .next t →
    (statusOk s = true → statusOk t = true) ∧ (pcOk s = true → pcOk t = true ∧ t.CMD = s.CMD)

/-- 10_state R23; 93 U1, U2: every step keeps every value in the slots and in YMEM finite. -/
def Obligations.StepsKeepValuesFinite : Prop :=
  ∀ s t : State, valuesFinite s = true → step s = .next t → valuesFinite t = true

/-! ### Properties of the units -/

/-- 40_delay_line R130; 70_reset_and_hazards R348: for a capacity of at least 1 and a position in `[-(2^52), 0)` the wrap-add
loop ends within the model's bound. -/
def Obligations.WrapAddLoopEnds : Prop :=
  ∀ (L : Nat) (pos : F), 1 ≤ L → fFinite pos = true → fLt pos fZero = true → fLt pos fWrapLimit = false →
    ∃ n ≤ wrapFuel, fLt ((fun p => fAdd p (toF L))^[n] pos) fZero = false

/-- 40_delay_line R126, first row: reading at an integer offset `k` in `1 .. L` gives `buf[(cur - k) mod L]`, bit for bit but
for the sign of a stored -0.0. -/
def Obligations.IntegerOffsetReadsTheElement : Prop :=
  ∀ (d : DLState) (k : Nat), delayOk d = true → delayFinite d = true → d.L < 2 ^ 52 → 1 ≤ k → k ≤ d.L →
    ∃ v, fracRead d (toF k) = .ok v ∧
      let x := d.buf.getD ((d.cur + d.L - k) % d.L) fZero
      fEq v x = true ∧ (fIsZero x = false → v = x)

/-- 40_delay_line R123, R126, R128: after any writes, the value written `k` writes ago stands `k` positions behind the
cursor, for `k` up to the capacity. -/
def Obligations.WrittenValuesStandBehindTheCursor : Prop :=
  ∀ (d : DLState) (xs : List F) (k : Nat), delayOk d = true → 1 ≤ k → k ≤ d.L → k ≤ xs.length →
    let e := xs.foldl push d
    delayOk e = true ∧ e.L = d.L ∧ some (bufAt e ((e.cur + e.L - k) % e.L)) = xs[xs.length - k]?

/-- 41_comb_filters R147: `w[n] = x[n] + (gain × out[n])`, `out[n] = w[n-L]` for `n ≥ L` and +0.0 for `n < L`. A sequence
`out` with these equations, every `w[n]` finite, is what FIRC.PROC and IIRC.PROC return from a zeroed buffer, call by call. -/
def Obligations.CombOutputIsTheStoredSequenceDelayed : Prop :=
  ∀ (s : State) (u : Byte) (L : Nat) (g : F) (xs out : List F), 1 ≤ L → (∀ x ∈ xs, fFinite x = true) →
    out.length = xs.length →
    let w := fun n => fAdd (xs.getD n fZero) (fMul g (out.getD n fZero))
    (∀ n < xs.length, fFinite (w n) = true) →
    (∀ n < xs.length, out.getD n fZero = if n < L then fZero else w (n - L)) →
    let done := fun (wrap : CombState → Slot) (r : Option (List F × State)) =>
      ∃ d t, r = some (out, t) ∧ t.pc = s.pc + 2 * xs.length ∧ t.U = s.U.set u.toNat (wrap ⟨d, g⟩) ∧ d.L = L
    (s.U[u.toNat]? = some (.firc ⟨freshDelay L, g⟩) → done .firc (runResults (xs.map (.fircProc u)) s)) ∧
    (s.U[u.toNat]? = some (.iirc ⟨freshDelay L, g⟩) → done .iirc (runResults (xs.map (.iircProc u)) s))

/-- 43_oscillators R181: `Tri` and its values. -/
def Obligations.TriangleGainFormula : Prop :=
  (∀ p, tri p = fSub fOne (fMul fTwo (fAbs (fSub p fHalf)))) ∧
  tri 0x0000000000000000 = 0x0000000000000000 ∧ tri 0x3FD0000000000000 = 0x3FE0000000000000 ∧
  tri 0x3FE0000000000000 = 0x3FF0000000000000 ∧ tri 0x3FE8000000000000 = 0x3FE0000000000000 ∧
  tri 0x3FF0000000000000 = 0x0000000000000000 ∧ tri 0x3BC79CA10C924223 = 0x0000000000000000 ∧
  (∀ p, fLe 0x3FD0000000000000 p = true → fLe p fOne = true → fInt (fSub p fHalf) = fInt p - fInt fHalf)

/-- 43_oscillators R182: `PhaseB` and its values; for a phase in `[0, 1]` the one subtraction realises the `mod 1`: the
result is in `[0, 1)`. -/
def Obligations.SecondPhaseFormula : Prop :=
  (∀ p, phaseB p = if fLe fOne (fAdd p fHalf) then fSub (fAdd p fHalf) fOne else fAdd p fHalf) ∧
  phaseB 0x0000000000000000 = 0x3FE0000000000000 ∧ phaseB 0x3FE0000000000000 = 0x0000000000000000 ∧
  phaseB 0x3FE8000000000000 = 0x3FD0000000000000 ∧ phaseB 0x3FF0000000000000 = 0x3FE0000000000000 ∧
  (∀ p, fLe fZero p = true → fLe p fOne = true → fLe fZero (phaseB p) = true ∧ fLt (phaseB p) fOne = true)

/-- 43_oscillators R183, R173 (first row); 90_conflicts C6, C9: one correction keeps a phasor in the closed interval
`[0, 1]` for every rate of magnitude below 1.0, the second phase stays there too, and an LFO whose step is in `[0, TWO_PI)`
keeps its phase in `[0, TWO_PI]`. So every step of the machine keeps every TRI and PS slot's phasor legal (interval and
rate), and every LFO, FL and TR slot's phase in that band. -/
def Obligations.PhasesStayInTheirIntervals : Prop :=
  (∀ p rate : F, fLe fZero p = true → fLe p fOne = true → fLt (fAbs rate) fOne = true →
    fLe fZero (phasorAdvance p rate) = true ∧ fLe (phasorAdvance p rate) fOne = true ∧
    fLe fZero (phaseB p) = true ∧ fLe (phaseB p) fOne = true) ∧
  (∀ l : LFOState, fLe fZero l.step = true → fLt l.step Config.TWO_PI = true →
    fLe fZero l.phase = true → fLe l.phase Config.TWO_PI = true →
    fLe fZero (lfoAdvance l) = true ∧ fLe (lfoAdvance l) Config.TWO_PI = true) ∧
  (∀ s t : State, phasesOk s = true → step s = .next t → phasesOk t = true)

/-- 44_flanger R204; 46_tremolo R252; 45_reverb_bank R223 (§8 of the source, 95 T4): silence in, silence out. A zero input
and zeroed buffers give a zero output and leave zeroed buffers. -/
def Obligations.SilenceInGivesSilenceOut : Prop :=
  (∀ (r r' : RVState) (x y : F), rvSilent r = true → fIsZero x = true → rvStep r x = .ok (y, r') →
    fIsZero y = true ∧ rvSilent r' = true) ∧
  (∀ (t t' : TRState) (x y : F), fIsZero x = true → trStep t x = .ok (y, t') → fIsZero y = true) ∧
  (∀ (f f' : FLState) (x y : F), silent f.d.buf = true → fFinite f.depth = true → fIsZero x = true →
    flStep f x = .ok (y, f') → fIsZero y = true ∧ silent f'.d.buf = true)

/-- 48_normalise R293, R291: a second normalisation changes no cell and clears NORMEDc, and after a dividing pass the peak is
exactly 1.0. -/
def Obligations.NormIsIdempotent : Prop :=
  ∀ (s t : State) (c : Col) (len : BitVec 32), len.toNat ≤ s.params.ylen →
    exec (.norm c len) s = .next t →
    exec (.norm c len) t = .next { t with pc := t.pc + 1, STATUS := withNormed c false t.STATUS } ∧
    (statusNormed c t.STATUS = true → ∃ vs, vs.length = len.toNat ∧ Holds (column c t) vs ∧ peakOf vs = fOne)

/-- 70_reset_and_hazards R360; 44_flanger R204; 45_reverb_bank R226; 46_tremolo R253; 47_pitch_shifter R269: a mono block
command does what the STEP commands on its samples do one after another: where they all complete, the same instance in the
slot, and in column 0 the values they leave in RES[0], normalised; where one of them is refused, the block is refused.
And those values and that instance are the ones the rules' formulas give. -/
def Obligations.BlocksAreSequencesOfSteps : Prop :=
  ∀ (s : State) (u : Byte) (xs : List F), (∀ x ∈ xs, fFinite x = true) →
    let agree := fun (block : BitVec 32 → Instr) (sample : F → Instr) =>
      ∀ len, slotCheck (block len) s = true → len.toNat ≤ s.params.xlen → len.toNat ≤ s.params.ylen →
        xs.length = len.toNat → Holds s.XMEM xs →
        (∀ ys t, runResults (xs.map sample) s = some (ys, t) →
          exec (block len) s =
            .next { s with
              pc := s.pc + 1
              U := t.U
              YMEM0 := writeCells s.YMEM0 0 (normalised ys)
              STATUS := withNormed .c0 (fLt fOne (peakOf ys)) s.STATUS }) ∧
        (runResults (xs.map sample) s = none → ∃ r, exec (block len) s = .refused r)
    let gives := fun (sample : F → Instr) (ys : List F) (y : Slot) =>
      ∃ t, runResults (xs.map sample) s = some (ys, t) ∧ t.pc = s.pc + 2 * xs.length ∧ t.U = s.U.set u.toNat y ∧
        t.YMEM0 = s.YMEM0 ∧ t.YMEM1 = s.YMEM1 ∧ t.STATUS = s.STATUS
    (agree (.flBlock u) (.flStep u) ∧ agree (.rvBlock u) (.rvStep u) ∧ agree (.trBlock u) (.trStep u) ∧
      agree (.psBlock u) (.psStep u)) ∧
    (∀ a a' ys, s.U[u.toNat]? = some (.fl a) → BlockRun flGives a xs ys a' → gives (.flStep u) ys (.fl a')) ∧
    (∀ a a' ys, s.U[u.toNat]? = some (.rv a) → BlockRun rvGives a xs ys a' → gives (.rvStep u) ys (.rv a')) ∧
    (∀ a a' ys, s.U[u.toNat]? = some (.tr a) → BlockRun trGives a xs ys a' → gives (.trStep u) ys (.tr a')) ∧
    (∀ a a' ys, s.U[u.toNat]? = some (.ps a) → BlockRun psGives a xs ys a' → gives (.psStep u) ys (.ps a'))

/-- 47_pitch_shifter R270 (the streaming contract): a signal cut into two blocks leaves the pitch shifter as one block
does, buffer, cursor and phasor. -/
def Obligations.PitchShifterStreamsAcrossBlocks : Prop :=
  ∀ (s : State) (u : Byte) (xs ys zs : List F) (q q' : PSState) (n m nm : BitVec 32),
    s.U[u.toNat]? = some (.ps q) → (∀ x ∈ xs ++ ys, fFinite x = true) →
    xs.length = n.toNat → ys.length = m.toNat → (xs ++ ys).length = nm.toNat →
    nm.toNat ≤ s.params.xlen → nm.toNat ≤ s.params.ylen → BlockRun psGives q (xs ++ ys) zs q' →
    ∃ t1 t2 t, exec (.psBlock u n) (hostLoad 0 xs s) = .next t1 ∧
      exec (.psBlock u m) (hostLoad 0 ys t1) = .next t2 ∧
      exec (.psBlock u nm) (hostLoad 0 (xs ++ ys) s) = .next t ∧
      t.U[u.toNat]? = some (.ps q') ∧ t2.U = t.U
end

