-- ==== Sys2Proof/Laws/Decode.lean ====
section
/-! SUPPORT. The fields of an encoded header, the opcode bytes, and the round trip of the external byte image. -/

namespace Sys2Proof

/-! ### Fields of a header (30_encoding R90, R91) -/

@[simp] theorem hdrOpc_header (opc u v : Byte) (imm : BitVec 32) : hdrOpc (header opc u v imm) = opc := by
  simp only [hdrOpc, header]
  ext k hk
  simp only [BitVec.getElem_extractLsb', BitVec.getLsbD_append]
  rw [if_neg (by omega), if_neg (by omega), if_neg (by omega), if_neg (by omega), ← BitVec.getLsbD_eq_getElem]
  congr 1; omega

@[simp] theorem hdrU_header (opc u v : Byte) (imm : BitVec 32) : hdrU (header opc u v imm) = u := by
  simp only [hdrU, header]
  ext k hk
  simp only [BitVec.getElem_extractLsb', BitVec.getLsbD_append]
  rw [if_neg (by omega), if_neg (by omega), if_neg (by omega), if_pos (by omega), ← BitVec.getLsbD_eq_getElem]
  congr 1; omega

@[simp] theorem hdrV_header (opc u v : Byte) (imm : BitVec 32) : hdrV (header opc u v imm) = v := by
  simp only [hdrV, header]
  ext k hk
  simp only [BitVec.getElem_extractLsb', BitVec.getLsbD_append]
  rw [if_neg (by omega), if_neg (by omega), if_pos (by omega), ← BitVec.getLsbD_eq_getElem]
  congr 1; omega

@[simp] theorem hdrRsv_header (opc u v : Byte) (imm : BitVec 32) : hdrRsv (header opc u v imm) = 0 := by
  simp only [hdrRsv, header]
  ext k hk
  simp only [BitVec.getElem_extractLsb', BitVec.getLsbD_append]
  rw [if_neg (by omega), if_pos (by omega), ← BitVec.getLsbD_eq_getElem (by omega)]
  simp

@[simp] theorem hdrImm_header (opc u v : Byte) (imm : BitVec 32) : hdrImm (header opc u v imm) = imm := by
  simp only [hdrImm, header]
  ext k hk
  simp only [BitVec.getElem_extractLsb', BitVec.getLsbD_append]
  rw [if_pos (by omega), ← BitVec.getLsbD_eq_getElem]
  congr 1; omega

/-- A header is its five fields. -/
theorem header_fields (h : Word) (hr : hdrRsv h = 0) : header (hdrOpc h) (hdrU h) (hdrV h) (hdrImm h) = h := by
  ext k hk
  rw [← BitVec.getLsbD_eq_getElem, ← BitVec.getLsbD_eq_getElem]
  simp only [header, BitVec.getLsbD_append, hdrOpc, hdrU, hdrV, hdrImm, BitVec.getLsbD_extractLsb']
  by_cases h1 : k < 32
  · simp [h1]
  by_cases h2 : k < 40
  · have hb := congrArg (fun b => BitVec.getLsbD b (k - 32)) hr
    simp only [hdrRsv, BitVec.getLsbD_extractLsb', show k - 32 < 8 by omega, decide_true, Bool.true_and,
      show 32 + (k - 32) = k by omega] at hb
    rw [hb, if_neg (by omega), if_pos (by omega)]
  by_cases h3 : k < 48
  · rw [if_neg (by omega), if_neg (by omega), if_pos (by omega), show k - 32 - 8 = k - 40 by omega]
    simp only [show k - 40 < 8 by omega, decide_true, Bool.true_and, show 40 + (k - 40) = k by omega]
  by_cases h4 : k < 56
  · rw [if_neg (by omega), if_neg (by omega), if_neg (by omega), if_pos (by omega),
      show k - 32 - 8 - 8 = k - 48 by omega]
    simp only [show k - 48 < 8 by omega, decide_true, Bool.true_and, show 48 + (k - 48) = k by omega]
  · rw [if_neg (by omega), if_neg (by omega), if_neg (by omega), if_neg (by omega),
      show k - 32 - 8 - 8 - 8 = k - 56 by omega]
    simp only [show k - 56 < 8 by omega, decide_true, Bool.true_and, show 56 + (k - 56) = k by omega]

/-! ### Opcodes (30_encoding R94) -/

@[simp] theorem opcodeOf_opcodeByte (o : Opcode) : opcodeOf (opcodeByte o) = some o := by
  cases o <;> decide

theorem opcodeByte_of_opcodeOf {b : Byte} {o : Opcode} (h : opcodeOf b = some o) : opcodeByte o = b := by
  simpa using List.find?_some h

theorem opcodeByte_inj {o p : Opcode} (h : opcodeByte o = opcodeByte p) : o = p := by
  simpa using congrArg opcodeOf h

/-- A header is decoded exactly when its opcode is one of the thirty and the fields its row does not use are zero. -/
theorem decodeHeader_eq_some {h : Word} {o : Opcode} :
    decodeHeader h = some o ↔ hdrOpc h = opcodeByte o ∧ unusedZero h (opcodeFormat o) = true := by
  simp only [decodeHeader]
  constructor
  · intro e
    cases ho : opcodeOf (hdrOpc h) with
    | none => rw [ho] at e; cases e
    | some p =>
      rw [ho] at e
      by_cases hz : unusedZero h (opcodeFormat p) = true
      · simp only [if_pos hz, Option.some.injEq] at e
        subst e
        exact ⟨(opcodeByte_of_opcodeOf ho).symm, hz⟩
      · simp only [if_neg hz] at e; cases e
  · rintro ⟨h1, h2⟩
    simp [h1, h2]

/-! ### The byte image (20_memory R64) -/

theorem append_wordBytes (w : Word) :
    ((w.extractLsb' 56 8 ++ w.extractLsb' 48 8 ++ w.extractLsb' 40 8 ++ w.extractLsb' 32 8 ++ w.extractLsb' 24 8 ++
      w.extractLsb' 16 8 ++ w.extractLsb' 8 8 ++ w.extractLsb' 0 8 : BitVec 64)) = w := by
  ext k hk
  rw [← BitVec.getLsbD_eq_getElem, ← BitVec.getLsbD_eq_getElem]
  simp only [BitVec.getLsbD_append, BitVec.getLsbD_extractLsb']
  obtain ⟨j, i, hi, hj, rfl⟩ : ∃ j i, i < 8 ∧ j < 8 ∧ k = 8 * j + i := ⟨k / 8, k % 8, by omega, by omega, by omega⟩
  have hjs : j = 0 ∨ j = 1 ∨ j = 2 ∨ j = 3 ∨ j = 4 ∨ j = 5 ∨ j = 6 ∨ j = 7 := by omega
  rcases hjs with rfl | rfl | rfl | rfl | rfl | rfl | rfl | rfl
  · rw [if_pos (by omega), decide_eq_true (by omega), Bool.true_and]; congr 1; omega
  · rw [if_neg (by omega), if_pos (by omega), decide_eq_true (by omega), Bool.true_and]; congr 1; omega
  · rw [if_neg (by omega), if_neg (by omega), if_pos (by omega), decide_eq_true (by omega), Bool.true_and]; congr 1; omega
  · rw [if_neg (by omega), if_neg (by omega), if_neg (by omega), if_pos (by omega), decide_eq_true (by omega), Bool.true_and]; congr 1; omega
  · rw [if_neg (by omega), if_neg (by omega), if_neg (by omega), if_neg (by omega), if_pos (by omega), decide_eq_true (by omega), Bool.true_and]; congr 1; omega
  · rw [if_neg (by omega), if_neg (by omega), if_neg (by omega), if_neg (by omega), if_neg (by omega), if_pos (by omega), decide_eq_true (by omega), Bool.true_and]; congr 1; omega
  · rw [if_neg (by omega), if_neg (by omega), if_neg (by omega), if_neg (by omega), if_neg (by omega), if_neg (by omega), if_pos (by omega), decide_eq_true (by omega), Bool.true_and]; congr 1; omega
  · rw [if_neg (by omega), if_neg (by omega), if_neg (by omega), if_neg (by omega), if_neg (by omega), if_neg (by omega), if_neg (by omega), decide_eq_true (by omega), Bool.true_and]; congr 1; omega

theorem imageWords_wordsImage (ws : List Word) : imageWords (wordsImage ws) = some ws := by
  induction ws with
  | nil => rfl
  | cons w ws ih =>
    have : wordsImage (w :: ws) = w.extractLsb' 0 8 :: w.extractLsb' 8 8 :: w.extractLsb' 16 8 ::
      w.extractLsb' 24 8 :: w.extractLsb' 32 8 :: w.extractLsb' 40 8 :: w.extractLsb' 48 8 ::
      w.extractLsb' 56 8 :: wordsImage ws := rfl
    rw [this, imageWords, ih, append_wordBytes]
    rfl

/-- Decoding a byte image of words decodes the words. -/
theorem decodeImage_wordsImage (nf : Nat) (ws : List Word) : decodeImage nf (wordsImage ws) = decode nf ws := by
  simp only [decodeImage, imageWords_wordsImage]

end Sys2Proof
end

