-- ==== Sys2Proof/Laws/Float.lean ====
section
/-! SUPPORT. The laws of the arithmetic (00_scope R9; 10_state R22): rounding is exact on representable values and
monotone, so a result lies on the same side of every representable bound as the exact value; infinities and NaNs reach
the end of a formula. -/

namespace Sys2Proof.Machine

/-! ### Rounding on magnitudes -/

/-- The value of a magnitude in units of 2^-1074. -/
def unitsOf (m : Nat) : Nat := if m < 2 ^ 52 then m else (2 ^ 52 + m % 2 ^ 52) * 2 ^ (m / 2 ^ 52 - 1)

/-- The magnitude that `n / d` units round to. -/
def roundMag (n d : Nat) : Nat :=
  let sh := Nat.log2 (n / d) - 52
  let unit := d * 2 ^ sh
  let q := n / unit
  let r := n % unit
  min (sh * 2 ^ 52 + q + if unit < 2 * r || (2 * r == unit && q % 2 == 1) then 1 else 0) fInfMag

theorem fRound_eq (neg : Bool) (n d : Nat) : fRound neg n d = fEncode neg (roundMag n d) := rfl

theorem fUnits_eq (a : F) : fUnits a = unitsOf (fMag a) := rfl

theorem roundMag_le (n d : Nat) : roundMag n d ≤ fInfMag := Nat.min_le_right _ _

/-- Rounding of the quotient `q + r / unit` to nearest, ties to even, is monotone. -/
theorem nearest_mono {q r u q' r' u' : Nat} (hr : r < u) (hr' : r' < u')
    (h : (q * u + r) * u' ≤ (q' * u' + r') * u) :
    (q + if u < 2 * r || (2 * r == u && q % 2 == 1) then 1 else 0) ≤
      q' + if u' < 2 * r' || (2 * r' == u' && q' % 2 == 1) then 1 else 0 := by
  have hqq : q ≤ q' := by
    by_contra hlt
    have h1 : (q' + 1) * (u * u') ≤ q * (u * u') := Nat.mul_le_mul_right _ (by omega)
    have h2 : r' * u < u' * u := Nat.mul_lt_mul_of_pos_right hr' (by omega)
    nlinarith [h, h1, h2, Nat.zero_le (r * u')]
  rcases Nat.lt_or_eq_of_le hqq with hlt | rfl
  · split <;> split <;> omega
  · have hrr : r * u' ≤ r' * u := by nlinarith [h]
    by_cases hup : (u < 2 * r || (2 * r == u && q % 2 == 1)) = true
    · have hup' : (u' < 2 * r' || (2 * r' == u' && q % 2 == 1)) = true := by
        simp only [Bool.or_eq_true, decide_eq_true_eq, Bool.and_eq_true, beq_iff_eq] at hup ⊢
        rcases hup with hup | ⟨hup, hq⟩
        · left
          by_contra hle
          have h1 : 2 * r' * u ≤ u' * u := Nat.mul_le_mul_right _ (by omega)
          have h2 : u * u' < 2 * r * u' := Nat.mul_lt_mul_of_pos_right hup (by omega)
          nlinarith [h1, h2, hrr]
        · by_contra hle
          have h0 : 2 * r' < u' := by
            rcases Nat.lt_trichotomy (2 * r') u' with hlt | heq | hgt
            · exact hlt
            · exact absurd (Or.inr ⟨heq, hq⟩) hle
            · exact absurd (Or.inl hgt) hle
          have h1 : 2 * r' * u < u' * u := Nat.mul_lt_mul_of_pos_right h0 (by omega)
          have h2 : 2 * r * u' = u * u' := by rw [hup]
          nlinarith [h1, h2, hrr]
      rw [if_pos hup, if_pos hup']
    · rw [if_neg hup]; omega

theorem div_mono {n d n' d' : Nat} (hd : 0 < d) (hd' : 0 < d') (h : n * d' ≤ n' * d) : n / d ≤ n' / d' := by
  rw [Nat.le_div_iff_mul_le hd']
  have h1 : n / d * d ≤ n := Nat.div_mul_le_self n d
  have h2 : n / d * d * d' ≤ n * d' := Nat.mul_le_mul_right _ h1
  have h3 : n / d * d' * d ≤ n' * d := by nlinarith [h2, h]
  exact Nat.le_of_mul_le_mul_right h3 hd

/-- `q` of `roundMag`, with its place in the binade. -/
theorem roundMag_binade (n d : Nat) :
    n / (d * 2 ^ (Nat.log2 (n / d) - 52)) < 2 ^ 53 ∧
      (0 < Nat.log2 (n / d) - 52 → 2 ^ 52 ≤ n / (d * 2 ^ (Nat.log2 (n / d) - 52))) := by
  rw [← Nat.div_div_eq_div_mul]
  have ht : ∀ t : Nat, t / 2 ^ (Nat.log2 t - 52) < 2 ^ 53 ∧ (0 < Nat.log2 t - 52 → 2 ^ 52 ≤ t / 2 ^ (Nat.log2 t - 52)) := by
    intro t
    have h1 : t < 2 ^ (Nat.log2 t + 1) := Nat.lt_log2_self
    constructor
    · rw [Nat.div_lt_iff_lt_mul (Nat.two_pow_pos _), ← Nat.pow_add]
      exact Nat.lt_of_lt_of_le h1 (Nat.pow_le_pow_right (by omega) (by omega))
    · intro h0
      have hne : t ≠ 0 := by rintro rfl; simp at h0
      rw [Nat.le_div_iff_mul_le (Nat.two_pow_pos _), ← Nat.pow_add]
      exact Nat.le_trans (Nat.pow_le_pow_right (by omega) (by omega)) (Nat.log2_self_le hne)
  exact ht _

/-- Rounding is monotone. -/
theorem roundMag_mono {n d n' d' : Nat} (hd : 0 < d) (hd' : 0 < d') (h : n * d' ≤ n' * d) :
    roundMag n d ≤ roundMag n' d' := by
  have hdiv := div_mono hd hd' h
  obtain ⟨hb, -⟩ := roundMag_binade n d
  obtain ⟨-, hc'⟩ := roundMag_binade n' d'
  have hlog : Nat.log2 (n / d) - 52 ≤ Nat.log2 (n' / d') - 52 := by
    have : Nat.log2 (n / d) ≤ Nat.log2 (n' / d') := by
      rw [Nat.log2_eq_log_two, Nat.log2_eq_log_two]; exact Nat.log_mono_right hdiv
    omega
  simp only [roundMag]
  generalize Nat.log2 (n / d) - 52 = sh at *
  generalize Nat.log2 (n' / d') - 52 = sh' at *
  refine Nat.le_min.2 ⟨Nat.le_trans (Nat.min_le_left _ _) ?_, Nat.min_le_right _ _⟩
  rcases Nat.lt_or_eq_of_le hlog with hlt | rfl
  · have h1 := hc' (by omega)
    have h2 : sh * 2 ^ 52 + 2 ^ 52 ≤ sh' * 2 ^ 52 := by nlinarith
    have h3 : ∀ (b : Bool) (x y z : Nat), x < 2 ^ 53 → y + 2 ^ 52 ≤ z → y + x + (if b then 1 else 0) ≤ z + 2 ^ 52 := by
      intro b x y z hx hy; cases b <;> simp <;> omega
    exact Nat.le_trans (h3 _ _ _ _ hb h2) (by rw [Nat.add_assoc]; exact Nat.add_le_add_left (Nat.le_add_right_of_le h1) _)
  · have hu : 0 < d * 2 ^ sh := Nat.mul_pos hd (Nat.two_pow_pos _)
    have hu' : 0 < d' * 2 ^ sh := Nat.mul_pos hd' (Nat.two_pow_pos _)
    have := nearest_mono (q := n / (d * 2 ^ sh)) (q' := n' / (d' * 2 ^ sh)) (Nat.mod_lt n hu) (Nat.mod_lt n' hu') (by
      rw [Nat.div_add_mod', Nat.div_add_mod']
      have := Nat.mul_le_mul_right (2 ^ sh) h
      calc n * (d' * 2 ^ sh) = n * d' * 2 ^ sh := by ring
        _ ≤ n' * d * 2 ^ sh := this
        _ = n' * (d * 2 ^ sh) := by ring)
    rw [Nat.add_assoc, Nat.add_assoc]
    exact Nat.add_le_add_left this _

/-- Rounding is exact on the value of every magnitude. -/
theorem roundMag_unitsOf {m d : Nat} (hd : 0 < d) (hm : m ≤ fInfMag) : roundMag (unitsOf m * d) d = m := by
  have key : ∀ sh q, Nat.log2 (q * 2 ^ sh) - 52 = sh →
      roundMag (q * 2 ^ sh * d) d = min (sh * 2 ^ 52 + q) fInfMag := by
    intro sh q h
    have hu : 0 < d * 2 ^ sh := Nat.mul_pos hd (Nat.two_pow_pos _)
    have h1 : q * 2 ^ sh * d = d * 2 ^ sh * q := by ring
    simp only [roundMag, Nat.mul_div_cancel _ hd, h]
    rw [h1, Nat.mul_mod_right, Nat.mul_div_cancel_left _ hu, if_neg]
    · rw [Nat.add_zero]
    · simp only [Bool.or_eq_true, decide_eq_true_eq, Bool.and_eq_true, beq_iff_eq, not_or, not_and]
      exact ⟨by omega, fun h => by omega⟩
  by_cases hs : m < 2 ^ 52
  · have := key 0 m (by
      rw [Nat.pow_zero, Nat.mul_one, Nat.sub_eq_zero_iff_le]
      by_cases h0 : m = 0
      · subst h0; simp
      · exact Nat.le_of_lt ((Nat.log2_lt h0).2 hs))
    simp only [Nat.pow_zero, Nat.mul_one] at this
    rw [unitsOf, if_pos hs, this]
    omega
  · have hq : 2 ^ 52 ≤ 2 ^ 52 + m % 2 ^ 52 := Nat.le_add_right _ _
    have hq' : 2 ^ 52 + m % 2 ^ 52 < 2 ^ 53 := by have := Nat.mod_lt m (Nat.two_pow_pos 52); omega
    have hlog : Nat.log2 ((2 ^ 52 + m % 2 ^ 52) * 2 ^ (m / 2 ^ 52 - 1)) = 52 + (m / 2 ^ 52 - 1) := by
      rw [Nat.log2_eq_iff (Nat.mul_pos (by omega) (Nat.two_pow_pos _)).ne']
      constructor
      · rw [Nat.pow_add]; exact Nat.mul_le_mul_right _ hq
      · rw [show 52 + (m / 2 ^ 52 - 1) + 1 = 53 + (m / 2 ^ 52 - 1) by omega, Nat.pow_add]
        exact Nat.mul_lt_mul_of_pos_right hq' (Nat.two_pow_pos _)
    rw [unitsOf, if_neg hs, key _ _ (by rw [hlog]; omega)]
    have h1 : 1 ≤ m / 2 ^ 52 := (Nat.le_div_iff_mul_le (Nat.two_pow_pos _)).2 (by omega)
    have h2 := Nat.div_add_mod m (2 ^ 52)
    rw [Nat.min_eq_left]
    · rw [Nat.sub_mul]; omega
    · rw [Nat.sub_mul]; omega

/-- The value of a magnitude rises with it. -/
theorem unitsOf_lt {m m' : Nat} (h : m < m') (hm' : m' ≤ fInfMag) : unitsOf m < unitsOf m' := by
  by_contra hle
  have := roundMag_mono (n := unitsOf m') (d := 1) (n' := unitsOf m) (d' := 1) (by omega) (by omega) (by omega)
  have h1 := roundMag_unitsOf (m := m') (d := 1) (by omega) hm'
  have h2 := roundMag_unitsOf (m := m) (d := 1) (by omega) (by omega)
  rw [Nat.mul_one] at h1 h2
  omega

theorem unitsOf_le_iff {m m' : Nat} (hm : m ≤ fInfMag) (hm' : m' ≤ fInfMag) :
    unitsOf m ≤ unitsOf m' ↔ m ≤ m' := by
  constructor
  · intro h
    by_contra hlt
    have := unitsOf_lt (m := m') (m' := m) (by omega) hm
    omega
  · intro h
    rcases Nat.lt_or_eq_of_le h with h | rfl
    · exact Nat.le_of_lt (unitsOf_lt h hm')
    · exact Nat.le_refl _

/-- A quotient below a representable value rounds below it. -/
theorem roundMag_le_of_le {n d m : Nat} (hd : 0 < d) (hm : m ≤ fInfMag) (h : n ≤ unitsOf m * d) :
    roundMag n d ≤ m := by
  have := roundMag_mono (n := n) (d := d) (n' := unitsOf m * d) (d' := d) hd hd (Nat.mul_le_mul_right _ h)
  rwa [roundMag_unitsOf hd hm] at this

/-- A quotient above a representable value rounds above it. -/
theorem le_roundMag_of_le {n d m : Nat} (hd : 0 < d) (hm : m ≤ fInfMag) (h : unitsOf m * d ≤ n) :
    m ≤ roundMag n d := by
  have := roundMag_mono (n := unitsOf m * d) (d := d) (n' := n) (d' := d) hd hd (Nat.mul_le_mul_right _ h)
  rwa [roundMag_unitsOf hd hm] at this

theorem unitsOf_zero : unitsOf 0 = 0 := rfl

theorem unitsOf_infMag : unitsOf fInfMag = 2 ^ 52 * 2 ^ 2046 := by
  rw [unitsOf, if_neg (by decide), show fInfMag % 2 ^ 52 = 0 from rfl, show fInfMag / 2 ^ 52 - 1 = 2046 from rfl,
    Nat.add_zero]

theorem exponent_bound {f k K : Nat} (h : (2 ^ 52 + f) * 2 ^ k ≤ 2 ^ 52 * 2 ^ K) : k < K ∨ (k = K ∧ f = 0) := by
  have h1 : 2 ^ 52 * 2 ^ k ≤ 2 ^ 52 * 2 ^ K := Nat.le_trans (Nat.mul_le_mul_right _ (Nat.le_add_right _ _)) h
  have h2 : k ≤ K := (Nat.pow_le_pow_iff_right (by omega)).1 (Nat.le_of_mul_le_mul_left h1 (by omega))
  rcases Nat.lt_or_eq_of_le h2 with h3 | rfl
  · exact .inl h3
  · have := Nat.le_of_mul_le_mul_right h (Nat.two_pow_pos _)
    exact .inr ⟨rfl, by omega⟩

/-- A number of units with at most 53 significant bits, up to infinity, is the value of a magnitude. -/
theorem exists_unitsOf {q k : Nat} (hq : q ≤ 2 ^ 53) (hk : q * 2 ^ k ≤ unitsOf fInfMag) :
    ∃ m ≤ fInfMag, unitsOf m = q * 2 ^ k := by
  have normal : ∀ q k : Nat, 2 ^ 52 ≤ q → q < 2 ^ 53 → q * 2 ^ k ≤ unitsOf fInfMag →
      ∃ m ≤ fInfMag, unitsOf m = q * 2 ^ k := by
    intro q k h1 h2 h3
    obtain ⟨f, rfl⟩ : ∃ f, q = 2 ^ 52 + f := ⟨q - 2 ^ 52, by omega⟩
    refine ⟨(k + 1) * 2 ^ 52 + f, ?_, ?_⟩
    · rw [unitsOf_infMag] at h3
      have h4 := exponent_bound h3
      have h6 : fInfMag = 2047 * 2 ^ 52 := rfl
      clear h3
      rw [h6]
      omega
    · have h4 : ((k + 1) * 2 ^ 52 + f) / 2 ^ 52 = k + 1 := by omega
      have h5 : ((k + 1) * 2 ^ 52 + f) % 2 ^ 52 = f := by omega
      rw [unitsOf, if_neg (by omega), h4, h5, Nat.add_sub_cancel]
  induction k generalizing q with
  | zero =>
    by_cases h : q < 2 ^ 52
    · exact ⟨q, Nat.le_of_lt (Nat.lt_trans h (by decide)), by rw [unitsOf, if_pos h, Nat.pow_zero, Nat.mul_one]⟩
    · rcases Nat.lt_or_eq_of_le hq with h' | rfl
      · exact normal q 0 (by omega) h' hk
      · exact normal (2 ^ 52) 1 (by omega) (by omega) hk
  | succ k ih =>
    have hs : 2 * q * 2 ^ k = q * 2 ^ (k + 1) := by rw [Nat.pow_succ]; ring
    by_cases h : q < 2 ^ 52
    · have := ih (q := 2 * q) (by omega) (by rwa [hs])
      rwa [hs] at this
    · rcases Nat.lt_or_eq_of_le hq with h' | rfl
      · exact normal q (k + 1) (by omega) h' hk
      · have hs' : 2 ^ 53 * 2 ^ (k + 1) = 2 ^ 52 * 2 ^ (k + 1 + 1) := by ring
        rw [hs'] at hk ⊢
        exact normal (2 ^ 52) (k + 1 + 1) (by omega) (by omega) hk

/-! ### Patterns -/

theorem fMag_lt (a : F) : fMag a < 2 ^ 63 := Nat.mod_lt _ (by omega)

theorem fInfMag_lt : fInfMag < 2 ^ 63 := by decide

theorem fMag_fEncode {neg : Bool} {m : Nat} (h : m < 2 ^ 63) : fMag (fEncode neg m) = m := by
  cases neg <;> simp only [fMag, fEncode, BitVec.toNat_ofNat] <;> simp <;> omega

theorem fSign_fEncode {neg : Bool} {m : Nat} (h : m < 2 ^ 63) : fSign (fEncode neg m) = neg := by
  rw [fSign, BitVec.msb_eq_decide, fEncode, BitVec.toNat_ofNat]
  cases neg <;> simp <;> omega

theorem fEncode_fSign_fMag (a : F) : fEncode (fSign a) (fMag a) = a := by
  apply BitVec.eq_of_toNat_eq
  rw [fEncode, BitVec.toNat_ofNat, fSign, BitVec.msb_eq_decide, fMag]
  have := a.isLt
  by_cases h : 9223372036854775808 ≤ a.toNat <;> simp [h] <;> omega

theorem fFinite_iff {a : F} : fFinite a = true ↔ fMag a < fInfMag := by simp [fFinite]

theorem fFinite_eq_false {a : F} : fFinite a = false ↔ fInfMag ≤ fMag a := by simp [fFinite]

theorem fIsNaN_eq_false {a : F} : fIsNaN a = false ↔ fMag a ≤ fInfMag := by simp [fIsNaN]

theorem fIsZero_iff {a : F} : fIsZero a = true ↔ fMag a = 0 := by simp [fIsZero]

theorem fIsNaN_of_finite {a : F} (h : fFinite a = true) : fIsNaN a = false :=
  fIsNaN_eq_false.2 (Nat.le_of_lt (fFinite_iff.1 h))

theorem fIsInf_of_finite {a : F} (h : fFinite a = true) : fIsInf a = false := by
  have := fFinite_iff.1 h
  simp only [fIsInf, beq_eq_false_iff_ne]
  omega

theorem fInt_eq (a : F) : fInt a = if fSign a then -(unitsOf (fMag a) : Int) else (unitsOf (fMag a) : Int) := rfl

theorem fInt_fEncode {neg : Bool} {m : Nat} (h : m < 2 ^ 63) :
    fInt (fEncode neg m) = if neg then -(unitsOf m : Int) else (unitsOf m : Int) := by
  rw [fInt_eq, fSign_fEncode h, fMag_fEncode h]

@[simp] theorem fMag_fNeg (a : F) : fMag (fNeg a) = fMag a := fMag_fEncode (fMag_lt a)
@[simp] theorem fSign_fNeg (a : F) : fSign (fNeg a) = !fSign a := fSign_fEncode (fMag_lt a)
@[simp] theorem fMag_fAbs (a : F) : fMag (fAbs a) = fMag a := fMag_fEncode (fMag_lt a)
@[simp] theorem fSign_fAbs (a : F) : fSign (fAbs a) = false := fSign_fEncode (fMag_lt a)
@[simp] theorem fFinite_fNeg (a : F) : fFinite (fNeg a) = fFinite a := by simp [fFinite]
@[simp] theorem fFinite_fAbs (a : F) : fFinite (fAbs a) = fFinite a := by simp [fFinite]
@[simp] theorem fIsNaN_fNeg (a : F) : fIsNaN (fNeg a) = fIsNaN a := by simp [fIsNaN]
@[simp] theorem fIsInf_fNeg (a : F) : fIsInf (fNeg a) = fIsInf a := by simp [fIsInf]
@[simp] theorem fIsZero_fNeg (a : F) : fIsZero (fNeg a) = fIsZero a := by simp [fIsZero]

@[simp] theorem fInt_fNeg (a : F) : fInt (fNeg a) = -fInt a := by
  rw [fInt_eq, fInt_eq, fSign_fNeg, fMag_fNeg]; cases fSign a <;> simp

theorem fInt_fAbs (a : F) : fInt (fAbs a) = (unitsOf (fMag a) : Int) := by
  rw [fInt_eq, fSign_fAbs, fMag_fAbs]; simp

theorem natAbs_fInt (a : F) : (fInt a).natAbs = unitsOf (fMag a) := by
  rw [fInt_eq]; split <;> simp

/-- A value is zero, of either sign, exactly when its magnitude is. -/
theorem fInt_eq_zero {a : F} (h : fMag a ≤ fInfMag) : fInt a = 0 ↔ fMag a = 0 := by
  rw [← Int.natAbs_eq_zero, natAbs_fInt]
  constructor
  · intro h0
    by_contra hne
    have := unitsOf_lt (m := 0) (m' := fMag a) (by omega) h
    omega
  · intro h0; rw [h0, unitsOf_zero]

/-- Equal values that are not zero are equal patterns. -/
theorem eq_of_fInt_eq {a b : F} (ha : fMag a ≤ fInfMag) (hb : fMag b ≤ fInfMag) (h : fInt a = fInt b)
    (h0 : fInt a ≠ 0) : a = b := by
  have hm : fMag a = fMag b := by
    have := congrArg Int.natAbs h
    rw [natAbs_fInt, natAbs_fInt] at this
    apply Nat.le_antisymm
    · exact (unitsOf_le_iff ha hb).1 (by omega)
    · exact (unitsOf_le_iff hb ha).1 (by omega)
  have hs : fSign a = fSign b := by
    rw [fInt_eq] at h h0
    rw [fInt_eq, hm] at h
    rw [hm] at h0
    cases hsa : fSign a <;> cases hsb : fSign b <;> simp [hsa, hsb] at h h0 ⊢ <;> omega
  rw [← fEncode_fSign_fMag a, hs, hm, fEncode_fSign_fMag]

/-! ### Comparisons -/

theorem fLt_iff {a b : F} (ha : fMag a ≤ fInfMag) (hb : fMag b ≤ fInfMag) : fLt a b = true ↔ fInt a < fInt b := by
  simp [fLt, fIsNaN_eq_false.2 ha, fIsNaN_eq_false.2 hb]

theorem fLe_iff {a b : F} (ha : fMag a ≤ fInfMag) (hb : fMag b ≤ fInfMag) : fLe a b = true ↔ fInt a ≤ fInt b := by
  simp [fLe, fIsNaN_eq_false.2 ha, fIsNaN_eq_false.2 hb]

theorem fLe_eq_true {a b : F} : fLe a b = true ↔ fMag a ≤ fInfMag ∧ fMag b ≤ fInfMag ∧ fInt a ≤ fInt b := by
  rw [← fIsNaN_eq_false, ← fIsNaN_eq_false]
  cases ha : fIsNaN a <;> cases hb : fIsNaN b <;> simp [fLe, ha, hb]

theorem fLt_eq_true {a b : F} : fLt a b = true ↔ fMag a ≤ fInfMag ∧ fMag b ≤ fInfMag ∧ fInt a < fInt b := by
  rw [← fIsNaN_eq_false, ← fIsNaN_eq_false]
  cases ha : fIsNaN a <;> cases hb : fIsNaN b <;> simp [fLt, ha, hb]

theorem fEq_eq_true {a b : F} : fEq a b = true ↔ fMag a ≤ fInfMag ∧ fMag b ≤ fInfMag ∧ fInt a = fInt b := by
  rw [← fIsNaN_eq_false, ← fIsNaN_eq_false]
  cases ha : fIsNaN a <;> cases hb : fIsNaN b <;> simp [fEq, ha, hb]

/-- Between two finite values everything is finite. -/
theorem fFinite_of_between {a b c : F} (ha : fFinite a = true) (hc : fFinite c = true) (hb : fMag b ≤ fInfMag)
    (h1 : fInt a ≤ fInt b) (h2 : fInt b ≤ fInt c) : fFinite b = true := by
  rw [fFinite_iff] at *
  rcases Nat.lt_or_eq_of_le hb with hb | hb
  · exact hb
  · exfalso
    have h3 := unitsOf_lt ha (Nat.le_refl _)
    have h4 := unitsOf_lt hc (Nat.le_refl _)
    rw [fInt_eq a] at h1
    rw [fInt_eq c] at h2
    rw [fInt_eq b, hb] at h1 h2
    split at h1 <;> split at h2 <;> split at h1 <;> omega

/-! ### Rounding with a sign -/

theorem fMag_fRound (neg : Bool) (n d : Nat) : fMag (fRound neg n d) = roundMag n d := by
  rw [fRound_eq, fMag_fEncode (Nat.lt_of_le_of_lt (roundMag_le n d) fInfMag_lt)]

theorem fSign_fRound (neg : Bool) (n d : Nat) : fSign (fRound neg n d) = neg := by
  rw [fRound_eq, fSign_fEncode (Nat.lt_of_le_of_lt (roundMag_le n d) fInfMag_lt)]

theorem fInt_fRound (neg : Bool) (n d : Nat) :
    fInt (fRound neg n d) = if neg then -(unitsOf (roundMag n d) : Int) else (unitsOf (roundMag n d) : Int) := by
  rw [fInt_eq, fSign_fRound, fMag_fRound]

/-! ### Addition -/

theorem fAdd_of_finite {a b : F} (ha : fFinite a = true) (hb : fFinite b = true) :
    fAdd a b = if fInt a + fInt b = 0 then fEncode (fSign a && fSign b) 0
      else fRound (decide (fInt a + fInt b < 0)) (fInt a + fInt b).natAbs 1 := by
  simp [fAdd, fIsNaN_of_finite ha, fIsNaN_of_finite hb, fIsInf_of_finite ha, fIsInf_of_finite hb]

theorem fMag_fAdd_le {a b : F} (ha : fFinite a = true) (hb : fFinite b = true) : fMag (fAdd a b) ≤ fInfMag := by
  rw [fAdd_of_finite ha hb]
  split
  · rw [fMag_fEncode (by omega)]; omega
  · rw [fMag_fRound]; exact roundMag_le _ _

/-- A sum below a representable value rounds below it. -/
theorem fInt_fAdd_le {a b c : F} (ha : fFinite a = true) (hb : fFinite b = true) (hc : fMag c ≤ fInfMag)
    (h : fInt a + fInt b ≤ fInt c) : fInt (fAdd a b) ≤ fInt c := by
  rw [fAdd_of_finite ha hb]
  generalize fInt a + fInt b = z at *
  split
  · rename_i h0
    rw [fInt_fEncode (by omega), unitsOf_zero]
    split <;> omega
  · rename_i h0
    rw [fInt_fRound]
    rw [fInt_eq] at h ⊢
    by_cases hz : z < 0
    · simp only [hz, decide_true, if_true]
      split at h
      · rename_i hs
        rw [if_pos hs]
        have := (unitsOf_le_iff hc (roundMag_le z.natAbs 1)).2
          (le_roundMag_of_le (n := z.natAbs) (d := 1) (by omega) hc (by omega))
        omega
      · rename_i hs
        rw [if_neg hs]; omega
    · simp only [hz, decide_false, Bool.false_eq_true, if_false]
      split at h
      · omega
      · rename_i hs
        rw [if_neg hs]
        have := (unitsOf_le_iff (roundMag_le z.natAbs 1) hc).2
          (roundMag_le_of_le (n := z.natAbs) (d := 1) (by omega) hc (by omega))
        omega

/-- A sum above a representable value rounds above it. -/
theorem le_fInt_fAdd {a b c : F} (ha : fFinite a = true) (hb : fFinite b = true) (hc : fMag c ≤ fInfMag)
    (h : fInt c ≤ fInt a + fInt b) : fInt c ≤ fInt (fAdd a b) := by
  rw [fAdd_of_finite ha hb]
  generalize fInt a + fInt b = z at *
  split
  · rename_i h0
    rw [fInt_fEncode (by omega), unitsOf_zero]
    split <;> omega
  · rename_i h0
    rw [fInt_fRound]
    rw [fInt_eq] at h ⊢
    by_cases hz : z < 0
    · simp only [hz, decide_true, if_true]
      split at h
      · rename_i hs
        rw [if_pos hs]
        have := (unitsOf_le_iff (roundMag_le z.natAbs 1) hc).2
          (roundMag_le_of_le (n := z.natAbs) (d := 1) (by omega) hc (by omega))
        omega
      · omega
    · simp only [hz, decide_false, Bool.false_eq_true, if_false]
      split at h
      · rename_i hs
        rw [if_pos hs]; omega
      · rename_i hs
        rw [if_neg hs]
        have := (unitsOf_le_iff hc (roundMag_le z.natAbs 1)).2
          (le_roundMag_of_le (n := z.natAbs) (d := 1) (by omega) hc (by omega))
        omega

/-- A representable sum is exact. -/
theorem fInt_fAdd_exact {a b c : F} (ha : fFinite a = true) (hb : fFinite b = true) (hc : fMag c ≤ fInfMag)
    (h : fInt a + fInt b = fInt c) : fInt (fAdd a b) = fInt c :=
  Int.le_antisymm (fInt_fAdd_le ha hb hc (Int.le_of_eq h)) (le_fInt_fAdd ha hb hc (Int.le_of_eq h.symm))

theorem fInt_fSub_le {a b c : F} (ha : fFinite a = true) (hb : fFinite b = true) (hc : fMag c ≤ fInfMag)
    (h : fInt a - fInt b ≤ fInt c) : fInt (fSub a b) ≤ fInt c :=
  fInt_fAdd_le ha (by simpa using hb) hc (by rw [fInt_fNeg]; omega)

theorem le_fInt_fSub {a b c : F} (ha : fFinite a = true) (hb : fFinite b = true) (hc : fMag c ≤ fInfMag)
    (h : fInt c ≤ fInt a - fInt b) : fInt c ≤ fInt (fSub a b) :=
  le_fInt_fAdd ha (by simpa using hb) hc (by rw [fInt_fNeg]; omega)

theorem fInt_fSub_exact {a b c : F} (ha : fFinite a = true) (hb : fFinite b = true) (hc : fMag c ≤ fInfMag)
    (h : fInt a - fInt b = fInt c) : fInt (fSub a b) = fInt c :=
  fInt_fAdd_exact ha (by simpa using hb) hc (by rw [fInt_fNeg]; omega)

theorem fMag_fSub_le {a b : F} (ha : fFinite a = true) (hb : fFinite b = true) : fMag (fSub a b) ≤ fInfMag :=
  fMag_fAdd_le ha (by simpa using hb)

/-! ### Multiplication and division -/

theorem fMul_of_finite {a b : F} (ha : fFinite a = true) (hb : fFinite b = true) :
    fMul a b = fRound (fSign a != fSign b) (unitsOf (fMag a) * unitsOf (fMag b)) fScale := by
  simp [fMul, fIsNaN_of_finite ha, fIsNaN_of_finite hb, fIsInf_of_finite ha, fIsInf_of_finite hb, fUnits_eq]

theorem fScale_pos : 0 < fScale := Nat.two_pow_pos 1074

theorem fMag_fMul_le {a b : F} (ha : fFinite a = true) (hb : fFinite b = true) : fMag (fMul a b) ≤ fInfMag := by
  rw [fMul_of_finite ha hb, fMag_fRound]; exact roundMag_le _ _

theorem fMag_fOne : fMag fOne = 0x3FF0000000000000 := by decide

theorem unitsOf_fOne : unitsOf (fMag fOne) = fScale := by
  rw [fMag_fOne, unitsOf, if_neg (by decide), show 0x3FF0000000000000 % 2 ^ 52 = 0 from rfl,
    show 0x3FF0000000000000 / 2 ^ 52 - 1 = 1022 from rfl, Nat.add_zero, ← Nat.pow_add, fScale]

theorem fOne_mul {a : F} (ha : fFinite a = true) : fMul fOne a = a := by
  rw [fMul_of_finite (by decide) ha, unitsOf_fOne, Nat.mul_comm, fRound_eq,
    roundMag_unitsOf fScale_pos (Nat.le_of_lt (fFinite_iff.1 ha)), show fSign fOne = false by decide]
  cases hs : fSign a <;> (rw [← fEncode_fSign_fMag a, hs]; simp [fMag_fEncode (fMag_lt a)])

/-- A product with a zero factor is a zero. -/
theorem fIsZero_fMul {a b : F} (ha : fFinite a = true) (hb : fFinite b = true)
    (h : fIsZero a = true ∨ fIsZero b = true) : fIsZero (fMul a b) = true := by
  have h0 : roundMag 0 fScale = 0 := by
    have := roundMag_unitsOf (m := 0) fScale_pos (Nat.zero_le _)
    rwa [unitsOf_zero, Nat.zero_mul] at this
  rw [fIsZero_iff, fMul_of_finite ha hb, fMag_fRound]
  rcases h with h | h <;> rw [fIsZero_iff.1 h, unitsOf_zero] <;> simp [h0]

theorem fDiv_of_finite {a b : F} (ha : fFinite a = true) (hb : fFinite b = true) (h0 : fIsZero b = false) :
    fDiv a b = fRound (fSign a != fSign b) (unitsOf (fMag a) * fScale) (unitsOf (fMag b)) := by
  simp [fDiv, fIsNaN_of_finite ha, fIsNaN_of_finite hb, fIsInf_of_finite ha, fIsInf_of_finite hb, h0, fUnits_eq]

theorem unitsOf_pos {a : F} (ha : fFinite a = true) (h0 : fIsZero a = false) : 0 < unitsOf (fMag a) := by
  have h1 : fMag a ≠ 0 := by simpa [fIsZero] using h0
  have := unitsOf_lt (m := 0) (m' := fMag a) (by omega) (Nat.le_of_lt (fFinite_iff.1 ha))
  omega

/-- A quotient of magnitudes `a ≤ b` has magnitude at most 1.0. -/
theorem fMag_fDiv_le_one {a b : F} (ha : fFinite a = true) (hb : fFinite b = true) (h0 : fIsZero b = false)
    (h : fMag a ≤ fMag b) : fMag (fDiv a b) ≤ fMag fOne := by
  rw [fDiv_of_finite ha hb h0, fMag_fRound]
  refine roundMag_le_of_le (unitsOf_pos hb h0) (by decide) ?_
  rw [unitsOf_fOne, Nat.mul_comm]
  exact Nat.mul_le_mul_left _
    ((unitsOf_le_iff (Nat.le_of_lt (fFinite_iff.1 ha)) (Nat.le_of_lt (fFinite_iff.1 hb))).2 h)

/-- A magnitude divided by itself is 1.0. -/
theorem fMag_fDiv_self {a b : F} (ha : fFinite a = true) (hb : fFinite b = true) (h0 : fIsZero b = false)
    (h : fMag a = fMag b) : fMag (fDiv a b) = fMag fOne := by
  rw [fDiv_of_finite ha hb h0, fMag_fRound, h, Nat.mul_comm, ← unitsOf_fOne,
    roundMag_unitsOf (unitsOf_pos hb h0) (by decide)]

/-! ### Infinities and NaNs reach the end of a formula -/

theorem fFinite_of_fAdd {a b : F} (h : fFinite (fAdd a b) = true) : fFinite a = true ∧ fFinite b = true := by
  have nan : fFinite fNaN = false := by decide
  have split3 : ∀ x : F, fIsNaN x = true ∨ fIsInf x = true ∨ fFinite x = true := by
    intro x
    simp only [fIsNaN, fIsInf, fFinite, decide_eq_true_eq, beq_iff_eq]
    omega
  have inf : ∀ x : F, fIsInf x = true → fFinite x = false := by
    intro x hx
    simp only [fIsInf, beq_iff_eq] at hx
    exact fFinite_eq_false.2 (by omega)
  simp only [fAdd] at h
  split at h
  · rw [nan] at h; cases h
  · rename_i hn
    simp only [Bool.or_eq_true, not_or] at hn
    split at h
    · rename_i ha
      split at h
      · rw [nan] at h; cases h
      · rw [inf a ha] at h; cases h
    · rename_i ha
      split at h
      · rename_i hb
        rw [inf b hb] at h; cases h
      · rename_i hb
        exact ⟨((split3 a).resolve_left hn.1).resolve_left ha, ((split3 b).resolve_left hn.2).resolve_left hb⟩

theorem fFinite_of_fSub {a b : F} (h : fFinite (fSub a b) = true) : fFinite a = true ∧ fFinite b = true := by
  simpa using fFinite_of_fAdd h

theorem fFinite_of_fMul {a b : F} (h : fFinite (fMul a b) = true) : fFinite a = true ∧ fFinite b = true := by
  have nan : fFinite fNaN = false := by decide
  have inf : ∀ s, fFinite (fEncode s fInfMag) = false := by decide
  have split3 : ∀ x : F, fIsNaN x = true ∨ fIsInf x = true ∨ fFinite x = true := by
    intro x
    simp only [fIsNaN, fIsInf, fFinite, decide_eq_true_eq, beq_iff_eq]
    omega
  simp only [fMul] at h
  split at h
  · rw [nan] at h; cases h
  · rename_i hn
    simp only [Bool.or_eq_true, not_or] at hn
    split at h
    · split at h
      · rw [nan] at h; cases h
      · rw [inf] at h; cases h
    · rename_i hi
      simp only [Bool.or_eq_true, not_or] at hi
      exact ⟨((split3 a).resolve_left hn.1).resolve_left hi.1, ((split3 b).resolve_left hn.2).resolve_left hi.2⟩

/-! ### Integers -/

theorem two_pow_mul_le (a b c d : Nat) (h : a + b ≤ c + d) : 2 ^ a * 2 ^ b ≤ 2 ^ c * 2 ^ d := by
  rw [← Nat.pow_add, ← Nat.pow_add]; exact Nat.pow_le_pow_right (by omega) h

theorem two_pow_mul_lt (a b c d : Nat) (h : a + b < c + d) : 2 ^ a * 2 ^ b < 2 ^ c * 2 ^ d := by
  rw [← Nat.pow_add, ← Nat.pow_add]; exact Nat.pow_lt_pow_right (by omega) h

/-- `toF` is exact below 2^53. -/
theorem fInt_toF {n : Nat} (h : n ≤ 2 ^ 53) : fInt (toF n) = (n : Int) * fScale := by
  obtain ⟨m, hm, hu⟩ : ∃ m ≤ fInfMag, unitsOf m = n * fScale := by
    refine exists_unitsOf h ?_
    rw [unitsOf_infMag]
    exact Nat.le_trans (Nat.mul_le_mul_right fScale h) (by rw [fScale]; exact two_pow_mul_le 53 1074 52 2046 (by omega))
  rw [toF, fInt_fRound, ← hu]
  have := roundMag_unitsOf (m := m) (d := 1) (by omega) hm
  rw [Nat.mul_one] at this
  rw [this, hu, if_neg (by decide), Int.natCast_mul]

theorem fSign_toF (n : Nat) : fSign (toF n) = false := fSign_fRound _ _ _

theorem fMag_toF_le (n : Nat) : fMag (toF n) ≤ fInfMag := by rw [toF, fMag_fRound]; exact roundMag_le _ _

theorem fFinite_toF {n : Nat} (h : n ≤ 2 ^ 53) : fFinite (toF n) = true := by
  rw [fFinite_iff]
  rcases Nat.lt_or_eq_of_le (fMag_toF_le n) with h1 | h1
  · exact h1
  · exfalso
    have h2 := fInt_toF h
    rw [fInt_eq, fSign_toF, h1, unitsOf_infMag, if_neg (by decide), ← Int.natCast_mul, Int.natCast_inj] at h2
    have h3 : n * fScale < 2 ^ 52 * 2 ^ 2046 :=
      Nat.lt_of_le_of_lt (Nat.mul_le_mul_right fScale h) (by rw [fScale]; exact two_pow_mul_lt 53 1074 52 2046 (by omega))
    exact absurd h2.symm (Nat.ne_of_lt h3)

end Sys2Proof.Machine
end

