-- ==== Sys2Proof/Laws/Memory.lean ====
section
/-! SUPPORT. The laws of the sample memories (20_memory R61, R62): a read after a write, the canonical form that every
memory operation keeps, writes to different cells commute, and what reading and writing a range of cells does. -/

namespace Sys2Proof.Machine

/-! ### One cell -/

@[simp] theorem memRead_memWrite_same (m : Mem) (i : Nat) (v : F) : memRead (memWrite m i v) i = some v := by
  induction m with
  | nil => simp [memWrite, memRead]
  | cons c m ih =>
    obtain ⟨j, w⟩ := c
    simp only [memWrite]
    split
    · simp [memRead]
    · split
      · simp [memRead]
      · simp [memRead, *]

theorem memRead_memWrite_of_ne (m : Mem) {i k : Nat} (v : F) (h : k ≠ i) :
    memRead (memWrite m i v) k = memRead m k := by
  induction m with
  | nil => simp [memWrite, memRead, h]
  | cons c m ih =>
    obtain ⟨j, w⟩ := c
    simp only [memWrite]
    split
    · simp [memRead, h]
    · split
      · subst_vars; simp [memRead, h]
      · simp [memRead, ih]

theorem memRead_memWrite (m : Mem) (i k : Nat) (v : F) :
    memRead (memWrite m i v) k = if k = i then some v else memRead m k := by
  split
  · subst_vars; simp
  · exact memRead_memWrite_of_ne m v ‹_›

theorem memWrite_memWrite_same (m : Mem) (i : Nat) (v w : F) :
    memWrite (memWrite m i v) i w = memWrite m i w := by
  induction m with
  | nil => simp [memWrite]
  | cons c m ih =>
    obtain ⟨j, x⟩ := c
    by_cases h1 : i < j
    · simp [memWrite, h1]
    · by_cases h2 : i = j
      · simp [memWrite, h2]
      · simp [memWrite, h1, h2, ih]

/-- Writes to two cells commute, on every list. -/
theorem memWrite_comm (m : Mem) {i j : Nat} (v w : F) (h : i < j) :
    memWrite (memWrite m i v) j w = memWrite (memWrite m j w) i v := by
  have hji : ¬ j < i := by omega
  have hne : j ≠ i := by omega
  induction m with
  | nil => simp [memWrite, h, hji, hne]
  | cons c m ih =>
    obtain ⟨k, x⟩ := c
    by_cases h1 : i < k
    · by_cases h2 : j < k
      · simp [memWrite, h1, h2, h, hji, hne]
      · by_cases h3 : j = k
        · subst h3; simp [memWrite, h, hji, hne]
        · simp [memWrite, h1, h2, h3, hji, hne]
    · by_cases h4 : i = k
      · subst h4; simp [memWrite, hji, hne]
      · have h2 : ¬ j < k := by omega
        have h3 : j ≠ k := by omega
        simp [memWrite, h1, h2, h3, h4, ih]

/-! ### The canonical form -/

/-- Every cell of a written memory is the written one or one of the memory. -/
theorem mem_memWrite {m : Mem} {i : Nat} {v : F} {c : Nat × F} (h : c ∈ memWrite m i v) :
    c = (i, v) ∨ c ∈ m := by
  induction m with
  | nil => simpa [memWrite] using h
  | cons d m ih =>
    obtain ⟨j, w⟩ := d
    simp only [memWrite] at h
    split at h
    · simpa using h
    · split at h
      · rcases List.mem_cons.1 h with h | h
        · exact .inl h
        · exact .inr (List.mem_cons_of_mem _ h)
      · rcases List.mem_cons.1 h with h | h
        · exact .inr (by simp [h])
        · exact (ih h).imp_right (List.mem_cons_of_mem _)

theorem memWf_memWrite {m : Mem} (i : Nat) (v : F) (h : memWf m) : memWf (memWrite m i v) := by
  induction m with
  | nil => simp [memWf, memWrite]
  | cons c m ih =>
    obtain ⟨j, w⟩ := c
    simp only [memWf, List.map_cons, List.pairwise_cons, List.mem_map] at h
    simp only [memWrite]
    split
    · simp only [memWf, List.map_cons, List.pairwise_cons, List.mem_cons, List.mem_map]
      refine ⟨?_, h.1, h.2⟩
      rintro a (rfl | ha)
      · assumption
      · exact Nat.lt_trans ‹_› (h.1 a ha)
    · split
      · subst_vars
        simpa only [memWf, List.map_cons, List.pairwise_cons, List.mem_map] using h
      · simp only [memWf, List.map_cons, List.pairwise_cons, List.mem_map]
        refine ⟨?_, ih h.2⟩
        rintro a ⟨c, hc, rfl⟩
        rcases mem_memWrite hc with rfl | hc
        · show j < i
          omega
        · exact h.1 _ ⟨c, hc, rfl⟩

theorem memWf_writeCells {m : Mem} (i : Nat) (vs : List F) (h : memWf m) : memWf (writeCells m i vs) := by
  induction vs generalizing m i with
  | nil => exact h
  | cons v vs ih => exact ih (i + 1) (memWf_memWrite i v h)

/-- The memories of a reset machine are in canonical form. -/
theorem memWf_reset (cmd : List Word) :
    memWf (State.resetWith cmd).XMEM ∧ memWf (State.resetWith cmd).YMEM0 ∧ memWf (State.resetWith cmd).YMEM1 :=
  ⟨List.Pairwise.nil, List.Pairwise.nil, List.Pairwise.nil⟩

theorem memOk_nil (size : Nat) : memOk size [] := ⟨by simp [memWf], by simp⟩

theorem memOk_memWrite {size : Nat} {m : Mem} {i : Nat} (v : F) (h : memOk size m) (hi : i < size) :
    memOk size (memWrite m i v) := by
  refine ⟨memWf_memWrite i v h.1, fun c hc => ?_⟩
  rcases mem_memWrite hc with rfl | hc
  · exact hi
  · exact h.2 c hc

theorem memOk_writeCells {size : Nat} {m : Mem} {i : Nat} {vs : List F} (h : memOk size m)
    (hi : i + vs.length ≤ size) : memOk size (writeCells m i vs) := by
  induction vs generalizing m i with
  | nil => exact h
  | cons v vs ih =>
    rw [List.length_cons] at hi
    exact ih (memOk_memWrite v h (by omega)) (by omega)

/-- Every cell of a memory after a range was written holds a written value or is one of the memory. -/
theorem mem_writeCells {m : Mem} {i : Nat} {vs : List F} {c : Nat × F} (h : c ∈ writeCells m i vs) :
    c.2 ∈ vs ∨ c ∈ m := by
  induction vs generalizing m i with
  | nil => exact .inr h
  | cons v vs ih =>
    rcases ih h with h | h
    · exact .inl (List.mem_cons_of_mem _ h)
    · exact (mem_memWrite h).imp (fun h => by simp [h]) id

/-- Equal memories are equal data: two canonical memories that read alike are the same list. -/
theorem memWf_ext {m n : Mem} (hm : memWf m) (hn : memWf n) (h : ∀ i, memRead m i = memRead n i) : m = n := by
  have below : ∀ (l : Mem) (k : Nat), (∀ a ∈ l.map Prod.fst, k < a) → memRead l k = none := by
    intro l k hl
    induction l with
    | nil => rfl
    | cons c l ih =>
      have h1 : k < c.1 := hl _ (by simp)
      simp only [memRead, if_neg (Nat.ne_of_lt h1)]
      exact ih fun a ha => hl a (List.mem_cons_of_mem _ ha)
  induction m generalizing n with
  | nil =>
    cases n with
    | nil => rfl
    | cons c n => simpa [memRead] using h c.1
  | cons c m ih =>
    obtain ⟨i, v⟩ := c
    cases n with
    | nil => simpa [memRead] using h i
    | cons d n =>
      obtain ⟨j, w⟩ := d
      simp only [memWf, List.map_cons, List.pairwise_cons] at hm hn
      have hij : i = j := by
        rcases Nat.lt_trichotomy i j with hlt | heq | hlt
        · have := h i
          rw [below ((j, w) :: n) i fun a ha => by
            rcases List.mem_cons.1 ha with rfl | ha
            · exact hlt
            · exact Nat.lt_trans hlt (hn.1 a ha)] at this
          simp [memRead] at this
        · exact heq
        · have := h j
          rw [below ((i, v) :: m) j fun a ha => by
            rcases List.mem_cons.1 ha with rfl | ha
            · exact hlt
            · exact Nat.lt_trans hlt (hm.1 a ha)] at this
          simp [memRead] at this
      subst hij
      have hvw : v = w := by simpa [memRead] using h i
      subst hvw
      rw [ih hm.2 hn.2 fun k => ?_]
      by_cases hk : k = i
      · subst hk; rw [below m k hm.1, below n k hn.1]
      · simpa [memRead, hk] using h k

/-! ### A range of cells -/

theorem memRead_writeCells (m : Mem) (i : Nat) (vs : List F) (k : Nat) :
    memRead (writeCells m i vs) k = if i ≤ k ∧ k < i + vs.length then vs[k - i]? else memRead m k := by
  induction vs generalizing m i with
  | nil => simp [writeCells]
  | cons v vs ih =>
    rw [writeCells, ih, memRead_memWrite, List.length_cons]
    rcases Nat.lt_trichotomy k i with h | rfl | h
    · rw [if_neg (by omega), if_neg (by omega), if_neg (by omega)]
    · rw [if_neg (by omega), if_pos rfl, if_pos (by omega)]; simp
    · obtain ⟨n, rfl⟩ : ∃ n, k = i + 1 + n := ⟨k - (i + 1), by omega⟩
      by_cases h' : n < vs.length
      · rw [if_pos (by omega), if_pos (by omega), show i + 1 + n - (i + 1) = n by omega,
          show i + 1 + n - i = n + 1 by omega, List.getElem?_cons_succ]
      · rw [if_neg (by omega), if_neg (by omega), if_neg (by omega)]

theorem writeCells_memWrite (m : Mem) {i j : Nat} (v : F) (vs : List F) (h : j < i) :
    memWrite (writeCells m i vs) j v = writeCells (memWrite m j v) i vs := by
  induction vs generalizing m i with
  | nil => rfl
  | cons w vs ih =>
    rw [writeCells, ih _ (by omega), writeCells, memWrite_comm _ _ _ h]

/-- A range written twice holds what was written last, as equal data. -/
theorem writeCells_writeCells (m : Mem) (i : Nat) (vs ws : List F) (h : vs.length = ws.length) :
    writeCells (writeCells m i vs) i ws = writeCells m i ws := by
  induction vs generalizing m i ws with
  | nil => rw [List.eq_nil_of_length_eq_zero h.symm]; rfl
  | cons v vs ih =>
    cases ws with
    | nil => simp at h
    | cons w ws =>
      simp only [writeCells]
      rw [writeCells_memWrite _ _ _ (by omega), memWrite_memWrite_same,
        ih _ _ _ (by simpa using h)]

/-! ### Reading a range -/

/-- A range reads as a list exactly when each of its cells holds that list's value, finite. -/
theorem readCells_eq_ok (m : Mem) (i n : Nat) (vs : List F) :
    readCells m i n = .ok vs ↔
      vs.length = n ∧ ∀ k < n, memRead m (i + k) = vs[k]? ∧ fFinite (vs.getD k fZero) = true := by
  induction n generalizing i vs with
  | zero =>
    simp only [readCells, Except.ok.injEq]
    constructor
    · rintro rfl; simp
    · rintro ⟨h, -⟩; exact (List.eq_nil_of_length_eq_zero h).symm
  | succ n ih =>
    have shift : ∀ (w : F) (ws : List F),
        (∀ k < n + 1, memRead m (i + k) = (w :: ws)[k]? ∧ fFinite ((w :: ws).getD k fZero) = true) ↔
          (memRead m i = some w ∧ fFinite w = true) ∧
            ∀ k < n, memRead m (i + 1 + k) = ws[k]? ∧ fFinite (ws.getD k fZero) = true := by
      intro w ws
      constructor
      · intro h
        refine ⟨by simpa using h 0 (by omega), fun k hk => ?_⟩
        have := h (k + 1) (by omega)
        rw [show i + (k + 1) = i + 1 + k by omega] at this
        simpa using this
      · rintro ⟨h0, h⟩ k hk
        cases k with
        | zero => simpa using h0
        | succ k =>
          rw [show i + (k + 1) = i + 1 + k by omega]
          simpa using h k (by omega)
    rw [readCells]
    cases vs with
    | nil =>
      constructor
      · intro h
        split at h
        · cases h
        · split at h
          · cases hr : readCells m (i + 1) n <;> rw [hr] at h <;> cases h
          · cases h
      · rintro ⟨h, -⟩; cases h
    | cons w ws =>
      rw [shift, List.length_cons, Nat.add_right_cancel_iff]
      cases hv : memRead m i with
      | none => simp [refuse]
      | some v =>
        by_cases hf : fFinite v = true
        · simp only [if_pos hf]
          constructor
          · intro h
            cases hr : readCells m (i + 1) n with
            | error e => rw [hr] at h; cases h
            | ok us =>
              rw [hr] at h
              obtain ⟨rfl, rfl⟩ : v = w ∧ us = ws := by simpa [Except.map] using h
              have := (ih (i + 1) us).1 hr
              exact ⟨this.1, ⟨rfl, hf⟩, this.2⟩
          · rintro ⟨hl, ⟨h1, -⟩, h2⟩
            rw [(ih (i + 1) ws).2 ⟨hl, h2⟩]
            simp only [Option.some.injEq] at h1
            simp [Except.map, h1]
        · simp only [if_neg hf]
          constructor
          · intro h; cases h
          · rintro ⟨-, ⟨h1, h2⟩, -⟩
            simp only [Option.some.injEq] at h1
            exact absurd (h1 ▸ h2) hf

theorem readCells_eq_ok_iff_holds (m : Mem) (n : Nat) (vs : List F) :
    readCells m 0 n = .ok vs ↔ vs.length = n ∧ Holds m vs := by
  rw [readCells_eq_ok]
  simp only [Nat.zero_add, Holds]
  constructor
  · rintro ⟨h, h'⟩; exact ⟨h, by rwa [h]⟩
  · rintro ⟨h, h'⟩; exact ⟨h, by rwa [h] at h'⟩

/-- What stops a range of cells from being read: its first cell that is Unwritten or not finite. -/
theorem readCells_eq_error {m : Mem} {i n k : Nat} {r : Refusal} (hk : k < n)
    (hbefore : ∀ j < k, ∃ x, memRead m (i + j) = some x ∧ fFinite x = true)
    (hat : (memRead m (i + k) = none ∧ r = .unwrittenCell) ∨
      ∃ x, memRead m (i + k) = some x ∧ fFinite x = false ∧ r = .nonFiniteCell) :
    readCells m i n = refuse r := by
  induction k generalizing i n with
  | zero =>
    obtain ⟨n, rfl⟩ : ∃ n', n = n' + 1 := ⟨n - 1, by omega⟩
    rw [Nat.add_zero] at hat
    rcases hat with ⟨h, rfl⟩ | ⟨x, h, hx, rfl⟩
    · simp [readCells, h]
    · simp [readCells, h, hx]
  | succ k ih =>
    obtain ⟨n, rfl⟩ : ∃ n', n = n' + 1 := ⟨n - 1, by omega⟩
    obtain ⟨x, h, hx⟩ := hbefore 0 (by omega)
    rw [Nat.add_zero] at h
    have := ih (i := i + 1) (n := n) (by omega)
      (fun j hj => by have := hbefore (j + 1) (by omega); rwa [show i + (j + 1) = i + 1 + j by omega] at this)
      (by rwa [show i + (k + 1) = i + 1 + k by omega] at hat)
    simp [readCells, h, hx, this, refuse, Except.map]

/-- A range of cells is read as a list, or it is refused: it raises no cause. -/
theorem readCells_cases (m : Mem) (i n : Nat) :
    (∃ vs, readCells m i n = .ok vs) ∨ ∃ r, readCells m i n = refuse r := by
  induction n generalizing i with
  | zero => exact .inl ⟨[], rfl⟩
  | succ n ih =>
    rw [readCells]
    cases memRead m i with
    | none => exact .inr ⟨_, rfl⟩
    | some v =>
      by_cases hf : fFinite v = true
      · rcases ih (i + 1) with ⟨vs, h⟩ | ⟨r, h⟩
        · exact .inl ⟨v :: vs, by simp [h, hf, Except.map]⟩
        · exact .inr ⟨r, by simp [h, hf, refuse, Except.map]⟩
      · exact .inr ⟨.nonFiniteCell, by simp only [if_neg hf]⟩

theorem holds_writeCells (m : Mem) (vs : List F) (h : ∀ v ∈ vs, fFinite v = true) :
    Holds (writeCells m 0 vs) vs := by
  intro k hk
  rw [memRead_writeCells, if_pos ⟨Nat.zero_le _, by omega⟩, Nat.sub_zero]
  refine ⟨rfl, ?_⟩
  rw [List.getD_eq_getElem?_getD, List.getElem?_eq_getElem hk]
  exact h _ (List.getElem_mem hk)

end Sys2Proof.Machine
end

