-- ==== Sys2Proof/Laws/State.lean ====
section
/-! SUPPORT. One lemma per field per update of the state, so that no later proof unfolds a record update. -/

namespace Sys2Proof.Machine

/-! ### `advance` -/

@[simp] theorem advance_pc (n : Nat) (s : State) : (advance n s).pc = s.pc + 1 + n := rfl
@[simp] theorem advance_RES (n : Nat) (s : State) : (advance n s).RES = s.RES := rfl
@[simp] theorem advance_STATUS (n : Nat) (s : State) : (advance n s).STATUS = s.STATUS := rfl
@[simp] theorem advance_FCI (n : Nat) (s : State) : (advance n s).FCI = s.FCI := rfl
@[simp] theorem advance_U (n : Nat) (s : State) : (advance n s).U = s.U := rfl
@[simp] theorem advance_XMEM (n : Nat) (s : State) : (advance n s).XMEM = s.XMEM := rfl
@[simp] theorem advance_YMEM0 (n : Nat) (s : State) : (advance n s).YMEM0 = s.YMEM0 := rfl
@[simp] theorem advance_YMEM1 (n : Nat) (s : State) : (advance n s).YMEM1 = s.YMEM1 := rfl
@[simp] theorem advance_CMD (n : Nat) (s : State) : (advance n s).CMD = s.CMD := rfl
@[simp] theorem advance_params (n : Nat) (s : State) : (advance n s).params = s.params := rfl

/-! ### `faultEntry` -/

@[simp] theorem faultEntry_pc (c : Cause) (s : State) : (faultEntry c s).pc = s.pc := rfl
@[simp] theorem faultEntry_RES (c : Cause) (s : State) : (faultEntry c s).RES = s.RES := rfl
@[simp] theorem faultEntry_STATUS (c : Cause) (s : State) : (faultEntry c s).STATUS = withFault c s.STATUS := rfl
@[simp] theorem faultEntry_FCI (c : Cause) (s : State) : (faultEntry c s).FCI = s.pc := rfl
@[simp] theorem faultEntry_U (c : Cause) (s : State) : (faultEntry c s).U = s.U := rfl
@[simp] theorem faultEntry_XMEM (c : Cause) (s : State) : (faultEntry c s).XMEM = s.XMEM := rfl
@[simp] theorem faultEntry_YMEM0 (c : Cause) (s : State) : (faultEntry c s).YMEM0 = s.YMEM0 := rfl
@[simp] theorem faultEntry_YMEM1 (c : Cause) (s : State) : (faultEntry c s).YMEM1 = s.YMEM1 := rfl
@[simp] theorem faultEntry_CMD (c : Cause) (s : State) : (faultEntry c s).CMD = s.CMD := rfl
@[simp] theorem faultEntry_params (c : Cause) (s : State) : (faultEntry c s).params = s.params := rfl

/-! ### `writeRes0` -/

@[simp] theorem writeRes0_pc (v : F) (s : State) : (writeRes0 v s).pc = s.pc := rfl
@[simp] theorem writeRes0_RES (v : F) (s : State) : (writeRes0 v s).RES = { s.RES with r0 := v } := rfl
@[simp] theorem writeRes0_STATUS (v : F) (s : State) : (writeRes0 v s).STATUS = s.STATUS := rfl
@[simp] theorem writeRes0_FCI (v : F) (s : State) : (writeRes0 v s).FCI = s.FCI := rfl
@[simp] theorem writeRes0_U (v : F) (s : State) : (writeRes0 v s).U = s.U := rfl
@[simp] theorem writeRes0_XMEM (v : F) (s : State) : (writeRes0 v s).XMEM = s.XMEM := rfl
@[simp] theorem writeRes0_YMEM0 (v : F) (s : State) : (writeRes0 v s).YMEM0 = s.YMEM0 := rfl
@[simp] theorem writeRes0_YMEM1 (v : F) (s : State) : (writeRes0 v s).YMEM1 = s.YMEM1 := rfl
@[simp] theorem writeRes0_CMD (v : F) (s : State) : (writeRes0 v s).CMD = s.CMD := rfl
@[simp] theorem writeRes0_params (v : F) (s : State) : (writeRes0 v s).params = s.params := rfl

/-! ### `writeRes` -/

@[simp] theorem writeRes_pc (a b c d : F) (s : State) : (writeRes a b c d s).pc = s.pc := rfl
@[simp] theorem writeRes_RES (a b c d : F) (s : State) : (writeRes a b c d s).RES = ⟨a, b, c, d⟩ := rfl
@[simp] theorem writeRes_STATUS (a b c d : F) (s : State) : (writeRes a b c d s).STATUS = s.STATUS := rfl
@[simp] theorem writeRes_FCI (a b c d : F) (s : State) : (writeRes a b c d s).FCI = s.FCI := rfl
@[simp] theorem writeRes_U (a b c d : F) (s : State) : (writeRes a b c d s).U = s.U := rfl
@[simp] theorem writeRes_XMEM (a b c d : F) (s : State) : (writeRes a b c d s).XMEM = s.XMEM := rfl
@[simp] theorem writeRes_YMEM0 (a b c d : F) (s : State) : (writeRes a b c d s).YMEM0 = s.YMEM0 := rfl
@[simp] theorem writeRes_YMEM1 (a b c d : F) (s : State) : (writeRes a b c d s).YMEM1 = s.YMEM1 := rfl
@[simp] theorem writeRes_CMD (a b c d : F) (s : State) : (writeRes a b c d s).CMD = s.CMD := rfl
@[simp] theorem writeRes_params (a b c d : F) (s : State) : (writeRes a b c d s).params = s.params := rfl

/-! ### `setSlot` -/

@[simp] theorem setSlot_pc (u : Byte) (x : Slot) (s : State) : (setSlot u x s).pc = s.pc := rfl
@[simp] theorem setSlot_RES (u : Byte) (x : Slot) (s : State) : (setSlot u x s).RES = s.RES := rfl
@[simp] theorem setSlot_STATUS (u : Byte) (x : Slot) (s : State) : (setSlot u x s).STATUS = s.STATUS := rfl
@[simp] theorem setSlot_FCI (u : Byte) (x : Slot) (s : State) : (setSlot u x s).FCI = s.FCI := rfl
@[simp] theorem setSlot_U (u : Byte) (x : Slot) (s : State) : (setSlot u x s).U = s.U.set u.toNat x := rfl
@[simp] theorem setSlot_XMEM (u : Byte) (x : Slot) (s : State) : (setSlot u x s).XMEM = s.XMEM := rfl
@[simp] theorem setSlot_YMEM0 (u : Byte) (x : Slot) (s : State) : (setSlot u x s).YMEM0 = s.YMEM0 := rfl
@[simp] theorem setSlot_YMEM1 (u : Byte) (x : Slot) (s : State) : (setSlot u x s).YMEM1 = s.YMEM1 := rfl
@[simp] theorem setSlot_CMD (u : Byte) (x : Slot) (s : State) : (setSlot u x s).CMD = s.CMD := rfl
@[simp] theorem setSlot_params (u : Byte) (x : Slot) (s : State) : (setSlot u x s).params = s.params := rfl

/-! ### `setDelay` -/

@[simp] theorem setDelay_pc (u : Byte) (d : DLState) (s : State) : (setDelay u d s).pc = s.pc := rfl
@[simp] theorem setDelay_RES (u : Byte) (d : DLState) (s : State) : (setDelay u d s).RES = s.RES := rfl
@[simp] theorem setDelay_STATUS (u : Byte) (d : DLState) (s : State) : (setDelay u d s).STATUS = s.STATUS := rfl
@[simp] theorem setDelay_FCI (u : Byte) (d : DLState) (s : State) : (setDelay u d s).FCI = s.FCI := rfl
@[simp] theorem setDelay_U (u : Byte) (d : DLState) (s : State) : (setDelay u d s).U = s.U.modify u.toNat (withDelay d) := rfl
@[simp] theorem setDelay_XMEM (u : Byte) (d : DLState) (s : State) : (setDelay u d s).XMEM = s.XMEM := rfl
@[simp] theorem setDelay_YMEM0 (u : Byte) (d : DLState) (s : State) : (setDelay u d s).YMEM0 = s.YMEM0 := rfl
@[simp] theorem setDelay_YMEM1 (u : Byte) (d : DLState) (s : State) : (setDelay u d s).YMEM1 = s.YMEM1 := rfl
@[simp] theorem setDelay_CMD (u : Byte) (d : DLState) (s : State) : (setDelay u d s).CMD = s.CMD := rfl
@[simp] theorem setDelay_params (u : Byte) (d : DLState) (s : State) : (setDelay u d s).params = s.params := rfl

/-! ### `setNormed` -/

@[simp] theorem setNormed_pc (c : Col) (b : Bool) (s : State) : (setNormed c b s).pc = s.pc := rfl
@[simp] theorem setNormed_RES (c : Col) (b : Bool) (s : State) : (setNormed c b s).RES = s.RES := rfl
@[simp] theorem setNormed_STATUS (c : Col) (b : Bool) (s : State) : (setNormed c b s).STATUS = withNormed c b s.STATUS := rfl
@[simp] theorem setNormed_FCI (c : Col) (b : Bool) (s : State) : (setNormed c b s).FCI = s.FCI := rfl
@[simp] theorem setNormed_U (c : Col) (b : Bool) (s : State) : (setNormed c b s).U = s.U := rfl
@[simp] theorem setNormed_XMEM (c : Col) (b : Bool) (s : State) : (setNormed c b s).XMEM = s.XMEM := rfl
@[simp] theorem setNormed_YMEM0 (c : Col) (b : Bool) (s : State) : (setNormed c b s).YMEM0 = s.YMEM0 := rfl
@[simp] theorem setNormed_YMEM1 (c : Col) (b : Bool) (s : State) : (setNormed c b s).YMEM1 = s.YMEM1 := rfl
@[simp] theorem setNormed_CMD (c : Col) (b : Bool) (s : State) : (setNormed c b s).CMD = s.CMD := rfl
@[simp] theorem setNormed_params (c : Col) (b : Bool) (s : State) : (setNormed c b s).params = s.params := rfl

/-! ### `setColumn` -/

@[simp] theorem setColumn_pc (c : Col) (m : Mem) (s : State) : (setColumn c m s).pc = s.pc := by cases c <;> rfl
@[simp] theorem setColumn_RES (c : Col) (m : Mem) (s : State) : (setColumn c m s).RES = s.RES := by cases c <;> rfl
@[simp] theorem setColumn_STATUS (c : Col) (m : Mem) (s : State) : (setColumn c m s).STATUS = s.STATUS := by cases c <;> rfl
@[simp] theorem setColumn_FCI (c : Col) (m : Mem) (s : State) : (setColumn c m s).FCI = s.FCI := by cases c <;> rfl
@[simp] theorem setColumn_U (c : Col) (m : Mem) (s : State) : (setColumn c m s).U = s.U := by cases c <;> rfl
@[simp] theorem setColumn_XMEM (c : Col) (m : Mem) (s : State) : (setColumn c m s).XMEM = s.XMEM := by cases c <;> rfl
@[simp] theorem setColumn_CMD (c : Col) (m : Mem) (s : State) : (setColumn c m s).CMD = s.CMD := by cases c <;> rfl
@[simp] theorem setColumn_params (c : Col) (m : Mem) (s : State) : (setColumn c m s).params = s.params := by cases c <;> rfl
@[simp] theorem setColumn_c0_YMEM0 (m : Mem) (s : State) : (setColumn .c0 m s).YMEM0 = m := rfl
@[simp] theorem setColumn_c0_YMEM1 (m : Mem) (s : State) : (setColumn .c0 m s).YMEM1 = s.YMEM1 := rfl
@[simp] theorem setColumn_c1_YMEM0 (m : Mem) (s : State) : (setColumn .c1 m s).YMEM0 = s.YMEM0 := rfl
@[simp] theorem setColumn_c1_YMEM1 (m : Mem) (s : State) : (setColumn .c1 m s).YMEM1 = m := rfl

@[simp] theorem column_setColumn (c : Col) (m : Mem) (s : State) : column c (setColumn c m s) = m := by cases c <;> rfl

theorem column_setColumn_of_ne {c c' : Col} (h : c ≠ c') (m : Mem) (s : State) :
    column c (setColumn c' m s) = column c s := by cases c <;> cases c' <;> first | rfl | exact absurd rfl h

/-! ### `column` of the other updates -/

@[simp] theorem column_advance (c : Col) (n : Nat) (s : State) : column c (advance n s) = column c s := by cases c <;> rfl
@[simp] theorem column_faultEntry (c : Col) (e : Cause) (s : State) : column c (faultEntry e s) = column c s := by cases c <;> rfl
@[simp] theorem column_writeRes0 (c : Col) (v : F) (s : State) : column c (writeRes0 v s) = column c s := by cases c <;> rfl
@[simp] theorem column_writeRes (c : Col) (a b p q : F) (s : State) : column c (writeRes a b p q s) = column c s := by cases c <;> rfl
@[simp] theorem column_setSlot (c : Col) (u : Byte) (x : Slot) (s : State) : column c (setSlot u x s) = column c s := by cases c <;> rfl
@[simp] theorem column_setDelay (c : Col) (u : Byte) (d : DLState) (s : State) : column c (setDelay u d s) = column c s := by cases c <;> rfl
@[simp] theorem column_setNormed (c : Col) (c' : Col) (b : Bool) (s : State) : column c (setNormed c' b s) = column c s := by cases c <;> rfl

/-! ### STATUS -/

@[simp] theorem statusFault_withNormed (c : Col) (b : Bool) (st : BitVec 32) :
    statusFault (withNormed c b st) = statusFault st := by
  cases c <;> cases b <;> simp [statusFault, withNormed, normedMask]

@[simp] theorem statusNormed_withNormed (c : Col) (b : Bool) (st : BitVec 32) :
    statusNormed c (withNormed c b st) = b := by
  cases c <;> cases b <;> simp [statusNormed, withNormed, normedMask]

theorem statusNormed_withNormed_of_ne {c c' : Col} (h : c ≠ c') (b : Bool) (st : BitVec 32) :
    statusNormed c (withNormed c' b st) = statusNormed c st := by
  cases c <;> cases c' <;> cases b <;> first | exact absurd rfl h | simp [statusNormed, withNormed, normedMask]

theorem or_and_of_and_eq_zero (a b c : BitVec 32) (h : b &&& c = 0) : (a ||| b) &&& c = a &&& c := by
  rw [BitVec.and_or_distrib_right, h, show (0 : BitVec 32) = 0#32 from rfl, BitVec.or_zero]

theorem and_and_of_and_eq (a b c : BitVec 32) (h : b &&& c = c) : (a &&& b) &&& c = a &&& c := by
  rw [BitVec.and_assoc, h]

@[simp] theorem statusCause_withNormed (c : Col) (b : Bool) (st : BitVec 32) :
    statusCause (withNormed c b st) = statusCause st := by
  cases c <;> cases b <;> simp [statusCause, withNormed, normedMask, BitVec.extractLsb'_or, BitVec.extractLsb'_and] <;>
    exact BitVec.and_allOnes

@[simp] theorem statusReserved_withNormed (c : Col) (b : Bool) (st : BitVec 32) :
    statusReserved (withNormed c b st) = statusReserved st := by
  cases c <;> cases b <;>
    first | exact or_and_of_and_eq_zero _ _ _ (by decide) | exact and_and_of_and_eq _ _ _ (by decide)

@[simp] theorem statusFault_withFault (c : Cause) (st : BitVec 32) : statusFault (withFault c st) = true := by
  simp [statusFault, withFault]

@[simp] theorem statusNormed_withFault (c : Col) (e : Cause) (st : BitVec 32) :
    statusNormed c (withFault e st) = statusNormed c st := by
  cases c <;> cases e <;> simp [statusNormed, withFault, causeCode]

@[simp] theorem statusCause_withFault (e : Cause) (st : BitVec 32) : statusCause (withFault e st) = causeCode e := by
  cases e <;> simp [statusCause, withFault, causeCode, BitVec.extractLsb'_or, BitVec.extractLsb'_and]

@[simp] theorem statusReserved_withFault (e : Cause) (st : BitVec 32) :
    statusReserved (withFault e st) = statusReserved st := by
  cases e <;> exact (or_and_of_and_eq_zero _ _ _ (by decide)).trans
    ((or_and_of_and_eq_zero _ _ _ (by decide)).trans (and_and_of_and_eq _ _ _ (by decide)))

end Sys2Proof.Machine
end

