-- ==== Sys2Proof/Laws/Run.lean ====
section
/-! SUPPORT. What each operation of the command bodies can answer, one lemma for each: the sequencing of tests, how a
command ends, the tests on operands and slots, the steps of a block and the normalisation. -/

namespace Sys2Proof.Machine

/-! ### Sequencing -/

/-- A sequence succeeds exactly when its parts do. -/
theorem bind_eq_ok {α β : Type} {x : Run α} {f : α → Run β} {b : β} :
    (x >>= f) = .ok b ↔ ∃ a, x = .ok a ∧ f a = .ok b := by
  cases x <;> simp [bind, Except.bind]

/-- A sequence stops where its first part stops, or where the rest does. -/
theorem bind_eq_error {α β : Type} {x : Run α} {f : α → Run β} {e : Stop} :
    (x >>= f) = .error e ↔ x = .error e ∨ ∃ a, x = .ok a ∧ f a = .error e := by
  cases x <;> simp [bind, Except.bind]

@[simp] theorem ok_bind {α β : Type} (a : α) (f : α → Run β) : ((.ok a : Run α) >>= f) = f a := rfl
@[simp] theorem error_bind {α β : Type} (e : Stop) (f : α → Run β) : ((.error e : Run α) >>= f) = .error e := rfl
@[simp] theorem raise_bind {α β : Type} (c : Cause) (f : α → Run β) : ((raise c : Run α) >>= f) = raise c := rfl
@[simp] theorem refuse_bind {α β : Type} (r : Refusal) (f : α → Run β) : ((refuse r : Run α) >>= f) = refuse r := rfl
@[simp] theorem pure_eq_ok {α : Type} (a : α) : (pure a : Run α) = .ok a := rfl

@[simp] theorem raise_ne_ok {α : Type} (c : Cause) (a : α) : (raise c : Run α) ≠ .ok a := fun h => by cases h
@[simp] theorem refuse_ne_ok {α : Type} (r : Refusal) (a : α) : (refuse r : Run α) ≠ .ok a := fun h => by cases h
@[simp] theorem refuse_ne_raise {α : Type} (r : Refusal) (c : Cause) : (refuse r : Run α) ≠ raise c :=
  fun h => by cases h

@[simp] theorem raise_inj {α : Type} {c d : Cause} : (raise c : Run α) = raise d ↔ c = d := by simp [raise]
@[simp] theorem refuse_inj {α : Type} {c d : Refusal} : (refuse c : Run α) = refuse d ↔ c = d := by simp [refuse]

/-! ### How a command ends (60_exceptions R310) -/

@[simp] theorem finish_ok (n : Nat) (s t : State) : finish n s (.ok t) = .next (advance n t) := rfl
@[simp] theorem finish_raise (n : Nat) (s : State) (c : Cause) : finish n s (raise c) = .next (faultEntry c s) := rfl
@[simp] theorem finish_refuse (n : Nat) (s : State) (r : Refusal) : finish n s (refuse r) = .refused r := rfl

/-- A command answers a next state in two ways: its body succeeded, or it raised a cause. -/
theorem finish_eq_next {n : Nat} {s t : State} {r : Run State} :
    finish n s r = .next t ↔
      (∃ t', r = .ok t' ∧ t = advance n t') ∨ ∃ c, r = raise c ∧ t = faultEntry c s := by
  rcases r with (c | r) | t' <;> simp [finish, raise, eq_comm]

theorem finish_eq_refused {n : Nat} {s : State} {r : Run State} {f : Refusal} :
    finish n s r = .refused f ↔ r = refuse f := by
  rcases r with (c | r) | t' <;> simp [finish, refuse]

theorem finish_ne_fault {n : Nat} {s : State} {r : Run State} {f : Fault} : finish n s r ≠ .fault f := by
  rcases r with (c | r) | t' <;> simp [finish]

/-- Completion and fault entry are told apart: only the second sets FAULT and writes the cause. -/
theorem faultEntry_inj {c d : Cause} {s : State} : faultEntry c s = faultEntry d s ↔ c = d := by
  refine ⟨fun h => ?_, fun h => h ▸ rfl⟩
  have := congrArg (fun t => statusCause t.STATUS) h
  simp only [faultEntry_STATUS, statusCause_withFault] at this
  cases c <;> cases d <;> first | rfl | exact absurd this (by decide)

/-! ### Tests -/

theorem checked_eq_ok {v w : F} : checked v = .ok w ↔ fFinite v = true ∧ w = v := by
  simp only [checked]
  by_cases h : fFinite v = true
  · rw [if_pos h]; simp [h, eq_comm]
  · rw [if_neg h]; simp [h]

theorem checked_bind_eq_ok {β : Type} {v : F} {f : F → Run β} {b : β} :
    (checked v >>= f) = .ok b ↔ fFinite v = true ∧ f v = .ok b := by
  simp only [checked]
  by_cases h : fFinite v = true
  · rw [if_pos h]; simp [h]
  · rw [if_neg h]; simp [h]

theorem checked_of_finite {v : F} (h : fFinite v = true) : checked v = .ok v := if_pos h

theorem checked_cases (v : F) : checked v = .ok v ∨ checked v = refuse .nonFiniteResult := by
  simp only [checked]; split <;> simp

theorem finiteOperands_eq_ok {vs : List F} {x : Unit} :
    finiteOperands vs = .ok x ↔ ∀ v ∈ vs, fFinite v = true := by
  simp only [finiteOperands]; split <;> simp_all

theorem finiteOperands_of_finite {vs : List F} (h : vs.all fFinite = true) : finiteOperands vs = .ok () := if_pos h

theorem finiteOperands_of_not {vs : List F} (h : vs.all fFinite = false) :
    finiteOperands vs = refuse .nonFiniteOperand := if_neg (by simp [h])

theorem narrowOperand_eq_ok {n : Word} {x : Unit} : narrowOperand n = .ok x ↔ n.toNat < 2 ^ 53 := by
  simp only [narrowOperand]; split <;> simp_all

theorem narrowOperand_of_lt {n : Word} (h : n.toNat < 2 ^ 53) : narrowOperand n = .ok () := if_pos h

theorem narrowOperand_of_le {n : Word} (h : 2 ^ 53 ≤ n.toNat) : narrowOperand n = refuse .wideOperand :=
  if_neg (by omega)

theorem goodRate_of_pos {fs : Word} (h : 0 < fs.toNat) : goodRate fs = .ok () :=
  if_neg fun h' => by subst h'; simp at h

@[simp] theorem goodRate_zero : goodRate 0 = raise .badRate := rfl

theorem goodRate_cases (fs : Word) : goodRate fs = .ok () ∨ goodRate fs = raise .badRate := by
  simp only [goodRate]; split <;> simp

theorem cfgSlot_of_lt {u : Byte} {s : State} (h : u.toNat < s.U.length) : cfgSlot u s = .ok () := if_pos h

theorem cfgSlot_of_le {u : Byte} {s : State} (h : s.U.length ≤ u.toNat) : cfgSlot u s = raise .slot :=
  if_neg (by omega)

theorem cfgSlot_cases (u : Byte) (s : State) : cfgSlot u s = .ok () ∨ cfgSlot u s = raise .slot := by
  simp only [cfgSlot]; split <;> simp

/-- A slot is seen as an instance exactly when it is in range and of an accepted kind; anything else is E_SLOT. -/
theorem slotAs_eq_ok {α : Type} {view : Slot → Option α} {u : Byte} {s : State} {a : α} :
    slotAs view u s = .ok a ↔ ∃ x, s.U[u.toNat]? = some x ∧ view x = some a := by
  simp only [slotAs]
  cases s.U[u.toNat]? with
  | none => simp
  | some x => cases h : view x <;> simp [h]

theorem slotAs_of_view {α : Type} {view : Slot → Option α} {u : Byte} {s : State} {a : α} {x : Slot}
    (hx : s.U[u.toNat]? = some x) (ha : view x = some a) : slotAs view u s = .ok a :=
  slotAs_eq_ok.2 ⟨x, hx, ha⟩

theorem slotAs_cases {α : Type} (view : Slot → Option α) (u : Byte) (s : State) :
    (∃ a, slotAs view u s = .ok a) ∨ slotAs view u s = raise .slot := by
  simp only [slotAs]
  cases s.U[u.toNat]? with
  | none => simp
  | some x => cases h : view x <;> simp [h]

/-- `MsToSamples` (40_delay_line R122): its quotient in `[1, CAP_MAX]`, truncated. -/
theorem msToSamples_of_range {capMax : Nat} {ms : F} {fs : Word} (h1 : fLt (msQuotient ms fs) fOne = false)
    (h2 : fLt (toF capMax) (msQuotient ms fs) = false) :
    msToSamples capMax ms fs = .ok (fTrunc (msQuotient ms fs)).toNat := by
  simp [msToSamples, h1, h2]

theorem msToSamples_of_lt {capMax : Nat} {ms : F} {fs : Word} (h1 : fLt (msQuotient ms fs) fOne = true) :
    msToSamples capMax ms fs = raise .zeroDelay := by simp [msToSamples, h1]

theorem msToSamples_of_gt {capMax : Nat} {ms : F} {fs : Word} (h1 : fLt (msQuotient ms fs) fOne = false)
    (h2 : fLt (toF capMax) (msQuotient ms fs) = true) : msToSamples capMax ms fs = raise .capacity := by
  simp [msToSamples, h1, h2]

theorem msToSamples_cases (capMax : Nat) (ms : F) (fs : Word) :
    (∃ L, msToSamples capMax ms fs = .ok L) ∨ msToSamples capMax ms fs = raise .zeroDelay ∨
      msToSamples capMax ms fs = raise .capacity := by
  simp only [msToSamples]; split
  · simp
  · split <;> simp

theorem blockLen_of_le {len : Nat} {s : State} (hx : len ≤ s.params.xlen) (hy : len ≤ s.params.ylen) :
    blockLen len s = .ok () := if_neg (by simp; omega)

theorem blockLen_of_gt {len : Nat} {s : State} (h : s.params.xlen < len ∨ s.params.ylen < len) :
    blockLen len s = raise .capacity := if_pos (by simpa using h)

theorem blockLen_cases (len : Nat) (s : State) : blockLen len s = .ok () ∨ blockLen len s = raise .capacity := by
  simp only [blockLen]; split <;> simp

/-! ### The steps of a block -/

/-- A block gives one output for each input. -/
theorem stepAll_length {α : Type} {f : α → F → Run (F × α)} {a a' : α} {xs ys : List F}
    (h : stepAll f a xs = .ok (ys, a')) : ys.length = xs.length := by
  induction xs generalizing a ys a' with
  | nil => simp [stepAll] at h; simp [h.1]
  | cons x xs ih =>
    simp only [stepAll, bind_eq_ok, Prod.exists] at h
    obtain ⟨y, b, -, zs, c, h, h'⟩ := h
    cases h'
    simp [ih h]

/-- A block cut in two is the two blocks one after the other. -/
theorem stepAll_append {α : Type} {f : α → F → Run (F × α)} {a a' : α} {xs xs' zs : List F} :
    stepAll f a (xs ++ xs') = .ok (zs, a') ↔
      ∃ ys ys' b, stepAll f a xs = .ok (ys, b) ∧ stepAll f b xs' = .ok (ys', a') ∧ zs = ys ++ ys' := by
  induction xs generalizing a a' zs with
  | nil =>
    simp only [stepAll, List.nil_append, Except.ok.injEq, Prod.mk.injEq]
    constructor
    · exact fun h => ⟨[], zs, a, ⟨rfl, rfl⟩, h, rfl⟩
    · rintro ⟨ys, ys', b, ⟨rfl, rfl⟩, h, rfl⟩; exact h
  | cons x xs ih =>
    simp only [stepAll, List.cons_append, bind_eq_ok, Prod.exists, ih, pure_eq_ok, Except.ok.injEq, Prod.mk.injEq]
    constructor
    · rintro ⟨y, b, h, us, c, ⟨ys, ys', d, h1, h2, rfl⟩, rfl, rfl⟩
      exact ⟨y :: ys, ys', d, ⟨y, b, h, ys, d, h1, rfl, rfl⟩, h2, rfl⟩
    · rintro ⟨us, ys', d, ⟨y, b, h, ys, e, h1, rfl, rfl⟩, h2, rfl⟩
      exact ⟨y, b, h, ys ++ ys', _, ⟨ys, ys', _, h1, h2, rfl⟩, rfl, rfl⟩

/-- A step that can only be refused makes a block that can only be refused. -/
theorem stepAll_ne_raise {α : Type} {f : α → F → Run (F × α)} (hf : ∀ a x c, f a x ≠ raise c) (a : α)
    (xs : List F) (c : Cause) : stepAll f a xs ≠ raise c := by
  induction xs generalizing a with
  | nil => exact fun h => by cases h
  | cons x xs ih =>
    intro h
    simp only [stepAll, raise, bind_eq_error] at h
    rcases h with h | ⟨⟨y, b⟩, -, h | ⟨⟨ys, d⟩, -, h⟩⟩
    · exact hf _ _ _ h
    · exact ih _ h
    · cases h

/-- What holds before a step and is kept by it holds after the block, and what each step gives of its output holds of
every output. -/
theorem stepAll_induct {α : Type} {f : α → F → Run (F × α)} (P : α → Prop) (Q : F → Prop)
    (hf : ∀ a x y b, P a → f a x = .ok (y, b) → Q y ∧ P b) {a a' : α} {xs ys : List F} (ha : P a)
    (h : stepAll f a xs = .ok (ys, a')) : (∀ y ∈ ys, Q y) ∧ P a' := by
  induction xs generalizing a ys a' with
  | nil => simp [stepAll] at h; obtain ⟨rfl, rfl⟩ := h; exact ⟨by simp, ha⟩
  | cons x xs ih =>
    simp only [stepAll, bind_eq_ok, Prod.exists] at h
    obtain ⟨y, b, h1, zs, c, h2, h3⟩ := h
    cases h3
    obtain ⟨hy, hb⟩ := hf _ _ _ _ ha h1
    obtain ⟨hz, hc⟩ := ih hb h2
    exact ⟨by simpa using ⟨hy, hz⟩, hc⟩

/-! ### Normalisation (48_normalise R291) -/

/-- Everything `Normalise` can answer: the range was readable, and the column and NORMEDc are written; or it is
refused. -/
theorem normalise_eq_ok {c : Col} {len : Nat} {s t : State} :
    normalise c len s = .ok t ↔ ∃ vs, vs.length = len ∧ Holds (column c s) vs ∧
      t = if fLt fOne (peakOf vs) then
            setNormed c true (setColumn c (writeCells (column c s) 0 (normalised vs)) s)
          else setNormed c false s := by
  simp only [normalise, bind_eq_ok, readCells_eq_ok_iff_holds, and_assoc]
  refine exists_congr fun vs => and_congr_right fun _ => and_congr_right fun _ => ?_
  by_cases h : fLt fOne (peakOf vs) = true <;> simp [h, normalised, eq_comm]

theorem normalise_of_holds {c : Col} {len : Nat} {s : State} {vs : List F} (hl : vs.length = len)
    (h : Holds (column c s) vs) : normalise c len s =
      .ok (if fLt fOne (peakOf vs) then
            setNormed c true (setColumn c (writeCells (column c s) 0 (normalised vs)) s)
          else setNormed c false s) :=
  normalise_eq_ok.2 ⟨vs, hl, h, rfl⟩

theorem normalise_ne_raise (c : Col) (len : Nat) (s : State) (e : Cause) : normalise c len s ≠ raise e := by
  intro h
  rcases readCells_cases (column c s) 0 len with ⟨vs, hr⟩ | ⟨r, hr⟩
  · simp only [normalise, hr, ok_bind] at h
    split at h <;> cases h
  · simp only [normalise, hr, refuse_bind, refuse_ne_raise] at h

theorem normalised_length (vs : List F) : (normalised vs).length = vs.length := by
  simp only [normalised]; split <;> simp

/-- A channel whose samples all go through and are finite: the column holds the normalised outputs, NORMEDc says
whether they were divided, the slot the last instance (20_memory R74). -/
theorem channel_of_stepAll {α : Type} {wrap : α → Slot} {f : α → F → Run (F × α)} {u : Byte} {a a' : α} {c : Col}
    {xs ys : List F} {s : State} (h : stepAll f a xs = .ok (ys, a')) (hy : ∀ y ∈ ys, fFinite y = true) :
    channel wrap f u a c xs s =
      .ok (setNormed c (fLt fOne (peakOf ys))
        (setColumn c (writeCells (column c s) 0 (normalised ys)) (setSlot u (wrap a') s))) := by
  simp only [channel, h, ok_bind]
  rw [normalise_of_holds (stepAll_length h) (by rw [column_setColumn]; exact holds_writeCells _ _ hy)]
  cases hp : fLt fOne (peakOf ys)
  · simp [normalised, hp]
  · simp only [column_setColumn, if_true]
    rw [writeCells_writeCells _ _ _ _ (normalised_length ys).symm]
    cases c <;> rfl

/-- Everything a channel can answer when it succeeds. -/
theorem channel_eq_ok {α : Type} {wrap : α → Slot} {f : α → F → Run (F × α)} {u : Byte} {a : α} {c : Col}
    {xs : List F} {s t : State} (h : channel wrap f u a c xs s = .ok t) :
    ∃ ys a', stepAll f a xs = .ok (ys, a') ∧ (∀ y ∈ ys, fFinite y = true) ∧
      t = setNormed c (fLt fOne (peakOf ys))
        (setColumn c (writeCells (column c s) 0 (normalised ys)) (setSlot u (wrap a') s)) := by
  have h' := h
  simp only [channel, bind_eq_ok, Prod.exists] at h
  obtain ⟨ys, a', hs, h⟩ := h
  obtain ⟨vs, hl, hv, -⟩ := normalise_eq_ok.1 h
  have hys : ∀ y ∈ ys, fFinite y = true := by
    intro y hy
    obtain ⟨k, hk, rfl⟩ := List.getElem_of_mem hy
    have hkv : k < vs.length := by rw [hl, ← stepAll_length hs]; exact hk
    obtain ⟨h1, h2⟩ := hv k hkv
    rw [column_setColumn, memRead_writeCells, if_pos ⟨Nat.zero_le _, by omega⟩, Nat.sub_zero,
      List.getElem?_eq_getElem hk] at h1
    rw [List.getD_eq_getElem?_getD, ← h1] at h2
    exact h2
  refine ⟨ys, a', hs, hys, ?_⟩
  rw [channel_of_stepAll hs hys] at h'
  exact (Except.ok.inj h').symm

theorem channel_ne_raise {α : Type} {wrap : α → Slot} {f : α → F → Run (F × α)}
    (hf : ∀ a x c, f a x ≠ raise c) (u : Byte) (a : α) (c : Col) (xs : List F) (s : State) (e : Cause) :
    channel wrap f u a c xs s ≠ raise e := by
  intro h
  simp only [channel, raise, bind_eq_error] at h
  rcases h with h | ⟨⟨ys, b⟩, -, h⟩
  · exact stepAll_ne_raise hf _ _ _ h
  · exact normalise_ne_raise _ _ _ _ h

/-- The body of a mono block command on an acceptable slot, length and input. -/
theorem blockUnit_eq {α : Type} {view : Slot → Option α} {wrap : α → Slot} {f : α → F → Run (F × α)} {u : Byte}
    {len : Nat} {s : State} {a : α} {x : Slot} {xs : List F} (hx : s.U[u.toNat]? = some x) (ha : view x = some a)
    (hlx : len ≤ s.params.xlen) (hly : len ≤ s.params.ylen) (hl : xs.length = len) (hh : Holds s.XMEM xs) :
    blockUnit view wrap f u len s = channel wrap f u a .c0 xs s := by
  simp only [blockUnit, slotAs_of_view hx ha, ok_bind, blockLen_of_le hlx hly,
    (readCells_eq_ok_iff_holds _ _ _).2 ⟨hl, hh⟩]

/-- Everything the body of a mono block command can answer when it succeeds. -/
theorem blockUnit_eq_ok {α : Type} {view : Slot → Option α} {wrap : α → Slot} {f : α → F → Run (F × α)} {u : Byte}
    {len : Nat} {s t : State} (h : blockUnit view wrap f u len s = .ok t) :
    ∃ x a xs, s.U[u.toNat]? = some x ∧ view x = some a ∧ len ≤ s.params.xlen ∧ len ≤ s.params.ylen ∧
      xs.length = len ∧ Holds s.XMEM xs ∧ channel wrap f u a .c0 xs s = .ok t := by
  simp only [blockUnit, bind_eq_ok, slotAs_eq_ok, readCells_eq_ok_iff_holds] at h
  obtain ⟨a, ⟨x, hx, ha⟩, y, hb, xs, ⟨hl, hh⟩, hc⟩ := h
  refine ⟨x, a, xs, hx, ha, ?_, ?_, hl, hh, hc⟩ <;>
    (by_contra hlt; rw [blockLen_of_gt (by omega)] at hb; cases hb)

/-- Everything the body of a per-sample command can answer when it succeeds. -/
theorem stepUnit_eq_ok {α : Type} {view : Slot → Option α} {wrap : α → Slot} {f : α → Run (F × α)} {u : Byte}
    {s t : State} : stepUnit view wrap f u s = .ok t ↔
      ∃ x a y a', s.U[u.toNat]? = some x ∧ view x = some a ∧ f a = .ok (y, a') ∧
        t = writeRes0 y (setSlot u (wrap a') s) := by
  simp only [stepUnit, bind_eq_ok, slotAs_eq_ok, Prod.exists, pure_eq_ok, Except.ok.injEq]
  constructor
  · rintro ⟨a, ⟨x, hx, ha⟩, y, a', hf, rfl⟩; exact ⟨x, a, y, a', hx, ha, hf, rfl⟩
  · rintro ⟨x, a, y, a', hx, ha, hf, rfl⟩; exact ⟨a, ⟨x, hx, ha⟩, y, a', hf, rfl⟩

theorem stepUnit_of_ok {α : Type} {view : Slot → Option α} {wrap : α → Slot} {f : α → Run (F × α)} {u : Byte}
    {s : State} {x : Slot} {a a' : α} {y : F} (hx : s.U[u.toNat]? = some x) (ha : view x = some a)
    (hf : f a = .ok (y, a')) : stepUnit view wrap f u s = .ok (writeRes0 y (setSlot u (wrap a') s)) :=
  stepUnit_eq_ok.2 ⟨x, a, y, a', hx, ha, hf, rfl⟩

/-- A per-sample command on an acceptable slot stops where its step stops. -/
theorem stepUnit_of_error {α : Type} {view : Slot → Option α} {wrap : α → Slot} {f : α → Run (F × α)} {u : Byte}
    {s : State} {x : Slot} {a : α} {e : Stop} (hx : s.U[u.toNat]? = some x) (ha : view x = some a)
    (hf : f a = .error e) : stepUnit view wrap f u s = .error e := by
  simp only [stepUnit, slotAs_of_view hx ha, hf, ok_bind, error_bind]

/-- The only cause a per-sample command raises is E_SLOT. -/
theorem stepUnit_eq_raise {α : Type} {view : Slot → Option α} {wrap : α → Slot} {f : α → Run (F × α)}
    (hf : ∀ a c, f a ≠ raise c) {u : Byte} {s : State} {c : Cause} (h : stepUnit view wrap f u s = raise c) :
    c = .slot ∧ slotAs view u s = raise .slot := by
  rcases slotAs_cases view u s with ⟨a, ha⟩ | ha
  · simp only [stepUnit, ha, ok_bind, raise, bind_eq_error] at h
    rcases h with h | ⟨⟨y, b⟩, -, h⟩
    · exact absurd h (hf _ _)
    · cases h
  · simp only [stepUnit, ha, raise_bind, raise_inj] at h
    exact ⟨h.symm, ha⟩

end Sys2Proof.Machine
end

