-- ==== Sys2Proof/Laws/Units.lean ====
section
/-! SUPPORT. What one step of each unit can answer: exactly the rule's formulas of Safety.lean, when every computed value
is finite. No step of a unit raises a cause. -/

namespace Sys2Proof.Machine

/-! ### The delay line (40_delay_line) -/

/-- The wrap-add loop answers the position after the least number of additions that leaves it not negative. -/
theorem wrapAdd_eq_ok {fuel : Nat} {pos len v : F} :
    wrapAdd fuel pos len = .ok v ↔
      ∃ n ≤ fuel, (∀ k < n, fLt ((fun p => fAdd p len)^[k] pos) fZero = true) ∧
        fLt ((fun p => fAdd p len)^[n] pos) fZero = false ∧ v = (fun p => fAdd p len)^[n] pos := by
  induction fuel generalizing pos with
  | zero =>
    simp only [wrapAdd, Nat.le_zero]
    by_cases h : fLt pos fZero = true
    · rw [if_pos h]
      refine ⟨fun hv => (refuse_ne_ok _ _ hv).elim, ?_⟩
      rintro ⟨n, rfl, -, h0, -⟩
      rw [Function.iterate_zero, id, h] at h0
      cases h0
    · rw [if_neg h]
      refine ⟨fun hv => ⟨0, rfl, fun k hk => absurd hk (Nat.not_lt_zero k), by simpa using h, ?_⟩, ?_⟩
      · exact (Except.ok.inj hv).symm
      · rintro ⟨n, rfl, -, -, hv⟩
        rw [hv, Function.iterate_zero, id]
  | succ fuel ih =>
    simp only [wrapAdd]
    by_cases h : fLt pos fZero = true
    · rw [if_pos h, ih]
      constructor
      · rintro ⟨n, hn, hk, h0, rfl⟩
        refine ⟨n + 1, by omega, fun k hkn => ?_, by simpa using h0, by simp⟩
        cases k with
        | zero => simpa using h
        | succ k => simpa using hk k (by omega)
      · rintro ⟨n, hn, hk, h0, rfl⟩
        cases n with
        | zero => simp only [Function.iterate_zero, id] at h0; rw [h] at h0; cases h0
        | succ n =>
          exact ⟨n, by omega, fun k hkn => by simpa using hk (k + 1) (by omega), by simpa using h0, by simp⟩
    · rw [if_neg h]
      constructor
      · intro hv
        cases hv
        exact ⟨0, by omega, by simp, by simpa using h, rfl⟩
      · rintro ⟨n, hn, hk, h0, rfl⟩
        cases n with
        | zero => rfl
        | succ n => exact absurd (hk 0 (by omega)) (by simpa using h)

theorem wrapAdd_ne_raise (fuel : Nat) (pos len : F) (c : Cause) : wrapAdd fuel pos len ≠ raise c := by
  induction fuel generalizing pos with
  | zero => simp only [wrapAdd]; split <;> simp [raise, refuse]
  | succ fuel ih => simp only [wrapAdd]; split <;> first | exact ih _ | simp [raise]

/-- A fractional read answers exactly what R124 says. -/
theorem fracRead_eq_ok {d : DLState} {offset v : F} : fracRead d offset = .ok v ↔ Reads d offset v := by
  simp only [fracRead, Reads, checked_bind_eq_ok]
  refine and_congr_right fun _ => ?_
  by_cases hw : fLt (fSub (toF d.cur) offset) fWrapLimit = true
  · rw [if_pos hw, refuse_bind, hw]; simp
  · rw [if_neg hw]
    simp only [bind_eq_ok, wrapAdd_eq_ok, checked_eq_ok, Bool.not_eq_true] at hw ⊢
    simp only [hw, true_and]
    constructor
    · rintro ⟨_, ⟨n, hn, hk, h0, rfl⟩, hf, rfl⟩; exact ⟨n, hn, hk, h0, rfl, hf⟩
    · rintro ⟨n, hn, hk, h0, hv, hf⟩; exact ⟨_, ⟨n, hn, hk, h0, rfl⟩, hv ▸ hf, hv⟩

theorem checked_ne_raise (v : F) (c : Cause) : checked v ≠ raise c := by
  rcases checked_cases v with h | h <;> rw [h] <;> simp [raise, refuse]

theorem fracRead_ne_raise (d : DLState) (offset : F) (c : Cause) : fracRead d offset ≠ raise c := by
  intro h
  simp only [fracRead, raise, bind_eq_error] at h
  rcases h with h | ⟨p, -, h⟩
  · exact checked_ne_raise _ _ h
  · split at h
    · simp [refuse] at h
    · rcases bind_eq_error.1 h with h | ⟨q, -, h⟩
      · exact wrapAdd_ne_raise _ _ _ _ h
      · exact checked_ne_raise _ _ h

/-- Reading leaves a buffer that is finite with a finite value only. -/
theorem Reads.finite {d : DLState} {offset v : F} (h : Reads d offset v) : fFinite v = true := by
  obtain ⟨-, -, n, -, -, -, -, hv⟩ := h
  exact hv

@[simp] theorem push_L (d : DLState) (v : F) : (push d v).L = d.L := rfl
@[simp] theorem push_buf (d : DLState) (v : F) : (push d v).buf = d.buf.set d.cur v := rfl
@[simp] theorem push_cur (d : DLState) (v : F) : (push d v).cur = (d.cur + 1) % d.L := rfl

theorem delayOk_iff {d : DLState} : delayOk d = true ↔ d.buf.length = d.L ∧ d.cur < d.L := by simp [delayOk]

theorem delayOk_push {d : DLState} (v : F) (h : delayOk d = true) : delayOk (push d v) = true := by
  rw [delayOk_iff] at *
  simp only [push_buf, push_L, push_cur, List.length_set]
  exact ⟨h.1, Nat.mod_lt _ (by omega)⟩

theorem delayOk_fresh {L : Nat} (h : 0 < L) : delayOk (freshDelay L) = true := by
  simp [delayOk, freshDelay, h]

theorem delayFinite_push {d : DLState} {v : F} (h : delayFinite d = true) (hv : fFinite v = true) :
    delayFinite (push d v) = true := by
  simp only [delayFinite, List.all_eq_true, push_buf] at *
  intro x hx
  rcases List.mem_or_eq_of_mem_set hx with hx | rfl
  · exact h x hx
  · exact hv

theorem delayFinite_fresh (L : Nat) : delayFinite (freshDelay L) = true := by
  simp only [delayFinite, freshDelay, List.all_eq_true, List.mem_replicate]
  rintro x ⟨-, rfl⟩
  decide

@[simp] theorem delaySettings_push (d : DLState) (v : F) : delaySettings (push d v) = delaySettings d := rfl

/-- `MsToSamples` is at least 1: a quotient of at least 1.0 truncates to at least 1. -/
theorem fTrunc_pos {v : F} (h : fLt v fOne = false) (hn : fIsNaN v = false) : 0 < fTrunc v := by
  have hi : ¬ fInt v < fInt fOne := by
    rw [← fLt_iff (fIsNaN_eq_false.1 hn) (by decide)]; simp [h]
  have h1 : fInt fOne = (fScale : Int) := by
    rw [fInt_eq, unitsOf_fOne, if_neg (by decide)]
  have hp := fScale_pos
  rw [h1, fInt_eq] at hi
  rw [fTrunc, fUnits_eq]
  split at hi
  · omega
  · rename_i hs
    rw [if_neg hs]
    have : 1 ≤ unitsOf (fMag v) / fScale := (Nat.le_div_iff_mul_le hp).2 (by omega)
    omega

/-- `DLProc` (R127) when the stored value is finite. -/
theorem dlProc_eq_ok {d d' : DLState} {x g y : F} :
    dlProc d x g = .ok (y, d') ↔
      fFinite (fAdd x (fMul g (bufAt d d.cur))) = true ∧ y = bufAt d d.cur ∧
        d' = push d (fAdd x (fMul g (bufAt d d.cur))) := by
  simp only [dlProc, checked_bind_eq_ok, pure_eq_ok, Except.ok.injEq, Prod.mk.injEq, eq_comm (b := y), eq_comm (b := d')]

theorem dlProc_ne_raise (d : DLState) (x g : F) (c : Cause) : dlProc d x g ≠ raise c := by
  intro h
  simp only [dlProc] at h
  rcases checked_cases (fAdd x (fMul g (bufAt d d.cur))) with h1 | h1 <;> rw [h1] at h <;> cases h

/-! ### Comb and all-pass filters (41_comb_filters, 42_allpass) -/

theorem combProc_eq_ok {x y : F} {c c' : CombState} :
    combProc x c = .ok (y, c') ↔
      fFinite (fAdd x (fMul c.gain (bufAt c.d c.d.cur))) = true ∧ y = bufAt c.d c.d.cur ∧ c' = combNext x c := by
  simp only [combProc, bind_eq_ok, Prod.exists, dlProc_eq_ok, pure_eq_ok, Except.ok.injEq, Prod.mk.injEq, combNext]
  constructor
  · rintro ⟨out, d, ⟨hf, rfl, rfl⟩, rfl, rfl⟩; exact ⟨hf, rfl, rfl⟩
  · rintro ⟨hf, rfl, rfl⟩; exact ⟨_, _, ⟨hf, rfl, rfl⟩, rfl, rfl⟩

theorem combProc_ne_raise (x : F) (a : CombState) (c : Cause) : combProc x a ≠ raise c := by
  intro h
  simp only [combProc, raise, bind_eq_error] at h
  rcases h with h | ⟨⟨y, d⟩, -, h⟩
  · exact dlProc_ne_raise _ _ _ _ h
  · cases h

theorem apProc_eq_ok {x y : F} {a a' : CombState} :
    apProc x a = .ok (y, a') ↔
      fFinite (apIn x a) = true ∧ fFinite (apOut x a) = true ∧ y = apOut x a ∧
        a' = { a with d := push a.d (apIn x a) } := by
  simp only [apProc, checked_bind_eq_ok, pure_eq_ok, Except.ok.injEq, Prod.mk.injEq, apIn, apOut, eq_comm (b := y),
    eq_comm (b := a')]

theorem apProc_ne_raise (x : F) (a : CombState) (c : Cause) : apProc x a ≠ raise c := by
  intro h
  simp only [apProc, raise, bind_eq_error] at h
  rcases h with h | ⟨w, -, h | ⟨o, -, h⟩⟩
  · exact (by rcases checked_cases (fAdd x (fMul a.gain (bufAt a.d a.d.cur))) with h1 | h1 <;> rw [h1] at h <;> cases h)
  · exact (by rcases checked_cases (fSub (bufAt a.d a.d.cur) (fMul a.gain w)) with h1 | h1 <;> rw [h1] at h <;> cases h)
  · cases h

/-! ### Oscillators (43_oscillators) -/

theorem lfoTick_eq_ok {l l' : LFOState} {v : F} :
    lfoTick l = .ok (v, l') ↔ lfoTickFinite l = true ∧ v = lfoValue l ∧ l' = lfoNext l := by
  simp only [lfoTick, checked_bind_eq_ok, pure_eq_ok, Except.ok.injEq, Prod.mk.injEq, lfoTickFinite, Bool.and_eq_true,
    lfoValue, lfoNext, lfoAdvance, and_assoc, eq_comm (b := v), eq_comm (b := l')]

theorem lfoTick_ne_raise (l : LFOState) (c : Cause) : lfoTick l ≠ raise c := by
  intro h
  simp only [lfoTick, raise, bind_eq_error] at h
  rcases h with h | ⟨w, -, h | ⟨o, -, h⟩⟩
  · exact checked_ne_raise _ _ h
  · exact checked_ne_raise _ _ h
  · cases h

theorem lfoNew_eq_ok {rate center range : F} {fs : Word} {l : LFOState} :
    lfoNew rate center range fs = .ok l ↔
      fFinite (fDiv (fMul Config.TWO_PI rate) (toF fs.toNat)) = true ∧
        l = ⟨fZero, fDiv (fMul Config.TWO_PI rate) (toF fs.toNat), center, range⟩ := by
  simp only [lfoNew, checked_bind_eq_ok, pure_eq_ok, Except.ok.injEq, eq_comm (b := l)]

theorem lfoNew_ne_raise (rate center range : F) (fs : Word) (c : Cause) : lfoNew rate center range fs ≠ raise c := by
  intro h
  simp only [lfoNew, raise, bind_eq_error] at h
  rcases h with h | ⟨w, -, h⟩
  · exact checked_ne_raise _ _ h
  · cases h

theorem triTick_eq_ok {t t' : TRIState} {o : TriOut} :
    triTick t = .ok (o, t') ↔
      fFinite (phaseB t.p) = true ∧ fFinite (tri t.p) = true ∧ fFinite (tri (phaseB t.p)) = true ∧
        fFinite (phasorAdvance t.p t.rate) = true ∧ o = ⟨tri t.p, tri (phaseB t.p), t.p, phaseB t.p⟩ ∧
        t' = { t with p := phasorAdvance t.p t.rate } := by
  simp only [triTick, checked_bind_eq_ok, pure_eq_ok, Except.ok.injEq, Prod.mk.injEq, eq_comm (b := o), eq_comm (b := t')]

theorem triTick_ne_raise (t : TRIState) (c : Cause) : triTick t ≠ raise c := by
  intro h
  simp only [triTick, raise, bind_eq_error] at h
  rcases h with h | ⟨_, -, h | ⟨_, -, h | ⟨_, -, h | ⟨_, -, h⟩⟩⟩⟩
  · exact checked_ne_raise _ _ h
  · exact checked_ne_raise _ _ h
  · exact checked_ne_raise _ _ h
  · exact checked_ne_raise _ _ h
  · cases h

theorem phasorRateOk_eq_ok {rate : F} {x : Unit} : phasorRateOk rate = .ok x ↔ fLe fOne (fAbs rate) = false := by
  simp only [phasorRateOk]; split <;> simp_all

theorem phasorRateOk_ne_raise (rate : F) (c : Cause) : phasorRateOk rate ≠ raise c := by
  simp only [phasorRateOk]; split <;> simp [raise, refuse]

/-! ### The flanger (44_flanger) -/

/-- `FLStep` answers exactly what R202 says. -/
theorem flStep_eq_ok {f f' : FLState} {x y : F} : flStep f x = .ok (y, f') ↔ flGives f x y f' := by
  simp only [flStep, flGives, bind_eq_ok, Prod.exists, lfoTick_eq_ok, fracRead_eq_ok, checked_eq_ok, pure_eq_ok,
    Except.ok.injEq, Prod.mk.injEq]
  constructor
  · rintro ⟨_, _, ⟨h1, rfl, rfl⟩, dl, h2, _, ⟨h3, rfl⟩, rfl, rfl⟩; exact ⟨h1, dl, h2, rfl, h3, rfl⟩
  · rintro ⟨h1, dl, h2, rfl, h3, rfl⟩; exact ⟨_, _, ⟨h1, rfl, rfl⟩, dl, h2, _, ⟨h3, rfl⟩, rfl, rfl⟩

theorem flStep_ne_raise (f : FLState) (x : F) (c : Cause) : flStep f x ≠ raise c := by
  intro h
  simp only [flStep, raise, bind_eq_error] at h
  rcases h with h | ⟨⟨_, _⟩, -, h | ⟨_, -, h | ⟨_, -, h⟩⟩⟩
  · exact lfoTick_ne_raise _ _ h
  · exact fracRead_ne_raise _ _ _ h
  · exact checked_ne_raise _ _ h
  · cases h

/-! ### The reverberator (45_reverb_bank) -/

/-- The bank with a finite sum and finite stored elements: every partial sum was finite. -/
theorem combBank_eq_ok {x acc y : F} {cs cs' : List CombState} (hacc : fFinite acc = true) :
    combBank x acc cs = .ok (y, cs') ↔
      y = cs.foldl (fun a c => fAdd a (bufAt c.d c.d.cur)) acc ∧ fFinite y = true ∧ cs' = cs.map (combNext x) ∧
        cs.all (fun c => fFinite (fAdd x (fMul c.gain (bufAt c.d c.d.cur)))) = true := by
  have start : ∀ (cs : List CombState) (a : F),
      fFinite (cs.foldl (fun a c => fAdd a (bufAt c.d c.d.cur)) a) = true → fFinite a = true := by
    intro cs
    induction cs with
    | nil => exact fun a h => h
    | cons c cs ih => exact fun a h => (fFinite_of_fAdd (ih _ h)).1
  induction cs generalizing acc cs' with
  | nil =>
    simp only [combBank, Except.ok.injEq, Prod.mk.injEq, List.foldl_nil, List.map_nil, List.all_nil, and_true]
    constructor
    · rintro ⟨rfl, rfl⟩; exact ⟨rfl, hacc, rfl⟩
    · rintro ⟨rfl, -, rfl⟩; exact ⟨rfl, rfl⟩
  | cons c cs ih =>
    simp only [combBank, bind_eq_ok, Prod.exists, combProc_eq_ok, checked_eq_ok, pure_eq_ok, Except.ok.injEq,
      Prod.mk.injEq, List.foldl_cons, List.map_cons, List.all_cons, Bool.and_eq_true]
    constructor
    · rintro ⟨_, _, ⟨h1, rfl, rfl⟩, _, ⟨h2, rfl⟩, _, _, h3, rfl, rfl⟩
      obtain ⟨rfl, h4, rfl, h5⟩ := (ih h2).1 h3
      exact ⟨rfl, h4, rfl, h1, h5⟩
    · rintro ⟨rfl, h4, rfl, h1, h5⟩
      have h2 := start _ _ h4
      exact ⟨_, _, ⟨h1, rfl, rfl⟩, _, ⟨h2, rfl⟩, _, _, (ih h2).2 ⟨rfl, h4, rfl, h5⟩, rfl, rfl⟩

theorem combBank_ne_raise (x acc : F) (cs : List CombState) (c : Cause) : combBank x acc cs ≠ raise c := by
  induction cs generalizing acc with
  | nil => exact fun h => by cases h
  | cons d cs ih =>
    intro h
    simp only [combBank, raise, bind_eq_error] at h
    rcases h with h | ⟨⟨_, _⟩, -, h | ⟨_, -, h | ⟨⟨_, _⟩, -, h⟩⟩⟩
    · exact combProc_ne_raise _ _ _ h
    · exact checked_ne_raise _ _ h
    · exact ih _ h
    · cases h

/-- The chain with a finite end and finite stored elements: every value between was finite. -/
theorem apChain_eq_ok {w y : F} {as as' : List CombState} (hw : fFinite w = true) :
    apChain w as = .ok (y, as') ↔
      y = chainOut w as ∧ fFinite y = true ∧ as' = chainNext w as ∧ (chainStored w as).all fFinite = true := by
  have start : ∀ (as : List CombState) (w : F), fFinite (chainOut w as) = true → fFinite w = true := by
    intro as
    induction as with
    | nil => exact fun w h => h
    | cons a as ih =>
      intro w h
      have h1 := ih (apOut w a) h
      have h2 := (fFinite_of_fMul (fFinite_of_fSub h1).2).2
      exact (fFinite_of_fAdd h2).1
  induction as generalizing w as' with
  | nil =>
    simp only [apChain, chainOut, chainNext, chainStored, Except.ok.injEq, Prod.mk.injEq, List.foldl_nil, List.all_nil,
      and_true]
    constructor
    · rintro ⟨rfl, rfl⟩; exact ⟨rfl, hw, rfl⟩
    · rintro ⟨rfl, -, rfl⟩; exact ⟨rfl, rfl⟩
  | cons a as ih =>
    simp only [apChain, bind_eq_ok, Prod.exists, apProc_eq_ok, pure_eq_ok, Except.ok.injEq, Prod.mk.injEq, chainNext,
      chainStored, List.all_cons, Bool.and_eq_true]
    constructor
    · rintro ⟨_, _, ⟨h1, h2, rfl, rfl⟩, _, _, h3, rfl, rfl⟩
      obtain ⟨rfl, h4, rfl, h5⟩ := (ih h2).1 h3
      exact ⟨rfl, h4, rfl, h1, h5⟩
    · rintro ⟨rfl, h4, rfl, h1, h5⟩
      have h2 : fFinite (apOut w a) = true := start as _ h4
      exact ⟨_, _, ⟨h1, h2, rfl, rfl⟩, _, _, (ih h2).2 ⟨rfl, h4, rfl, h5⟩, rfl, rfl⟩

theorem apChain_ne_raise (w : F) (as : List CombState) (c : Cause) : apChain w as ≠ raise c := by
  induction as generalizing w with
  | nil => exact fun h => by cases h
  | cons d cs ih =>
    intro h
    simp only [apChain, raise, bind_eq_error] at h
    rcases h with h | ⟨⟨_, _⟩, -, h | ⟨⟨_, _⟩, -, h⟩⟩
    · exact apProc_ne_raise _ _ _ h
    · exact ih _ h
    · cases h

theorem chainOut_start (as : List CombState) (w : F) (h : fFinite (chainOut w as) = true) : fFinite w = true := by
  induction as generalizing w with
  | nil => exact h
  | cons a as ih =>
    have h1 := ih (apOut w a) h
    exact (fFinite_of_fAdd (fFinite_of_fMul (fFinite_of_fSub h1).2).2).1

/-- `RVStep` answers exactly what R223 says. -/
theorem rvStep_eq_ok {r r' : RVState} {x y : F} : rvStep r x = .ok (y, r') ↔ rvGives r x y r' := by
  simp only [rvStep, rvGives, bind_eq_ok, Prod.exists, combBank_eq_ok (show fFinite fZero = true by decide),
    checked_eq_ok, pure_eq_ok, Except.ok.injEq, Prod.mk.injEq, rvStoredFinite, Bool.and_eq_true, rvNext, rvOut]
  constructor
  · rintro ⟨_, _, ⟨rfl, h1, rfl, h2⟩, _, ⟨h3, rfl⟩, _, _, h4, _, ⟨h5, rfl⟩, rfl, rfl⟩
    obtain ⟨rfl, h6, rfl, h7⟩ := (apChain_eq_ok h3).1 h4
    exact ⟨rfl, rfl, h5, h2, h7⟩
  · rintro ⟨rfl, rfl, h5, h2, h7⟩
    have h6 : fFinite (chainOut (rvWet r) r.ap) = true := (fFinite_of_fMul (fFinite_of_fAdd h5).2).1
    have h3 : fFinite (rvWet r) = true := chainOut_start _ _ h6
    exact ⟨_, _, ⟨rfl, (fFinite_of_fMul h3).1, rfl, h2⟩, _, ⟨h3, rfl⟩, _, _,
      (apChain_eq_ok h3).2 ⟨rfl, h6, rfl, h7⟩, _, ⟨h5, rfl⟩, rfl, rfl⟩

theorem rvStep_ne_raise (r : RVState) (x : F) (c : Cause) : rvStep r x ≠ raise c := by
  intro h
  simp only [rvStep, raise, bind_eq_error] at h
  rcases h with h | ⟨⟨_, _⟩, -, h | ⟨_, -, h | ⟨⟨_, _⟩, -, h | ⟨_, -, h⟩⟩⟩⟩
  · exact combBank_ne_raise _ _ _ _ h
  · exact checked_ne_raise _ _ h
  · exact apChain_ne_raise _ _ _ h
  · exact checked_ne_raise _ _ h
  · cases h

/-! ### The tremolo (46_tremolo) -/

/-- `TRStep` answers exactly what R252 says. -/
theorem trStep_eq_ok {t t' : TRState} {x y : F} : trStep t x = .ok (y, t') ↔ trGives t x y t' := by
  simp only [trStep, trGives, bind_eq_ok, Prod.exists, lfoTick_eq_ok, checked_eq_ok, pure_eq_ok, Except.ok.injEq,
    Prod.mk.injEq]
  constructor
  · rintro ⟨_, _, ⟨h1, rfl, rfl⟩, _, ⟨h2, rfl⟩, rfl, rfl⟩; exact ⟨h1, rfl, h2, rfl⟩
  · rintro ⟨h1, rfl, h2, rfl⟩; exact ⟨_, _, ⟨h1, rfl, rfl⟩, _, ⟨h2, rfl⟩, rfl, rfl⟩

theorem trStep_ne_raise (t : TRState) (x : F) (c : Cause) : trStep t x ≠ raise c := by
  intro h
  simp only [trStep, raise, bind_eq_error] at h
  rcases h with h | ⟨⟨_, _⟩, -, h | ⟨_, -, h⟩⟩
  · exact lfoTick_ne_raise _ _ h
  · exact checked_ne_raise _ _ h
  · cases h

/-! ### The pitch shifter (47_pitch_shifter) -/

/-- `PSStep` answers exactly what R264 says, with every value it computes finite. -/
theorem psStep_eq_ok {q q' : PSState} {x y : F} :
    psStep q x = .ok (y, q') ↔
      fFinite (phaseB q.tri.p) = true ∧ fFinite (fMul q.tri.p (toF q.W)) = true ∧
        fFinite (fMul (phaseB q.tri.p) (toF q.W)) = true ∧ fFinite (tri q.tri.p) = true ∧
        fFinite (tri (phaseB q.tri.p)) = true ∧ fFinite (phasorAdvance q.tri.p q.tri.rate) = true ∧
        ∃ vA vB, Reads q.d (fMul q.tri.p (toF q.W)) vA ∧ Reads q.d (fMul (phaseB q.tri.p) (toF q.W)) vB ∧
          y = fAdd (fMul vA (tri q.tri.p)) (fMul vB (tri (phaseB q.tri.p))) ∧ fFinite y = true ∧
          q' = { q with d := push q.d x, tri := { q.tri with p := phasorAdvance q.tri.p q.tri.rate } } := by
  simp only [psStep, checked_bind_eq_ok]
  refine and_congr_right fun _ => and_congr_right fun _ => and_congr_right fun _ => and_congr_right fun _ =>
    and_congr_right fun _ => ?_
  simp only [bind_eq_ok (x := fracRead _ _), checked_bind_eq_ok, fracRead_eq_ok, pure_eq_ok, Except.ok.injEq,
    Prod.mk.injEq, eq_comm (b := y), eq_comm (b := q')]
  constructor
  · rintro ⟨vA, hA, vB, hB, h6, h7, h8, h9⟩; exact ⟨h7, vA, vB, hA, hB, h8, by rw [h8]; exact h6, h9⟩
  · rintro ⟨h7, vA, vB, hA, hB, h8, h6, h9⟩; exact ⟨vA, hA, vB, hB, by rw [← h8]; exact h6, h7, h8, h9⟩

theorem bind_ne_raise {α β : Type} {x : Run α} {f : α → Run β} {c : Cause} (hx : x ≠ raise c)
    (hf : ∀ a, f a ≠ raise c) : (x >>= f) ≠ raise c := by
  intro h
  rcases bind_eq_error.1 h with h | ⟨a, -, h⟩
  · exact hx h
  · exact hf a h

theorem psStep_ne_raise (q : PSState) (x : F) (c : Cause) : psStep q x ≠ raise c :=
  bind_ne_raise (checked_ne_raise _ _) fun _ => bind_ne_raise (checked_ne_raise _ _) fun _ =>
    bind_ne_raise (checked_ne_raise _ _) fun _ => bind_ne_raise (checked_ne_raise _ _) fun _ =>
    bind_ne_raise (checked_ne_raise _ _) fun _ => bind_ne_raise (fracRead_ne_raise _ _ _) fun _ =>
    bind_ne_raise (fracRead_ne_raise _ _ _) fun _ => bind_ne_raise (checked_ne_raise _ _) fun _ =>
    bind_ne_raise (checked_ne_raise _ _) fun _ => by simp [raise]

theorem psShift_eq_ok {p p' : PSState} {t : F} :
    psShift p t = .ok p' ↔
      fFinite (Config.EXP2 (fDiv t fTwelve)) = true ∧
        fFinite (fDiv (fSub fOne (Config.EXP2 (fDiv t fTwelve))) (toF p.W)) = true ∧
        fLe fOne (fAbs (fDiv (fSub fOne (Config.EXP2 (fDiv t fTwelve))) (toF p.W))) = false ∧
        p' = { p with
          factor := Config.EXP2 (fDiv t fTwelve)
          tri := { p.tri with rate := fDiv (fSub fOne (Config.EXP2 (fDiv t fTwelve))) (toF p.W) } } := by
  simp only [psShift, checked_bind_eq_ok]
  refine and_congr_right fun _ => and_congr_right fun _ => ?_
  simp only [bind_eq_ok, phasorRateOk_eq_ok, pure_eq_ok, Except.ok.injEq, eq_comm (b := p'), exists_const]

theorem psShift_ne_raise (p : PSState) (t : F) (c : Cause) : psShift p t ≠ raise c := by
  intro h
  simp only [psShift, raise, bind_eq_error] at h
  rcases h with h | ⟨_, -, h | ⟨_, -, h | ⟨_, -, h⟩⟩⟩
  · exact checked_ne_raise _ _ h
  · exact checked_ne_raise _ _ h
  · exact phasorRateOk_ne_raise _ _ h
  · cases h

/-! ### Where a unit stops (93_implementation_defined U2) -/

/-- A computation that stops only because a computed value is not finite. -/
def OnlyNonFinite {α : Type} (x : Run α) : Prop := ∀ e, x = .error e → x = refuse .nonFiniteResult

/-- So it stops so where it does not answer. -/
theorem OnlyNonFinite.of_ne_ok {α : Type} {x : Run α} (h : OnlyNonFinite x) (hx : ∀ a, x ≠ .ok a) :
    x = refuse .nonFiniteResult := by
  rcases x with e | a
  · exact h e rfl
  · exact absurd rfl (hx a)

theorem onlyNonFinite_ok {α : Type} (a : α) : OnlyNonFinite (.ok a : Run α) := fun _ h => by cases h

theorem onlyNonFinite_pure {α : Type} (a : α) : OnlyNonFinite (pure a : Run α) := onlyNonFinite_ok a

theorem onlyNonFinite_bind {α β : Type} {x : Run α} {f : α → Run β} (hx : OnlyNonFinite x)
    (hf : ∀ a, OnlyNonFinite (f a)) : OnlyNonFinite (x >>= f) := by
  rcases x with e | a
  · intro e' _; rw [hx e rfl]; rfl
  · exact hf a

theorem onlyNonFinite_checked (v : F) : OnlyNonFinite (checked v) := by
  rcases checked_cases v with h | h <;> rw [h]
  · exact onlyNonFinite_ok v
  · exact fun _ _ => rfl

theorem onlyNonFinite_dlProc (d : DLState) (x g : F) : OnlyNonFinite (dlProc d x g) :=
  onlyNonFinite_bind (onlyNonFinite_checked _) fun _ => onlyNonFinite_pure _

theorem onlyNonFinite_combProc (x : F) (c : CombState) : OnlyNonFinite (combProc x c) :=
  onlyNonFinite_bind (onlyNonFinite_dlProc _ _ _) fun _ => onlyNonFinite_pure _

theorem onlyNonFinite_apProc (x : F) (a : CombState) : OnlyNonFinite (apProc x a) :=
  onlyNonFinite_bind (onlyNonFinite_checked _) fun _ => onlyNonFinite_bind (onlyNonFinite_checked _) fun _ =>
    onlyNonFinite_pure _

theorem onlyNonFinite_lfoNew (rate center range : F) (fs : Word) : OnlyNonFinite (lfoNew rate center range fs) :=
  onlyNonFinite_bind (onlyNonFinite_checked _) fun _ => onlyNonFinite_pure _

theorem onlyNonFinite_lfoTick (l : LFOState) : OnlyNonFinite (lfoTick l) :=
  onlyNonFinite_bind (onlyNonFinite_checked _) fun _ => onlyNonFinite_bind (onlyNonFinite_checked _) fun _ =>
    onlyNonFinite_pure _

theorem onlyNonFinite_combBank (x acc : F) (cs : List CombState) : OnlyNonFinite (combBank x acc cs) := by
  induction cs generalizing acc with
  | nil => exact onlyNonFinite_ok _
  | cons c cs ih =>
    exact onlyNonFinite_bind (onlyNonFinite_combProc _ _) fun _ => onlyNonFinite_bind (onlyNonFinite_checked _) fun _ =>
      onlyNonFinite_bind (ih _) fun _ => onlyNonFinite_pure _

theorem onlyNonFinite_apChain (w : F) (as : List CombState) : OnlyNonFinite (apChain w as) := by
  induction as generalizing w with
  | nil => exact onlyNonFinite_ok _
  | cons a as ih =>
    exact onlyNonFinite_bind (onlyNonFinite_apProc _ _) fun _ => onlyNonFinite_bind (ih _) fun _ => onlyNonFinite_pure _

theorem onlyNonFinite_rvStep (r : RVState) (x : F) : OnlyNonFinite (rvStep r x) :=
  onlyNonFinite_bind (onlyNonFinite_combBank _ _ _) fun _ => onlyNonFinite_bind (onlyNonFinite_checked _) fun _ =>
    onlyNonFinite_bind (onlyNonFinite_apChain _ _) fun _ => onlyNonFinite_bind (onlyNonFinite_checked _) fun _ =>
    onlyNonFinite_pure _

theorem onlyNonFinite_trStep (t : TRState) (x : F) : OnlyNonFinite (trStep t x) :=
  onlyNonFinite_bind (onlyNonFinite_lfoTick _) fun _ => onlyNonFinite_bind (onlyNonFinite_checked _) fun _ =>
    onlyNonFinite_pure _

end Sys2Proof.Machine
end

