-- ==== Sys2Proof/Laws/Meanings.lean ====
section
/-! SUPPORT. One lemma for each command: everything it can do when it answers a next state. Either it completed, with the
effect that its rule gives, or it took fault entry with one of the causes of 60_exceptions R301. The facts about
operands that a completed command has tested are in the first alternative. -/

namespace Sys2Proof.Machine

/-! ### Which causes a body can raise -/

/-- A body raises no cause outside the list. -/
def Raises {α : Type} (cs : List Cause) (x : Run α) : Prop := ∀ c, x = raise c → c ∈ cs

theorem raises_of_ne {α : Type} {cs : List Cause} {x : Run α} (h : ∀ c, x ≠ raise c) : Raises cs x :=
  fun c hc => absurd hc (h c)

theorem raises_ok {α : Type} (cs : List Cause) (a : α) : Raises cs (.ok a : Run α) := raises_of_ne (by simp [raise])

theorem raises_pure {α : Type} (cs : List Cause) (a : α) : Raises cs (pure a : Run α) := raises_ok cs a

theorem raises_refuse {α : Type} (cs : List Cause) (r : Refusal) : Raises cs (refuse r : Run α) :=
  raises_of_ne (by simp)

theorem raises_raise {α : Type} {cs : List Cause} {c : Cause} (h : c ∈ cs) : Raises cs (raise c : Run α) := by
  intro d hd
  rw [raise_inj] at hd
  exact hd ▸ h

theorem raises_bind {α β : Type} {cs : List Cause} {x : Run α} {f : α → Run β} (hx : Raises cs x)
    (hf : ∀ a, Raises cs (f a)) : Raises cs (x >>= f) := by
  intro c h
  rcases bind_eq_error.1 h with h | ⟨a, -, h⟩
  · exact hx c h
  · exact hf a c h

theorem raises_finiteOperands (cs : List Cause) (vs : List F) : Raises cs (finiteOperands vs) := by
  rw [finiteOperands]; split
  · exact raises_ok _ _
  · exact raises_refuse _ _

theorem raises_narrowOperand (cs : List Cause) (n : Word) : Raises cs (narrowOperand n) := by
  rw [narrowOperand]; split
  · exact raises_ok _ _
  · exact raises_refuse _ _

theorem raises_cfgSlot {cs : List Cause} (h : .slot ∈ cs) (u : Byte) (s : State) : Raises cs (cfgSlot u s) := by
  rcases cfgSlot_cases u s with e | e <;> rw [e]
  · exact raises_ok _ _
  · exact raises_raise h

theorem raises_goodRate {cs : List Cause} (h : .badRate ∈ cs) (fs : Word) : Raises cs (goodRate fs) := by
  rcases goodRate_cases fs with e | e <;> rw [e]
  · exact raises_ok _ _
  · exact raises_raise h

theorem raises_msToSamples {cs : List Cause} (hz : .zeroDelay ∈ cs) (hc : .capacity ∈ cs) (capMax : Nat) (ms : F)
    (fs : Word) : Raises cs (msToSamples capMax ms fs) := by
  rcases msToSamples_cases capMax ms fs with ⟨L, e⟩ | e | e <;> rw [e]
  · exact raises_ok _ _
  · exact raises_raise hz
  · exact raises_raise hc

theorem raises_slotAs {α : Type} {cs : List Cause} (h : .slot ∈ cs) (view : Slot → Option α) (u : Byte) (s : State) :
    Raises cs (slotAs view u s) := by
  rcases slotAs_cases view u s with ⟨a, e⟩ | e <;> rw [e]
  · exact raises_ok _ _
  · exact raises_raise h

theorem raises_blockLen {cs : List Cause} (h : .capacity ∈ cs) (len : Nat) (s : State) : Raises cs (blockLen len s) := by
  rcases blockLen_cases len s with e | e <;> rw [e]
  · exact raises_ok _ _
  · exact raises_raise h

theorem raises_readCells (cs : List Cause) (m : Mem) (i n : Nat) : Raises cs (readCells m i n) := by
  rcases readCells_cases m i n with ⟨a, e⟩ | ⟨r, e⟩ <;> rw [e]
  · exact raises_ok _ _
  · exact raises_refuse _ _

theorem raises_checked (cs : List Cause) (v : F) : Raises cs (checked v) := raises_of_ne (checked_ne_raise v)

theorem raises_stepUnit {α : Type} {cs : List Cause} (h : .slot ∈ cs) {view : Slot → Option α} {wrap : α → Slot}
    {f : α → Run (F × α)} (hf : ∀ a c, f a ≠ raise c) (u : Byte) (s : State) : Raises cs (stepUnit view wrap f u s) :=
  fun _ hc => (stepUnit_eq_raise hf hc).1 ▸ h

theorem raises_blockUnit {α : Type} {cs : List Cause} (hs : .slot ∈ cs) (hc : .capacity ∈ cs)
    {view : Slot → Option α} {wrap : α → Slot} {f : α → F → Run (F × α)} (hf : ∀ a x c, f a x ≠ raise c) (u : Byte)
    (len : Nat) (s : State) : Raises cs (blockUnit view wrap f u len s) :=
  raises_bind (raises_slotAs hs _ _ _) fun a => raises_bind (raises_blockLen hc _ _) fun _ =>
    raises_bind (raises_readCells _ _ _ _) fun xs => raises_of_ne (channel_ne_raise hf u a .c0 xs s)

/-- A command's two ways to a next state, from the causes of its body and its value. -/
theorem finish_cases {n : Nat} {s t : State} {r : Run State} {cs : List Cause} {P : Prop}
    (h : finish n s r = .next t) (hr : Raises cs r) (hp : ∀ t', r = .ok t' → t = advance n t' → P) :
    P ∨ ∃ c ∈ cs, t = faultEntry c s := by
  rcases finish_eq_next.1 h with ⟨t', ht, rfl⟩ | ⟨c, hc, rfl⟩
  · exact .inl (hp t' ht rfl)
  · exact .inr ⟨c, hr c hc, rfl⟩

/-! ### Configurations -/

theorem execDlCfg_next {u : Byte} {ms : F} {fs : Word} {s t : State} (h : execDlCfg u ms fs s = .next t) :
    (∃ L, msToSamples s.params.capMax ms fs = .ok L ∧ t = advance 2 (setSlot u (.dl (freshDelay L)) s)) ∨
      ∃ c ∈ causesOf (.dlCfg u ms fs), t = faultEntry c s := by
  refine finish_cases h ?_ ?_
  · exact raises_bind (raises_finiteOperands _ _) fun _ => raises_bind (raises_narrowOperand _ _) fun _ =>
      raises_bind (raises_cfgSlot (by simp [causesOf]) _ _) fun _ =>
      raises_bind (raises_goodRate (by simp [causesOf]) _) fun _ =>
      raises_bind (raises_msToSamples (by simp [causesOf]) (by simp [causesOf]) _ _ _) fun _ => raises_pure _ _
  · rintro t' ht rfl
    simp only [bind_eq_ok, pure_eq_ok, Except.ok.injEq] at ht
    obtain ⟨_, -, _, -, _, -, _, -, L, hL, rfl⟩ := ht
    exact ⟨L, hL, rfl⟩

/-- The body shared by the filters' configurations. -/
theorem combCfg_eq_ok {wrap : CombState → Slot} {u : Byte} {ms gain : F} {fs : Word} {s t : State}
    (h : combCfg wrap u ms gain fs s = .ok t) :
    ∃ L, msToSamples s.params.capMax ms fs = .ok L ∧ fFinite gain = true ∧
      t = setSlot u (wrap ⟨freshDelay L, gain⟩) s := by
  simp only [combCfg, newComb, bind_eq_ok, pure_eq_ok, Except.ok.injEq, finiteOperands_eq_ok] at h
  obtain ⟨_, hf, _, -, _, -, _, -, c, ⟨L, hL, rfl⟩, rfl⟩ := h
  exact ⟨L, hL, hf gain (by simp), rfl⟩

theorem raises_combCfg (wrap : CombState → Slot) (u : Byte) (ms gain : F) (fs : Word) (s : State) :
    Raises [.slot, .badRate, .zeroDelay, .capacity] (combCfg wrap u ms gain fs s) :=
  raises_bind (raises_finiteOperands _ _) fun _ => raises_bind (raises_narrowOperand _ _) fun _ =>
    raises_bind (raises_cfgSlot (by simp) _ _) fun _ => raises_bind (raises_goodRate (by simp) _) fun _ =>
    raises_bind (raises_bind (raises_msToSamples (by simp) (by simp) _ _ _) fun _ => raises_pure _ _) fun _ =>
    raises_pure _ _

theorem execFircCfg_next {u : Byte} {ms gain : F} {fs : Word} {s t : State}
    (h : execFircCfg u ms gain fs s = .next t) :
    (∃ L, msToSamples s.params.capMax ms fs = .ok L ∧ fFinite gain = true ∧
      t = advance 3 (setSlot u (.firc ⟨freshDelay L, gain⟩) s)) ∨
      ∃ c ∈ causesOf (.fircCfg u ms gain fs), t = faultEntry c s := by
  refine finish_cases h (raises_combCfg _ _ _ _ _ _) fun t' ht e => ?_
  subst e
  obtain ⟨L, hL, hg, rfl⟩ := combCfg_eq_ok ht
  exact ⟨L, hL, hg, rfl⟩

theorem execIircCfg_next {u : Byte} {ms gain : F} {fs : Word} {s t : State}
    (h : execIircCfg u ms gain fs s = .next t) :
    (∃ L, msToSamples s.params.capMax ms fs = .ok L ∧ fFinite gain = true ∧
      t = advance 3 (setSlot u (.iirc ⟨freshDelay L, gain⟩) s)) ∨
      ∃ c ∈ causesOf (.iircCfg u ms gain fs), t = faultEntry c s := by
  refine finish_cases h (raises_combCfg _ _ _ _ _ _) fun t' ht e => ?_
  subst e
  obtain ⟨L, hL, hg, rfl⟩ := combCfg_eq_ok ht
  exact ⟨L, hL, hg, rfl⟩

theorem execApCfg_next {u : Byte} {ms gain : F} {fs : Word} {s t : State} (h : execApCfg u ms gain fs s = .next t) :
    (∃ L, msToSamples s.params.capMax ms fs = .ok L ∧ fFinite gain = true ∧
      t = advance 3 (setSlot u (.ap ⟨freshDelay L, gain⟩) s)) ∨
      ∃ c ∈ causesOf (.apCfg u ms gain fs), t = faultEntry c s := by
  refine finish_cases h (raises_combCfg _ _ _ _ _ _) fun t' ht e => ?_
  subst e
  obtain ⟨L, hL, hg, rfl⟩ := combCfg_eq_ok ht
  exact ⟨L, hL, hg, rfl⟩

theorem execLfoCfg_next {u : Byte} {rate center range : F} {fs : Word} {s t : State}
    (h : execLfoCfg u rate center range fs s = .next t) :
    (∃ l, lfoNew rate center range fs = .ok l ∧ fFinite center = true ∧ fFinite range = true ∧
      t = advance 4 (setSlot u (.lfo l) s)) ∨
      ∃ c ∈ causesOf (.lfoCfg u rate center range fs), t = faultEntry c s := by
  refine finish_cases h ?_ ?_
  · exact raises_bind (raises_finiteOperands _ _) fun _ => raises_bind (raises_narrowOperand _ _) fun _ =>
      raises_bind (raises_cfgSlot (by simp [causesOf]) _ _) fun _ =>
      raises_bind (raises_goodRate (by simp [causesOf]) _) fun _ =>
      raises_bind (raises_of_ne (lfoNew_ne_raise _ _ _ _)) fun _ => raises_pure _ _
  · rintro t' ht rfl
    simp only [bind_eq_ok, pure_eq_ok, Except.ok.injEq, finiteOperands_eq_ok] at ht
    obtain ⟨_, hf, _, -, _, -, _, -, l, hl, rfl⟩ := ht
    exact ⟨l, hl, hf center (by simp), hf range (by simp), rfl⟩

theorem execTriCfg_next {u : Byte} {rate : F} {s t : State} (h : execTriCfg u rate s = .next t) :
    (fFinite rate = true ∧ fLe fOne (fAbs rate) = false ∧ t = advance 1 (setSlot u (.tri ⟨fZero, rate⟩) s)) ∨
      ∃ c ∈ causesOf (.triCfg u rate), t = faultEntry c s := by
  refine finish_cases h ?_ ?_
  · exact raises_bind (raises_finiteOperands _ _) fun _ =>
      raises_bind (raises_cfgSlot (by simp [causesOf]) _ _) fun _ =>
      raises_bind (raises_of_ne (phasorRateOk_ne_raise _)) fun _ => raises_pure _ _
  · rintro t' ht rfl
    simp only [bind_eq_ok, pure_eq_ok, Except.ok.injEq, finiteOperands_eq_ok, phasorRateOk_eq_ok] at ht
    obtain ⟨_, hf, _, -, _, hr, rfl⟩ := ht
    exact ⟨hf rate (by simp), hr, rfl⟩

theorem execFlCfg_next {u : Byte} {mn mx rate depth : F} {fs : Word} {s t : State}
    (h : execFlCfg u mn mx rate depth fs s = .next t) :
    (∃ maxD minD l, msToSamples s.params.capMax mx fs = .ok maxD ∧ minDelay s.params.capMax mn fs = .ok minD ∧
      fFinite (sweepCenter minD maxD) = true ∧ fFinite (sweepRange minD maxD) = true ∧ fFinite depth = true ∧
      lfoNew rate (sweepCenter minD maxD) (sweepRange minD maxD) fs = .ok l ∧
      t = advance 5 (setSlot u (.fl ⟨freshDelay maxD, l, depth, minD, maxD⟩) s)) ∨
      ∃ c ∈ causesOf (.flCfg u mn mx rate depth fs), t = faultEntry c s := by
  refine finish_cases h ?_ ?_
  · refine raises_bind (raises_finiteOperands _ _) fun _ => raises_bind (raises_narrowOperand _ _) fun _ =>
      raises_bind (raises_cfgSlot (by simp [causesOf]) _ _) fun _ =>
      raises_bind (raises_goodRate (by simp [causesOf]) _) fun _ =>
      raises_bind (raises_msToSamples (by simp [causesOf]) (by simp [causesOf]) _ _ _) fun _ =>
      raises_bind ?_ fun _ => raises_bind (raises_checked _ _) fun _ => raises_bind (raises_checked _ _) fun _ =>
      raises_bind (raises_of_ne (lfoNew_ne_raise _ _ _ _)) fun _ => raises_pure _ _
    rw [minDelay]
    split
    · exact raises_refuse _ _
    · split
      · exact raises_raise (by simp [causesOf])
      · exact raises_ok _ _
  · rintro t' ht rfl
    simp only [bind_eq_ok, checked_eq_ok, pure_eq_ok, Except.ok.injEq, finiteOperands_eq_ok] at ht
    obtain ⟨_, hf, _, -, _, -, _, -, maxD, hmax, minD, hmin, c, ⟨hc, ec⟩, r, ⟨hr, er⟩, l, hl, rfl⟩ := ht
    rw [ec, er] at hl
    exact ⟨maxD, minD, l, hmax, hmin, hc, hr, hf depth (by simp), hl, rfl⟩

/-- A list of filters is built from the list of their delays and gains, one filter for each, in order. -/
theorem newFilters_eq_ok {capMax : Nat} {fs : Word} {ps : List (F × F)} {cs : List CombState} :
    newFilters capMax fs ps = .ok cs ↔
      List.Forall₂ (fun p c => ∃ L, msToSamples capMax p.1 fs = .ok L ∧ c = ⟨freshDelay L, p.2⟩) ps cs := by
  induction ps generalizing cs with
  | nil => simp [newFilters, eq_comm]
  | cons p ps ih =>
    obtain ⟨ms, gain⟩ := p
    simp only [newFilters, newComb, bind_eq_ok, ih, pure_eq_ok, Except.ok.injEq, List.forall₂_cons_left_iff]
    constructor
    · rintro ⟨c, ⟨L, hL, rfl⟩, cs, hcs, rfl⟩; exact ⟨_, cs, ⟨L, hL, rfl⟩, hcs, rfl⟩
    · rintro ⟨c, cs, ⟨L, hL, rfl⟩, hcs, rfl⟩; exact ⟨_, ⟨L, hL, rfl⟩, cs, hcs, rfl⟩

theorem raises_newFilters {cs : List Cause} (hz : .zeroDelay ∈ cs) (hc : .capacity ∈ cs) (capMax : Nat) (fs : Word)
    (ps : List (F × F)) : Raises cs (newFilters capMax fs ps) := by
  induction ps with
  | nil => exact raises_ok _ _
  | cons p ps ih =>
    exact raises_bind (raises_bind (raises_msToSamples hz hc _ _ _) fun _ => raises_pure _ _) fun _ =>
      raises_bind ih fun _ => raises_pure _ _

theorem execRvCfg_next {u : Byte} {fs : Word} {wet : F} {spread : Word} {cd cg ad ag : List F} {s t : State}
    (h : execRvCfg u fs wet spread cd cg ad ag s = .next t) :
    (∃ comb ap, fFinite wet = true ∧ (∀ g ∈ cg, fFinite g = true) ∧ (∀ g ∈ ag, fFinite g = true) ∧
      cd.length = cg.length ∧ ad.length = ag.length ∧ cd.length ≠ 0 ∧
      newFilters s.params.capMax fs ((cd.map (fAdd · (spreadMs spread fs))).zip cg) = .ok comb ∧
      newFilters s.params.capMax fs (ad.zip ag) = .ok ap ∧
      t = advance (7 + cd.length + cg.length + ad.length + ag.length)
        (setSlot u (.rv ⟨comb, ap, fDiv fOne (toF cd.length), wet⟩) s)) ∨
      ∃ c ∈ causesOf (.rvCfg u fs wet spread cd cg ad ag), t = faultEntry c s := by
  refine finish_cases h ?_ ?_
  · refine raises_bind ?_ fun _ => raises_bind (raises_finiteOperands _ _) fun _ =>
      raises_bind (raises_narrowOperand _ _) fun _ => raises_bind (raises_narrowOperand _ _) fun _ =>
      raises_bind (raises_cfgSlot (by simp [causesOf]) _ _) fun _ =>
      raises_bind (raises_goodRate (by simp [causesOf]) _) fun _ => raises_bind ?_ fun _ =>
      raises_bind (raises_newFilters (by simp [causesOf]) (by simp [causesOf]) _ _ _) fun _ =>
      raises_bind (raises_newFilters (by simp [causesOf]) (by simp [causesOf]) _ _ _) fun _ => raises_pure _ _
    · rw [countsOk]
      split
      · exact raises_raise (by simp [causesOf])
      · exact raises_ok _ _
    · rw [banksOk]
      split
      · exact raises_raise (by simp [causesOf])
      · split
        · exact raises_raise (by simp [causesOf])
        · exact raises_ok _ _
  · rintro t' ht rfl
    simp only [bind_eq_ok, pure_eq_ok, Except.ok.injEq, finiteOperands_eq_ok] at ht
    obtain ⟨_, -, _, hf, _, -, _, -, _, -, _, -, _, hb, comb, hcomb, ap, hap, rfl⟩ := ht
    rw [banksOk] at hb
    split at hb
    · cases hb
    · split at hb
      · cases hb
      · rename_i h1 h2
        simp only [ne_eq, Bool.or_eq_true, decide_eq_true_eq, not_or, Decidable.not_not] at h1
        exact ⟨comb, ap, hf wet (by simp), fun g hg => hf g (by simp [hg]), fun g hg => hf g (by simp [hg]), h1.1, h1.2,
          h2, hcomb, hap, rfl⟩

theorem execTrCfg_next {u : Byte} {rate depth : F} {fs : Word} {s t : State}
    (h : execTrCfg u rate depth fs s = .next t) :
    (∃ l, fFinite (fDiv depth fTwo) = true ∧ fFinite (fSub fOne (fDiv depth fTwo)) = true ∧
      lfoNew rate (fSub fOne (fDiv depth fTwo)) (fDiv depth fTwo) fs = .ok l ∧
      t = advance 3 (setSlot u (.tr ⟨l⟩) s)) ∨
      ∃ c ∈ causesOf (.trCfg u rate depth fs), t = faultEntry c s := by
  refine finish_cases h ?_ ?_
  · exact raises_bind (raises_finiteOperands _ _) fun _ => raises_bind (raises_narrowOperand _ _) fun _ =>
      raises_bind (raises_cfgSlot (by simp [causesOf]) _ _) fun _ =>
      raises_bind (raises_goodRate (by simp [causesOf]) _) fun _ =>
      raises_bind (raises_checked _ _) fun _ => raises_bind (raises_checked _ _) fun _ =>
      raises_bind (raises_of_ne (lfoNew_ne_raise _ _ _ _)) fun _ => raises_pure _ _
  · rintro t' ht rfl
    simp only [bind_eq_ok, checked_eq_ok, pure_eq_ok, Except.ok.injEq] at ht
    obtain ⟨_, -, _, -, _, -, _, -, _, ⟨h1, rfl⟩, _, ⟨h2, rfl⟩, l, hl, rfl⟩ := ht
    exact ⟨l, h1, h2, hl, rfl⟩

theorem windowSamples_eq_ok {capMax : Nat} {ms : F} {fs : Word} {W : Nat} :
    windowSamples capMax ms fs = .ok W ↔ msToSamples capMax ms fs = .ok W ∧ 2 * W ≤ capMax := by
  simp only [windowSamples, bind_eq_ok]
  constructor
  · rintro ⟨W', h1, h2⟩
    split at h2
    · simp at h2
    · cases h2; exact ⟨h1, by omega⟩
  · rintro ⟨h1, h2⟩
    exact ⟨W, h1, by rw [if_neg (by omega)]; rfl⟩

theorem execPsCfg_next {u : Byte} {ms : F} {fs : Word} {s t : State} (h : execPsCfg u ms fs s = .next t) :
    (∃ W, msToSamples s.params.capMax ms fs = .ok W ∧ 2 * W ≤ s.params.capMax ∧
      t = advance 2 (setSlot u (.ps ⟨W, freshDelay (2 * W), ⟨fZero, fZero⟩, fOne⟩) s)) ∨
      ∃ c ∈ causesOf (.psCfg u ms fs), t = faultEntry c s := by
  refine finish_cases h ?_ ?_
  · refine raises_bind (raises_finiteOperands _ _) fun _ => raises_bind (raises_narrowOperand _ _) fun _ =>
      raises_bind (raises_cfgSlot (by simp [causesOf]) _ _) fun _ =>
      raises_bind (raises_goodRate (by simp [causesOf]) _) fun _ => raises_bind ?_ fun _ => raises_pure _ _
    refine raises_bind (raises_msToSamples (by simp [causesOf]) (by simp [causesOf]) _ _ _) fun W => ?_
    split
    · exact raises_bind (raises_raise (by simp [causesOf])) fun _ => raises_pure _ _
    · exact raises_pure _ _
  · rintro t' ht rfl
    simp only [bind_eq_ok, pure_eq_ok, Except.ok.injEq, windowSamples_eq_ok] at ht
    obtain ⟨_, -, _, -, _, -, _, -, W, ⟨hW, h2⟩, rfl⟩ := ht
    exact ⟨W, hW, h2, rfl⟩

/-! ### Commands on one sample -/

theorem execDlWrite_next {u : Byte} {x : F} {s t : State} (h : execDlWrite u x s = .next t) :
    (∃ y d, s.U[u.toNat]? = some y ∧ viewDelay y = some d ∧ fFinite x = true ∧
      t = advance 1 (setDelay u (push d x) s)) ∨
      ∃ c ∈ causesOf (.dlWrite u x), t = faultEntry c s := by
  refine finish_cases h ?_ ?_
  · exact raises_bind (raises_finiteOperands _ _) fun _ =>
      raises_bind (raises_slotAs (by simp [causesOf]) _ _ _) fun _ => raises_pure _ _
  · rintro t' ht rfl
    simp only [bind_eq_ok, pure_eq_ok, Except.ok.injEq, finiteOperands_eq_ok, slotAs_eq_ok] at ht
    obtain ⟨_, hf, d, ⟨y, hy, hd⟩, rfl⟩ := ht
    exact ⟨y, d, hy, hd, hf x (by simp), rfl⟩

theorem execDlRead_next {u : Byte} {offset : F} {s t : State} (h : execDlRead u offset s = .next t) :
    (∃ y d v, s.U[u.toNat]? = some y ∧ viewDelay y = some d ∧ Reads d offset v ∧
      t = advance 1 (writeRes0 v s)) ∨
      ∃ c ∈ causesOf (.dlRead u offset), t = faultEntry c s := by
  refine finish_cases h ?_ ?_
  · exact raises_bind (raises_finiteOperands _ _) fun _ =>
      raises_bind (raises_slotAs (by simp [causesOf]) _ _ _) fun _ =>
      raises_bind (raises_of_ne (fracRead_ne_raise _ _)) fun _ => raises_pure _ _
  · rintro t' ht rfl
    simp only [bind_eq_ok, pure_eq_ok, Except.ok.injEq, slotAs_eq_ok, fracRead_eq_ok] at ht
    obtain ⟨_, -, d, ⟨y, hy, hd⟩, v, hv, rfl⟩ := ht
    exact ⟨y, d, v, hy, hd, hv, rfl⟩

theorem execDlProc_next {u : Byte} {x g : F} {s t : State} (h : execDlProc u x g s = .next t) :
    (∃ y d, s.U[u.toNat]? = some y ∧ viewDelay y = some d ∧ fFinite (fAdd x (fMul g (bufAt d d.cur))) = true ∧
      t = advance 2 (writeRes0 (bufAt d d.cur) (setDelay u (push d (fAdd x (fMul g (bufAt d d.cur)))) s))) ∨
      ∃ c ∈ causesOf (.dlProc u x g), t = faultEntry c s := by
  refine finish_cases h ?_ ?_
  · exact raises_bind (raises_finiteOperands _ _) fun _ =>
      raises_bind (raises_slotAs (by simp [causesOf]) _ _ _) fun _ =>
      raises_bind (raises_of_ne (dlProc_ne_raise _ _ _)) fun _ => raises_pure _ _
  · rintro t' ht rfl
    simp only [bind_eq_ok, pure_eq_ok, Except.ok.injEq, slotAs_eq_ok, Prod.exists, dlProc_eq_ok] at ht
    obtain ⟨_, -, d, ⟨y, hy, hd⟩, _, _, ⟨hw, rfl, rfl⟩, rfl⟩ := ht
    exact ⟨y, d, hy, hd, hw, rfl⟩

/-- The commands with a body of one step of a unit: the slot held an instance, and it made its step. -/
theorem stepCommand_next {α : Type} {cs : List Cause} {view : Slot → Option α} {wrap : α → Slot}
    {f : α → Run (F × α)} {n : Nat} {u : Byte} {ops : List F} {s t : State} (hcs : .slot ∈ cs)
    (hf : ∀ a c, f a ≠ raise c)
    (h : finish n s (finiteOperands ops >>= fun _ => stepUnit view wrap f u s) = .next t) :
    (∃ z a y a', s.U[u.toNat]? = some z ∧ view z = some a ∧ (∀ x ∈ ops, fFinite x = true) ∧ f a = .ok (y, a') ∧
      t = advance n (writeRes0 y (setSlot u (wrap a') s))) ∨ ∃ c ∈ cs, t = faultEntry c s := by
  refine finish_cases h (raises_bind (raises_finiteOperands _ _) fun _ => raises_stepUnit hcs hf _ _) ?_
  rintro t' ht rfl
  simp only [bind_eq_ok, finiteOperands_eq_ok, stepUnit_eq_ok] at ht
  obtain ⟨_, hops, z, a, y, a', hz, ha, hfa, rfl⟩ := ht
  exact ⟨z, a, y, a', hz, ha, hops, hfa, rfl⟩

theorem execFircProc_next {u : Byte} {x : F} {s t : State} (h : execFircProc u x s = .next t) :
    (∃ z c, s.U[u.toNat]? = some z ∧ viewFirc z = some c ∧
      fFinite (fAdd x (fMul c.gain (bufAt c.d c.d.cur))) = true ∧
      t = advance 1 (writeRes0 (bufAt c.d c.d.cur) (setSlot u (.firc (combNext x c)) s))) ∨
      ∃ e ∈ causesOf (.fircProc u x), t = faultEntry e s := by
  rcases stepCommand_next (cs := [.slot]) (by simp) (combProc_ne_raise x) h with ⟨z, c, y, c', hz, hc, -, hs, rfl⟩ | h
  · obtain ⟨hf, rfl, rfl⟩ := combProc_eq_ok.1 hs
    exact .inl ⟨z, c, hz, hc, hf, rfl⟩
  · exact .inr h

theorem execIircProc_next {u : Byte} {x : F} {s t : State} (h : execIircProc u x s = .next t) :
    (∃ z c, s.U[u.toNat]? = some z ∧ viewIirc z = some c ∧
      fFinite (fAdd x (fMul c.gain (bufAt c.d c.d.cur))) = true ∧
      t = advance 1 (writeRes0 (bufAt c.d c.d.cur) (setSlot u (.iirc (combNext x c)) s))) ∨
      ∃ e ∈ causesOf (.iircProc u x), t = faultEntry e s := by
  rcases stepCommand_next (cs := [.slot]) (by simp) (combProc_ne_raise x) h with ⟨z, c, y, c', hz, hc, -, hs, rfl⟩ | h
  · obtain ⟨hf, rfl, rfl⟩ := combProc_eq_ok.1 hs
    exact .inl ⟨z, c, hz, hc, hf, rfl⟩
  · exact .inr h

theorem execApProc_next {u : Byte} {x : F} {s t : State} (h : execApProc u x s = .next t) :
    (∃ z a, s.U[u.toNat]? = some z ∧ viewAp z = some a ∧ fFinite (apIn x a) = true ∧ fFinite (apOut x a) = true ∧
      t = advance 1 (writeRes0 (apOut x a) (setSlot u (.ap { a with d := push a.d (apIn x a) }) s))) ∨
      ∃ e ∈ causesOf (.apProc u x), t = faultEntry e s := by
  rcases stepCommand_next (cs := [.slot]) (by simp) (apProc_ne_raise x) h with ⟨z, a, y, a', hz, ha, -, hs, rfl⟩ | h
  · obtain ⟨hf, ho, rfl, rfl⟩ := apProc_eq_ok.1 hs
    exact .inl ⟨z, a, hz, ha, hf, ho, rfl⟩
  · exact .inr h

theorem execLfoTick_next {u : Byte} {s t : State} (h : execLfoTick u s = .next t) :
    (∃ z l, s.U[u.toNat]? = some z ∧ viewLfo z = some l ∧ lfoTickFinite l = true ∧
      t = advance 0 (writeRes0 (lfoValue l) (setSlot u (.lfo (lfoNext l)) s))) ∨
      ∃ e ∈ causesOf (.lfoTick u), t = faultEntry e s := by
  rcases stepCommand_next (cs := [.slot]) (ops := []) (by simp) lfoTick_ne_raise
    (show finish 0 s (finiteOperands [] >>= fun _ => stepUnit viewLfo .lfo lfoTick u s) = .next t from h) with
    ⟨z, l, y, l', hz, hl, -, hs, rfl⟩ | h
  · obtain ⟨hf, rfl, rfl⟩ := lfoTick_eq_ok.1 hs
    exact .inl ⟨z, l, hz, hl, hf, rfl⟩
  · exact .inr h

theorem execTriTick_next {u : Byte} {s t : State} (h : execTriTick u s = .next t) :
    (∃ z p o p', s.U[u.toNat]? = some z ∧ viewTri z = some p ∧ triTick p = .ok (o, p') ∧
      t = advance 0 (writeRes o.gA o.gB o.pA o.pB (setSlot u (.tri p') s))) ∨
      ∃ e ∈ causesOf (.triTick u), t = faultEntry e s := by
  refine finish_cases h ?_ ?_
  · exact raises_bind (raises_slotAs (by simp [causesOf]) _ _ _) fun _ =>
      raises_bind (raises_of_ne (triTick_ne_raise _)) fun _ => raises_pure _ _
  · rintro t' ht rfl
    simp only [bind_eq_ok, pure_eq_ok, Except.ok.injEq, slotAs_eq_ok, Prod.exists] at ht
    obtain ⟨p, ⟨z, hz, hp⟩, o, p', ho, rfl⟩ := ht
    exact ⟨z, p, o, p', hz, hp, ho, rfl⟩

theorem execFlStep_next {u : Byte} {x : F} {s t : State} (h : execFlStep u x s = .next t) :
    (∃ z f y f', s.U[u.toNat]? = some z ∧ viewFl z = some f ∧ fFinite x = true ∧ flGives f x y f' ∧
      t = advance 1 (writeRes0 y (setSlot u (.fl f') s))) ∨
      ∃ e ∈ causesOf (.flStep u x), t = faultEntry e s := by
  rcases stepCommand_next (cs := [.slot]) (by simp) (fun f => flStep_ne_raise f x) h with
    ⟨z, f, y, f', hz, hf, hx, hs, rfl⟩ | h
  · exact .inl ⟨z, f, y, f', hz, hf, hx x (by simp), flStep_eq_ok.1 hs, rfl⟩
  · exact .inr h

theorem execRvStep_next {u : Byte} {x : F} {s t : State} (h : execRvStep u x s = .next t) :
    (∃ z r y r', s.U[u.toNat]? = some z ∧ viewRv z = some r ∧ fFinite x = true ∧ rvGives r x y r' ∧
      t = advance 1 (writeRes0 y (setSlot u (.rv r') s))) ∨
      ∃ e ∈ causesOf (.rvStep u x), t = faultEntry e s := by
  rcases stepCommand_next (cs := [.slot]) (by simp) (fun r => rvStep_ne_raise r x) h with
    ⟨z, f, y, f', hz, hf, hx, hs, rfl⟩ | h
  · exact .inl ⟨z, f, y, f', hz, hf, hx x (by simp), rvStep_eq_ok.1 hs, rfl⟩
  · exact .inr h

theorem execTrStep_next {u : Byte} {x : F} {s t : State} (h : execTrStep u x s = .next t) :
    (∃ z r y r', s.U[u.toNat]? = some z ∧ viewTr z = some r ∧ fFinite x = true ∧ trGives r x y r' ∧
      t = advance 1 (writeRes0 y (setSlot u (.tr r') s))) ∨
      ∃ e ∈ causesOf (.trStep u x), t = faultEntry e s := by
  rcases stepCommand_next (cs := [.slot]) (by simp) (fun r => trStep_ne_raise r x) h with
    ⟨z, f, y, f', hz, hf, hx, hs, rfl⟩ | h
  · exact .inl ⟨z, f, y, f', hz, hf, hx x (by simp), trStep_eq_ok.1 hs, rfl⟩
  · exact .inr h

theorem execPsShift_next {u : Byte} {x : F} {s t : State} (h : execPsShift u x s = .next t) :
    (∃ z p p', s.U[u.toNat]? = some z ∧ viewPs z = some p ∧ psShift p x = .ok p' ∧
      t = advance 1 (setSlot u (.ps p') s)) ∨
      ∃ e ∈ causesOf (.psShift u x), t = faultEntry e s := by
  refine finish_cases h ?_ ?_
  · exact raises_bind (raises_finiteOperands _ _) fun _ =>
      raises_bind (raises_slotAs (by simp [causesOf]) _ _ _) fun _ =>
      raises_bind (raises_of_ne (psShift_ne_raise _ _)) fun _ => raises_pure _ _
  · rintro t' ht rfl
    simp only [bind_eq_ok, pure_eq_ok, Except.ok.injEq, slotAs_eq_ok] at ht
    obtain ⟨_, -, p, ⟨z, hz, hp⟩, p', hp', rfl⟩ := ht
    exact ⟨z, p, p', hz, hp, hp', rfl⟩

theorem execPsStep_next {u : Byte} {x : F} {s t : State} (h : execPsStep u x s = .next t) :
    (∃ z q y q', s.U[u.toNat]? = some z ∧ viewPs z = some q ∧ fFinite x = true ∧ psStep q x = .ok (y, q') ∧
      t = advance 1 (writeRes0 y (setSlot u (.ps q') s))) ∨
      ∃ e ∈ causesOf (.psStep u x), t = faultEntry e s := by
  rcases stepCommand_next (cs := [.slot]) (by simp) (fun r => psStep_ne_raise r x) h with
    ⟨z, f, y, f', hz, hf, hx, hs, rfl⟩ | h
  · exact .inl ⟨z, f, y, f', hz, hf, hx x (by simp), hs, rfl⟩
  · exact .inr h

theorem execSemi_next {ft fr : F} {s t : State} (h : execSemi ft fr s = .next t) :
    (fFinite (fMul fTwelve (Config.LOG2 (fDiv ft fr))) = true ∧
      t = advance 2 (writeRes0 (fMul fTwelve (Config.LOG2 (fDiv ft fr))) s)) ∨
      ∃ e ∈ causesOf (.semi ft fr), t = faultEntry e s := by
  have hs : ∀ cs, Raises cs (semitones ft fr) := by
    intro cs
    rw [semitones]
    split
    · exact raises_refuse _ _
    · split
      · exact raises_refuse _ _
      · exact raises_checked _ _
  refine finish_cases h ?_ ?_
  · exact raises_bind (raises_finiteOperands _ _) fun _ => raises_bind (hs _) fun _ => raises_pure _ _
  · rintro t' ht rfl
    simp only [bind_eq_ok, pure_eq_ok, Except.ok.injEq] at ht
    obtain ⟨_, -, v, hv, rfl⟩ := ht
    rw [semitones] at hv
    split at hv
    · cases hv
    · split at hv
      · cases hv
      · obtain ⟨hf, rfl⟩ := checked_eq_ok.1 hv
        exact ⟨hf, rfl⟩

/-! ### Commands on blocks -/

/-- The effect of a channel: the column's range holds the normalised outputs, NORMEDc says whether they were divided, the
slot holds the last instance. -/
def afterChannel (c : Col) (u : Byte) (ys : List F) (x : Slot) (s : State) : State :=
  setNormed c (fLt fOne (peakOf ys)) (setColumn c (writeCells (column c s) 0 (normalised ys)) (setSlot u x s))

/-- The mono block commands: the input range was finite, every sample made its step with a finite output, and the channel
took its effect. -/
theorem blockCommand_next {α : Type} {cs : List Cause} {view : Slot → Option α} {wrap : α → Slot}
    {f : α → F → Run (F × α)} {u : Byte} {len : Nat} {s t : State} (hs : .slot ∈ cs) (hc : .capacity ∈ cs)
    (hf : ∀ a x c, f a x ≠ raise c) (h : finish 0 s (blockUnit view wrap f u len s) = .next t) :
    (∃ z a xs ys a', s.U[u.toNat]? = some z ∧ view z = some a ∧ len ≤ s.params.xlen ∧ len ≤ s.params.ylen ∧
      xs.length = len ∧ Holds s.XMEM xs ∧ stepAll f a xs = .ok (ys, a') ∧ (∀ y ∈ ys, fFinite y = true) ∧
      t = advance 0 (afterChannel .c0 u ys (wrap a') s)) ∨ ∃ c ∈ cs, t = faultEntry c s := by
  refine finish_cases h (raises_blockUnit hs hc hf _ _ _) fun t' ht e => ?_
  subst e
  obtain ⟨z, a, xs, hz, ha, hx, hy, hl, hh, hch⟩ := blockUnit_eq_ok ht
  obtain ⟨ys, a', hst, hys, rfl⟩ := channel_eq_ok hch
  exact ⟨z, a, xs, ys, a', hz, ha, hx, hy, hl, hh, hst, hys, rfl⟩

theorem execFlBlock_next {u : Byte} {len : BitVec 32} {s t : State} (h : execFlBlock u len s = .next t) :
    (∃ z a xs ys a', s.U[u.toNat]? = some z ∧ viewFl z = some a ∧ len.toNat ≤ s.params.xlen ∧
      len.toNat ≤ s.params.ylen ∧ xs.length = len.toNat ∧ Holds s.XMEM xs ∧ stepAll flStep a xs = .ok (ys, a') ∧
      (∀ y ∈ ys, fFinite y = true) ∧ t = advance 0 (afterChannel .c0 u ys (.fl a') s)) ∨
      ∃ c ∈ causesOf (.flBlock u len), t = faultEntry c s :=
  blockCommand_next (by simp [causesOf]) (by simp [causesOf]) flStep_ne_raise h

theorem execRvBlock_next {u : Byte} {len : BitVec 32} {s t : State} (h : execRvBlock u len s = .next t) :
    (∃ z a xs ys a', s.U[u.toNat]? = some z ∧ viewRv z = some a ∧ len.toNat ≤ s.params.xlen ∧
      len.toNat ≤ s.params.ylen ∧ xs.length = len.toNat ∧ Holds s.XMEM xs ∧ stepAll rvStep a xs = .ok (ys, a') ∧
      (∀ y ∈ ys, fFinite y = true) ∧ t = advance 0 (afterChannel .c0 u ys (.rv a') s)) ∨
      ∃ c ∈ causesOf (.rvBlock u len), t = faultEntry c s :=
  blockCommand_next (by simp [causesOf]) (by simp [causesOf]) rvStep_ne_raise h

theorem execTrBlock_next {u : Byte} {len : BitVec 32} {s t : State} (h : execTrBlock u len s = .next t) :
    (∃ z a xs ys a', s.U[u.toNat]? = some z ∧ viewTr z = some a ∧ len.toNat ≤ s.params.xlen ∧
      len.toNat ≤ s.params.ylen ∧ xs.length = len.toNat ∧ Holds s.XMEM xs ∧ stepAll trStep a xs = .ok (ys, a') ∧
      (∀ y ∈ ys, fFinite y = true) ∧ t = advance 0 (afterChannel .c0 u ys (.tr a') s)) ∨
      ∃ c ∈ causesOf (.trBlock u len), t = faultEntry c s :=
  blockCommand_next (by simp [causesOf]) (by simp [causesOf]) trStep_ne_raise h

theorem execPsBlock_next {u : Byte} {len : BitVec 32} {s t : State} (h : execPsBlock u len s = .next t) :
    (∃ z a xs ys a', s.U[u.toNat]? = some z ∧ viewPs z = some a ∧ len.toNat ≤ s.params.xlen ∧
      len.toNat ≤ s.params.ylen ∧ xs.length = len.toNat ∧ Holds s.XMEM xs ∧ stepAll psStep a xs = .ok (ys, a') ∧
      (∀ y ∈ ys, fFinite y = true) ∧ t = advance 0 (afterChannel .c0 u ys (.ps a') s)) ∨
      ∃ c ∈ causesOf (.psBlock u len), t = faultEntry c s :=
  blockCommand_next (by simp [causesOf]) (by simp [causesOf]) psStep_ne_raise h

/-- The slot check of RV.BLOCK2. -/
theorem stereoSlots_eq_ok {u v : Byte} {s : State} {l r : RVState} :
    stereoSlots u v s = .ok (l, r) ↔
      u ≠ v ∧ s.U[u.toNat]? = some (.rv l) ∧ s.U[v.toNat]? = some (.rv r) := by
  have view : ∀ {x : Slot} {a : RVState}, viewRv x = some a ↔ x = .rv a := by
    intro x a; cases x <;> simp [viewRv]
  simp only [stereoSlots]
  by_cases huv : u = v
  · simp [huv]
  · rw [if_neg huv]
    simp only [bind_eq_ok, slotAs_eq_ok, view, pure_eq_ok, Except.ok.injEq, Prod.mk.injEq]
    constructor
    · rintro ⟨_, ⟨_, h1, rfl⟩, _, ⟨_, h2, rfl⟩, rfl, rfl⟩; exact ⟨huv, h1, h2⟩
    · rintro ⟨-, h1, h2⟩; exact ⟨_, ⟨_, h1, rfl⟩, _, ⟨_, h2, rfl⟩, rfl, rfl⟩

theorem execRvBlock2_next {u v : Byte} {len : BitVec 32} {s t : State} (h : execRvBlock2 u v len s = .next t) :
    (∃ l r xs ls rs l' r', u ≠ v ∧ s.U[u.toNat]? = some (.rv l) ∧ s.U[v.toNat]? = some (.rv r) ∧
      len.toNat ≤ s.params.xlen ∧ len.toNat ≤ s.params.ylen ∧ xs.length = len.toNat ∧ Holds s.XMEM xs ∧
      stepAll rvStep l xs = .ok (ls, l') ∧ stepAll rvStep r xs = .ok (rs, r') ∧
      (∀ y ∈ ls, fFinite y = true) ∧ (∀ y ∈ rs, fFinite y = true) ∧
      t = advance 0 (afterChannel .c1 v rs (.rv r') (afterChannel .c0 u ls (.rv l') s))) ∨
      ∃ c ∈ causesOf (.rvBlock2 u v len), t = faultEntry c s := by
  refine finish_cases h ?_ ?_
  · refine raises_bind ?_ fun _ => raises_bind (raises_blockLen (by simp [causesOf]) _ _) fun _ =>
      raises_bind (raises_readCells _ _ _ _) fun xs => raises_bind
        (raises_of_ne (channel_ne_raise rvStep_ne_raise _ _ _ _ _)) fun _ =>
        raises_of_ne (channel_ne_raise rvStep_ne_raise _ _ _ _ _)
    rw [stereoSlots]
    split
    · exact raises_bind (raises_raise (by simp [causesOf])) fun _ =>
        raises_bind (raises_slotAs (by simp [causesOf]) _ _ _) fun _ =>
        raises_bind (raises_slotAs (by simp [causesOf]) _ _ _) fun _ => raises_pure _ _
    · exact raises_bind (raises_slotAs (by simp [causesOf]) _ _ _) fun _ =>
        raises_bind (raises_slotAs (by simp [causesOf]) _ _ _) fun _ => raises_pure _ _
  · rintro t' ht rfl
    simp only [bind_eq_ok, Prod.exists, stereoSlots_eq_ok, readCells_eq_ok_iff_holds] at ht
    obtain ⟨l, r, ⟨huv, hl, hr⟩, _, hb, xs, ⟨hlen, hh⟩, s1, h1, h2⟩ := ht
    obtain ⟨ls, l', hls, hlf, rfl⟩ := channel_eq_ok h1
    obtain ⟨rs, r', hrs, hrf, rfl⟩ := channel_eq_ok h2
    have hle : len.toNat ≤ s.params.xlen ∧ len.toNat ≤ s.params.ylen := by
      by_contra hlt
      rw [blockLen_of_gt (by omega)] at hb
      cases hb
    exact ⟨l, r, xs, ls, rs, l', r', huv, hl, hr, hle.1, hle.2, hlen, hh, hls, hrs, hlf, hrf, rfl⟩

theorem execNorm_next {c : Col} {len : BitVec 32} {s t : State} (h : execNorm c len s = .next t) :
    (∃ t', len.toNat ≤ s.params.ylen ∧ normalise c len.toNat s = .ok t' ∧ t = advance 0 t') ∨
      ∃ e ∈ causesOf (.norm c len), t = faultEntry e s := by
  refine finish_cases h ?_ ?_
  · split
    · exact raises_bind (raises_raise (by simp [causesOf])) fun _ => raises_of_ne (normalise_ne_raise _ _ _)
    · exact raises_of_ne (normalise_ne_raise _ _ _)
  · rintro t' ht rfl
    split at ht
    · simp at ht
    · exact ⟨t', by omega, ht, rfl⟩

/-! ### A step -/

/-- Everything a step can do when it answers a next state. -/
theorem step_next {s t : State} (h : step s = .next t) :
    statusFault s.STATUS = false ∧ s.pc < s.CMD.length ∧
      ((∃ i, decode s.params.nfiltMax (fetch s) = .ok i ∧ exec i s = .next t) ∨
        ∃ e, decode s.params.nfiltMax (fetch s) = .error e ∧ t = faultEntry (decodeCause e) s) := by
  rw [step] at h
  split at h
  · cases h
  · rename_i hf
    refine ⟨by simpa using hf, ?_⟩
    split at h
    · cases h
    · rename_i ws hws
      have hpc : s.pc < s.CMD.length := by
        by_contra hle
        exact hws (List.drop_eq_nil_of_le (by omega))
      refine ⟨hpc, ?_⟩
      cases hd : decode s.params.nfiltMax (fetch s) with
      | ok i => rw [hd] at h; exact .inl ⟨i, rfl, h⟩
      | error e => rw [hd] at h; exact .inr ⟨e, rfl, (Host.Outcome.next.inj h).symm⟩

end Sys2Proof.Machine
end

