-- ==== Sys2Proof/Laws/PerInstr.lean ====
section
/-! SUPPORT. The statement made for every command: its encoding has one header word and `nops` operand words (30_encoding
R93, R94). -/

namespace Sys2Proof.Laws.EncodeLength

def Statement (i : Instr) : Prop := (encode i).length = 1 + nops i

theorem dlCfg (u : Byte) (delayMs : F) (fs : Word) : Statement (.dlCfg u delayMs fs) := rfl

theorem dlWrite (u : Byte) (x : F) : Statement (.dlWrite u x) := rfl

theorem dlRead (u : Byte) (offset : F) : Statement (.dlRead u offset) := rfl

theorem dlProc (u : Byte) (x g : F) : Statement (.dlProc u x g) := rfl

theorem fircCfg (u : Byte) (delayMs gain : F) (fs : Word) : Statement (.fircCfg u delayMs gain fs) := rfl

theorem fircProc (u : Byte) (x : F) : Statement (.fircProc u x) := rfl

theorem iircCfg (u : Byte) (delayMs gain : F) (fs : Word) : Statement (.iircCfg u delayMs gain fs) := rfl

theorem iircProc (u : Byte) (x : F) : Statement (.iircProc u x) := rfl

theorem apCfg (u : Byte) (delayMs gain : F) (fs : Word) : Statement (.apCfg u delayMs gain fs) := rfl

theorem apProc (u : Byte) (x : F) : Statement (.apProc u x) := rfl

theorem lfoCfg (u : Byte) (rate center range : F) (fs : Word) : Statement (.lfoCfg u rate center range fs) := rfl

theorem lfoTick (u : Byte) : Statement (.lfoTick u) := rfl

theorem triCfg (u : Byte) (rate : F) : Statement (.triCfg u rate) := rfl

theorem triTick (u : Byte) : Statement (.triTick u) := rfl

theorem flCfg (u : Byte) (minMs maxMs rate depth : F) (fs : Word) : Statement (.flCfg u minMs maxMs rate depth fs) := rfl

theorem flStep (u : Byte) (x : F) : Statement (.flStep u x) := rfl

theorem flBlock (u : Byte) (len : BitVec 32) : Statement (.flBlock u len) := rfl

theorem rvCfg (u : Byte) (fs : Word) (wet : F) (spread : Word) (combDelayMs combGain apDelayMs apGain : List F) :
    Statement (.rvCfg u fs wet spread combDelayMs combGain apDelayMs apGain) := by
  simp only [Statement, encode, nops, List.length_cons, List.length_append]
  omega

theorem rvStep (u : Byte) (x : F) : Statement (.rvStep u x) := rfl

theorem rvBlock (u : Byte) (len : BitVec 32) : Statement (.rvBlock u len) := rfl

theorem rvBlock2 (u v : Byte) (len : BitVec 32) : Statement (.rvBlock2 u v len) := rfl

theorem trCfg (u : Byte) (rate depth : F) (fs : Word) : Statement (.trCfg u rate depth fs) := rfl

theorem trStep (u : Byte) (x : F) : Statement (.trStep u x) := rfl

theorem trBlock (u : Byte) (len : BitVec 32) : Statement (.trBlock u len) := rfl

theorem psCfg (u : Byte) (windowMs : F) (fs : Word) : Statement (.psCfg u windowMs fs) := rfl

theorem psShift (u : Byte) (semitones : F) : Statement (.psShift u semitones) := rfl

theorem psStep (u : Byte) (x : F) : Statement (.psStep u x) := rfl

theorem psBlock (u : Byte) (len : BitVec 32) : Statement (.psBlock u len) := rfl

theorem semi (fTarget fRoot : F) : Statement (.semi fTarget fRoot) := rfl

theorem norm (c : Col) (len : BitVec 32) : Statement (.norm c len) := rfl

end Sys2Proof.Laws.EncodeLength
end

