-- ==== Sys2Proof/Machine/Asm.lean ====
section
/-! DEFINITION. The textual form of a command (30_encoding R98), written with `F` operands as bit patterns, which is
one of the two forms the rule allows. The engine does not observe it. -/

namespace Sys2Proof.Machine

/-- The mnemonic of each command (R94). -/
def mnemonic : Instr → String
  | .dlCfg .. => "DL.CFG"
  | .dlWrite .. => "DL.WRITE"
  | .dlRead .. => "DL.READ"
  | .dlProc .. => "DL.PROC"
  | .fircCfg .. => "FIRC.CFG"
  | .fircProc .. => "FIRC.PROC"
  | .iircCfg .. => "IIRC.CFG"
  | .iircProc .. => "IIRC.PROC"
  | .apCfg .. => "AP.CFG"
  | .apProc .. => "AP.PROC"
  | .lfoCfg .. => "LFO.CFG"
  | .lfoTick .. => "LFO.TICK"
  | .triCfg .. => "TRI.CFG"
  | .triTick .. => "TRI.TICK"
  | .flCfg .. => "FL.CFG"
  | .flStep .. => "FL.STEP"
  | .flBlock .. => "FL.BLOCK"
  | .rvCfg .. => "RV.CFG"
  | .rvStep .. => "RV.STEP"
  | .rvBlock .. => "RV.BLOCK"
  | .rvBlock2 .. => "RV.BLOCK2"
  | .trCfg .. => "TR.CFG"
  | .trStep .. => "TR.STEP"
  | .trBlock .. => "TR.BLOCK"
  | .psCfg .. => "PS.CFG"
  | .psShift .. => "PS.SHIFT"
  | .psStep .. => "PS.STEP"
  | .psBlock .. => "PS.BLOCK"
  | .semi .. => "SEMI"
  | .norm .. => "NORM"

def decimal (n : Nat) : String := String.ofList (Nat.toDigits 10 n)

def hexDigit (n : Nat) : Char := "0123456789ABCDEF".toList.getD n '0'

/-- `0x` and the sixteen digits of a bit pattern. -/
def hexPattern (v : F) : String :=
  "0x" ++ String.ofList ((List.range 16).map fun k => hexDigit (v.toNat / 16 ^ (15 - k) % 16))

def slotText (u : Byte) : String := "u" ++ decimal u.toNat
def natText (n : Word) : String := decimal n.toNat
def lenText (len : BitVec 32) : String := "#" ++ decimal len.toNat
def colText : Col → String
  | .c0 => "c0"
  | .c1 => "c1"
def arrayText (vs : List F) : String := "[" ++ String.intercalate ", " (vs.map hexPattern) ++ "]"

/-- The operands of a command in the order of R94. -/
def operandTexts : Instr → List String
  | .dlCfg u d fs => [slotText u, hexPattern d, natText fs]
  | .dlWrite u x => [slotText u, hexPattern x]
  | .dlRead u o => [slotText u, hexPattern o]
  | .dlProc u x g => [slotText u, hexPattern x, hexPattern g]
  | .fircCfg u d g fs => [slotText u, hexPattern d, hexPattern g, natText fs]
  | .fircProc u x => [slotText u, hexPattern x]
  | .iircCfg u d g fs => [slotText u, hexPattern d, hexPattern g, natText fs]
  | .iircProc u x => [slotText u, hexPattern x]
  | .apCfg u d g fs => [slotText u, hexPattern d, hexPattern g, natText fs]
  | .apProc u x => [slotText u, hexPattern x]
  | .lfoCfg u r c g fs => [slotText u, hexPattern r, hexPattern c, hexPattern g, natText fs]
  | .lfoTick u => [slotText u]
  | .triCfg u r => [slotText u, hexPattern r]
  | .triTick u => [slotText u]
  | .flCfg u mn mx r d fs => [slotText u, hexPattern mn, hexPattern mx, hexPattern r, hexPattern d, natText fs]
  | .flStep u x => [slotText u, hexPattern x]
  | .flBlock u len => [slotText u, lenText len]
  | .rvCfg u fs wet spread cd cg ad ag =>
    [slotText u, natText fs, hexPattern wet, natText spread, arrayText cd, arrayText cg, arrayText ad, arrayText ag]
  | .rvStep u x => [slotText u, hexPattern x]
  | .rvBlock u len => [slotText u, lenText len]
  | .rvBlock2 u v len => [slotText u, "v" ++ decimal v.toNat, lenText len]
  | .trCfg u r d fs => [slotText u, hexPattern r, hexPattern d, natText fs]
  | .trStep u x => [slotText u, hexPattern x]
  | .trBlock u len => [slotText u, lenText len]
  | .psCfg u w fs => [slotText u, hexPattern w, natText fs]
  | .psShift u t => [slotText u, hexPattern t]
  | .psStep u x => [slotText u, hexPattern x]
  | .psBlock u len => [slotText u, lenText len]
  | .semi t r => [hexPattern t, hexPattern r]
  | .norm c len => [colText c, lenText len]

/-- One command as one line of text (R98). -/
def text (i : Instr) : String := mnemonic i ++ " " ++ String.intercalate ", " (operandTexts i)

end Sys2Proof.Machine
end

