-- ==== Sys2Proof/Tests/Slice0.lean ====
section
/-! SUPPORT. The model's own tests. Expected values come from spec/95_test_vectors (V<n>, T<n>, P<n>), from the rules' own
examples, or from words written out by hand from 30_encoding R90 to R95; each comment names the source. The witnesses
at the end show, for each obligation with premises, a state and operands that meet them. -/

namespace Sys2Proof.Tests

-- A `decide` waits for the kernel's check of all that stands before it; one after another they hold one thread, not one each.
set_option Elab.async false

open Sys2Proof.Machine

/-! ### Helpers -/

/-- A reset machine with known result registers. -/
def base : State := { State.reset with RES := ⟨0, 0, 0, 0⟩ }

/-- It with an instance in slot 0. -/
def holding (x : Slot) : State := setSlot 0 x base

/-- It with input samples. -/
def fed (x : Slot) (xs : List F) : State := hostLoad 0 xs (holding x)

def next? (o : Host.Outcome State Fault Refusal) : Option State :=
  match o with
  | .next t => some t
  | .fault _ => none
  | .refused _ => none

def refusal? (o : Host.Outcome State Fault Refusal) : Option Refusal :=
  match o with
  | .next _ => none
  | .fault _ => none
  | .refused r => some r

theorem exists_next_of_next? {o : Host.Outcome State Fault Refusal} (h : (next? o).isSome = true) :
    ∃ t, o = .next t := by
  cases o <;> simp [next?] at h ⊢

def f3 : F := 0x4008000000000000
def f4 : F := 0x4010000000000000
def f5 : F := 0x4014000000000000
def f6 : F := 0x4018000000000000
def f440 : F := 0x407B800000000000
def f880 : F := 0x408B800000000000
def eighth : F := 0x3FC0000000000000
def quarter : F := 0x3FD0000000000000
def threeQuarters : F := 0x3FE8000000000000
def oneAndHalf : F := 0x3FF8000000000000
def fInf : F := 0x7FF0000000000000
/-- The largest finite value. -/
def fMax : F := 0x7FEFFFFFFFFFFFFF

/-! ### Well-formedness: one ill-formed command for each check -/

theorem test_wellFormed_accepts :
    Instr.wellFormed 1 (.rvCfg 0 44100 fOne 0 [fOne] [fHalf] [fOne] [fHalf]) = true := by decide

theorem test_wellFormed_refuses_comb_delays :
    Instr.wellFormed 1 (.rvCfg 0 44100 fOne 0 [fOne, fOne] [fHalf] [] []) = false := by decide

theorem test_wellFormed_refuses_comb_gains :
    Instr.wellFormed 1 (.rvCfg 0 44100 fOne 0 [fOne] [fHalf, fHalf] [] []) = false := by decide

theorem test_wellFormed_refuses_allpass_delays :
    Instr.wellFormed 1 (.rvCfg 0 44100 fOne 0 [fOne] [fHalf] [fOne, fOne] []) = false := by decide

theorem test_wellFormed_refuses_allpass_gains :
    Instr.wellFormed 1 (.rvCfg 0 44100 fOne 0 [fOne] [fHalf] [] [fHalf, fHalf]) = false := by decide

/-- A count that no operand word can hold, whatever NFILT_MAX is. -/
theorem test_wellFormed_refuses_wide_count (nf : Nat) (l : List F) (h : 2 ^ 64 ≤ l.length) : arrayOk nf l = false := by
  have : ¬ l.length < 2 ^ 64 := by omega
  rw [arrayOk, decide_eq_false this, Bool.and_false]

/-! ### Decoding: a word written out from R90 to R94 for every command -/

/-- 0x10 to 0x13; P2, R100. -/
theorem test_decode_delay_line :
    decode 32 [0x1001000000000000, 0x4010000000000000, 0x00000000000003E8] = .ok (.dlCfg 1 f4 1000) ∧
    decode 32 [0x1101000000000000, 0x4018000000000000] = .ok (.dlWrite 1 f6) ∧
    decode 32 [0x1201000000000000, 0xBFF0000000000000] = .ok (.dlRead 1 0xBFF0000000000000) ∧
    decode 32 [0x13FF000000000000, 0x3FF0000000000000, 0x3FE0000000000000] = .ok (.dlProc 255 fOne fHalf) := by
  decide

/-- 0x20, 0x21, 0x28, 0x29; P1. -/
theorem test_decode_combs :
    decode 32 [0x2007000000000000, 0x4000000000000000, 0x3FE0000000000000, 0x00000000000003E8] =
      .ok (.fircCfg 7 fTwo fHalf 1000) ∧
    decode 32 [0x2107000000000000, 0x3FF0000000000000] = .ok (.fircProc 7 fOne) ∧
    decode 32 [0x2800000000000000, 0x4000000000000000, 0x3FE0000000000000, 0x00000000000003E8] =
      .ok (.iircCfg 0 fTwo fHalf 1000) ∧
    decode 32 [0x2900000000000000, 0x3FF0000000000000] = .ok (.iircProc 0 fOne) := by
  decide

/-- 0x30, 0x31; P5. -/
theorem test_decode_allpass :
    decode 32 [0x3000000000000000, 0x3FE0000000000000, 0x3FE6666666666666, 0x00000000000003E8] =
      .ok (.apCfg 0 fHalf 0x3FE6666666666666 1000) ∧
    decode 32 [0x3103000000000000, 0x3FE8000000000000] = .ok (.apProc 3 threeQuarters) := by
  decide

/-- 0x40, 0x41, 0x48, 0x49; P7. -/
theorem test_decode_oscillators :
    decode 32 [0x4006000000000000, 0x3FF0000000000000, 0x0000000000000000, 0x3FF0000000000000, 0x0000000000000004] =
      .ok (.lfoCfg 6 fOne fZero fOne 4) ∧
    decode 32 [0x4106000000000000] = .ok (.lfoTick 6) ∧
    decode 32 [0x4805000000000000, 0xBFD0000000000000] = .ok (.triCfg 5 0xBFD0000000000000) ∧
    decode 32 [0x4905000000000000] = .ok (.triTick 5) := by
  decide

/-- 0x50, 0x51, 0x52. -/
theorem test_decode_flanger :
    decode 32 [0x5002000000000000, 0x3FF0000000000000, 0x4008000000000000, 0x3FE0000000000000, 0x3FD0000000000000,
      0x000000000000AC44] = .ok (.flCfg 2 fOne f3 fHalf quarter 44100) ∧
    decode 32 [0x5102000000000000, 0x3FE0000000000000] = .ok (.flStep 2 fHalf) ∧
    decode 32 [0x5202000080000001] = .ok (.flBlock 2 0x80000001) := by
  decide

/-- 0x60 to 0x63; P6, R100. The four arrays have four different lengths. -/
theorem test_decode_reverb :
    decode 32 [0x6001000000000000, 0x00000000000003E8, 0x3FF0000000000000, 0x0000000000000002, 0x0000000000000003,
      0x0000000000000001, 0x0000000000000000, 0x0000000000000002, 0x0000000000000011, 0x0000000000000012,
      0x0000000000000013, 0x0000000000000021, 0x0000000000000041, 0x0000000000000042, 0x4100000000000000] =
      .ok (.rvCfg 1 1000 fOne 2 [0x11, 0x12, 0x13] [0x21] [] [0x41, 0x42]) ∧
    decode 32 [0x6101000000000000, 0x3FF0000000000000] = .ok (.rvStep 1 fOne) ∧
    decode 32 [0x6200000000000008] = .ok (.rvBlock 0 8) ∧
    decode 32 [0x6300010000000008] = .ok (.rvBlock2 0 1 8) := by
  decide

/-- 0x70, 0x71, 0x72; V64, R100. -/
theorem test_decode_tremolo :
    decode 32 [0x7003000000000000, 0x4014000000000000, 0x3FE999999999999A, 0x0000000000000000] =
      .ok (.trCfg 3 f5 0x3FE999999999999A 0) ∧
    decode 32 [0x7103000000000000, 0x3FF0000000000000] = .ok (.trStep 3 fOne) ∧
    decode 32 [0x720100000000AC44] = .ok (.trBlock 1 44100) := by
  decide

/-- 0x80 to 0x83, 0x88; P4, P7. -/
theorem test_decode_pitch_shifter :
    decode 32 [0x8002000000000000, 0x4010000000000000, 0x00000000000003E8] = .ok (.psCfg 2 f4 1000) ∧
    decode 32 [0x8102000000000000, 0xC028000000000000] = .ok (.psShift 2 0xC028000000000000) ∧
    decode 32 [0x8202000000000000, 0x3FF0000000000000] = .ok (.psStep 2 fOne) ∧
    decode 32 [0x830200000000000C] = .ok (.psBlock 2 12) ∧
    decode 32 [0x8800000000000000, 0x408B800000000000, 0x407B800000000000] = .ok (.semi f880 f440) := by
  decide

/-- 0x90; P3, R100. -/
theorem test_decode_norm :
    decode 32 [0x9000000000000008] = .ok (.norm .c0 8) ∧ decode 32 [0x9001000000000010] = .ok (.norm .c1 16) := by
  decide

/-- R96, R100, V59 to V61, V67: reserved opcodes, non-zero unused fields, truncated operands. -/
theorem test_decode_illegal :
    decode 32 [0x0000000000000000] = .error .illegal ∧ decode 32 [0xFF00000000000000] = .error .illegal ∧
    decode 32 [0x4103000000000001] = .error .illegal ∧ decode 32 [0x4103010000000000] = .error .illegal ∧
    decode 32 [0x5202010000000001] = .error .illegal ∧ decode 32 [0x6304050100000008] = .error .illegal ∧
    decode 32 [0x8801000000000000, 0x408B800000000000, 0x407B800000000000] = .error .illegal ∧
    decode 32 [0x9002000000000010] = .error .illegal ∧ decode 32 [0x9001010000000010] = .error .illegal ∧
    decode 32 [0x2900000000000000] = .error .illegal ∧ decode 32 [] = .error .illegal := by
  decide

/-- V43: counts above NFILT_MAX are E_CAPACITY although the stream holds no array; at NFILT_MAX the short stream is
E_ILLEGAL. -/
theorem test_decode_counts :
    decode 32 [0x6000000000000000, 1000, 0, 0, 33, 33, 0, 0] = .error .capacity ∧
    decode 32 [0x6000000000000000, 1000, 0, 0, 32, 32, 0, 0] = .error .illegal ∧
    decode 32 [0x6000000000000000, 1000, 0, 0, 33, 33, 0] = .error .illegal := by
  decide

/-- R64: a word's least significant byte comes first. -/
theorem test_image :
    wordsImage [0x1002000000000000, 0x000000000000BB80] = [0, 0, 0, 0, 0, 0, 2, 0x10, 0x80, 0xBB, 0, 0, 0, 0, 0, 0] ∧
    decodeImage 32 [3, 0, 0, 0, 0, 0, 0, 0x90] = .ok (.norm .c0 3) ∧
    decodeImage 32 [3, 0, 0, 0, 0, 0, 1, 0x90] = .ok (.norm .c1 3) ∧
    decodeImage 32 [3, 0, 0, 0, 1, 0, 1, 0x90] = .error .illegal ∧
    decodeImage 32 [3, 0, 0, 0, 0, 0, 1] = .error .illegal := by
  decide

/-- R98 and R99: the text of a command, and an expansion. -/
theorem test_text_and_pseudo :
    text (.rvBlock2 4 5 8) = "RV.BLOCK2 u4, v5, #8" ∧
    assemble (expand (.tremolo 1 f5 fHalf 1000 2)) =
      [0x7001000000000000, 0x4014000000000000, 0x3FE0000000000000, 0x00000000000003E8, 0x7201000000000002] := by
  decide

theorem test_decodeTableWord :
    decodeTableWord 64 0x4106000000000000 = some (.lfoTick 6) ∧
    decodeTableWord 128 0x3FF00000000000002900000000000000 = some (.iircProc 0 fOne) ∧
    decodeTableWord 64 0x2900000000000000 = some (.iircProc 0 fZero) := by
  decide +kernel

/-! ### The arithmetic -/

/-- Ties to even, gradual underflow, overflow, signed zeros (10_state R22). -/
theorem test_float_rounding :
    fAdd 0x4340000000000000 0x3FF0000000000000 = 0x4340000000000000 ∧
    fAdd 0x4340000000000001 0x3FF0000000000000 = 0x4340000000000002 ∧
    fMul 0x0010000000000001 fHalf = 0x0008000000000000 ∧ fMul 0x0000000000000001 fHalf = 0x0000000000000000 ∧
    fAdd 0x7FEFFFFFFFFFFFFF 0x7FEFFFFFFFFFFFFF = fInf ∧ fSub fOne fOne = fZero ∧
    fAdd 0x8000000000000000 0x8000000000000000 = 0x8000000000000000 ∧ fDiv fOne f3 = 0x3FD5555555555555 := by
  decide +kernel

/-- 40_delay_line R122 and V1 to V8: two roundings, truncation. -/
theorem test_msToSamples :
    msToSamples (2 ^ 24) 0x4049000000000000 44100 = .ok 2205 ∧ msToSamples (2 ^ 24) 0x3FB999999999999A 30000 = .ok 3 ∧
    msToSamples (2 ^ 24) fOne 1000 = .ok 1 ∧ msToSamples (2 ^ 24) 0x3FFFFBE76C8B4396 1000 = .ok 1 ∧
    msToSamples (2 ^ 24) 0x3F947AE147AE147B 44100 = raise .zeroDelay ∧
    msToSamples (2 ^ 24) 0xC014000000000000 1000 = raise .zeroDelay ∧
    msToSamples (2 ^ 24) 0x41CDCD6500000000 48000 = raise .capacity := by
  decide +kernel

/-! ### Stepping and faults -/

/-- V62, V63: an empty slot, and an index out of range: STATUS, FCI and `pc`. -/
theorem test_step_slot_fault :
    (next? (step (State.resetWith [0x2903000000000000, 0x3FF0000000000000]))).map (fun t => (t.STATUS, t.FCI, t.pc)) =
      some (0x00000601, 0, 0) ∧
    (next? (step (State.resetWith [0x4110000000000000]))).map (fun t => t.STATUS) = some 0x00000601 := by
  decide +kernel

/-- V59, V64, V65: the three other faults of a first command. -/
theorem test_step_other_faults :
    (next? (step (State.resetWith [0]))).map (fun t => (t.STATUS, t.FCI, t.pc)) = some (0x00000701, 0, 0) ∧
    (next? (step (State.resetWith [0x7003000000000000, 0x4014000000000000, 0x3FE999999999999A, 0]))).map
      (fun t => t.STATUS) = some 0x00000401 ∧
    (next? (step (State.resetWith [0x1000000000000000, 0x41CDCD6500000000, 0x000000000000BB80]))).map
      (fun t => t.STATUS) = some 0x00000801 := by
  decide +kernel

/-- V66: refused whatever the slot holds; V68: idle at once. -/
theorem test_step_refused :
    refusal? (step (State.resetWith [0x1100000000000000, 0x7FF0000000000000])) = some .nonFiniteOperand ∧
    refusal? (step State.reset) = some .idle := by
  decide +kernel

/-- P5: after the fault entry no step is possible. -/
theorem test_step_faulted :
    step (faultEntry .zeroDelay (State.resetWith [0x4103000000000000])) = .fault .faulted := rfl

theorem test_withFetchWord :
    (next? (step (State.reset.withFetchWord 128 0x3FF00000000000004805000000000000))).map (fun t => t.pc) = none ∧
    (next? (step (State.reset.withFetchWord 128 0x3FD00000000000004805000000000000))).map (fun t => (t.pc, t.U[5]?)) =
      some (2, some (.tri ⟨fZero, quarter⟩)) := by
  decide +kernel

/-! ### One step of each command -/

/-- V8, and T12: `q = 0.882`. -/
theorem test_dlCfg :
    (next? (exec (.dlCfg 0 0x3FFFFBE76C8B4396 1000) base)).map (fun t => (t.pc, t.U[0]?)) =
      some (3, some (.dl ⟨1, [fZero], 0⟩)) ∧
    (next? (exec (.dlCfg 0 0x3F947AE147AE147B 44100) base)).map (fun t => (t.STATUS, t.U[0]?)) =
      some (0x00000101, some .empty) := by
  decide +kernel

/-- P2 from the fourth write to the fifth: the cursor wraps. -/
theorem test_dlWrite :
    (next? (exec (.dlWrite 0 f4) (holding (.dl ⟨4, [fOne, fTwo, f3, fZero], 3⟩)))).map (fun t => (t.pc, t.U[0]?)) =
      some (2, some (.dl ⟨4, [fOne, fTwo, f3, f4], 0⟩)) := by
  decide +kernel

/-- V13: index wrap; V17 (offset 9.0): two additions. -/
theorem test_dlRead :
    (next? (exec (.dlRead 0 0x4002000000000000) (holding (.dl ⟨4, [f5, f6, f3, f4], 2⟩)))).map (fun t => t.RES.r0) =
      some 0x4013000000000000 ∧
    (next? (exec (.dlRead 0 0x4022000000000000) (holding (.ap ⟨⟨4, [f5, f6, f3, f4], 2⟩, fHalf⟩)))).map
      (fun t => t.RES.r0) = some f6 := by
  decide +kernel

/-- V18, the fourth input: the impulse comes out and its half is stored. -/
theorem test_dlProc :
    (next? (exec (.dlProc 0 fZero fHalf) (holding (.dl ⟨3, [fOne, fZero, fZero], 0⟩)))).map
      (fun t => (t.RES.r0, t.U[0]?)) = some (fOne, some (.dl ⟨3, [fHalf, fZero, fZero], 1⟩)) := by
  decide +kernel

/-- V21. -/
theorem test_fircCfg :
    (next? (exec (.fircCfg 0 fTwo fHalf 1000) base)).map (fun t => (t.pc, t.U[0]?)) =
      some (4, some (.firc ⟨⟨2, [fZero, fZero], 0⟩, fHalf⟩)) := by
  decide +kernel

/-- V21, the third input: the element read before the write is returned. -/
theorem test_fircProc :
    (next? (exec (.fircProc 0 fZero) (holding (.firc ⟨⟨2, [fOne, fZero], 0⟩, fHalf⟩)))).map
      (fun t => (t.RES.r0, t.U[0]?)) = some (fOne, some (.firc ⟨⟨2, [fHalf, fZero], 1⟩, fHalf⟩)) := by
  decide +kernel

/-- V23: a gain of 1.0 is not rejected. -/
theorem test_iircCfg :
    (next? (exec (.iircCfg 0 fOne fOne 1000) base)).map (fun t => (t.pc, t.U[0]?)) =
      some (4, some (.iirc ⟨⟨1, [fZero], 0⟩, fOne⟩)) := by
  decide +kernel

/-- P1, the command at 16, and V24: a FIRC slot is not an IIRC slot. -/
theorem test_iircProc :
    (next? (exec (.iircProc 0 fZero) (holding (.iirc ⟨⟨2, [quarter, fZero], 0⟩, fHalf⟩)))).map
      (fun t => (t.RES.r0, t.U[0]?)) = some (quarter, some (.iirc ⟨⟨2, [eighth, fZero], 1⟩, fHalf⟩)) ∧
    (next? (exec (.iircProc 0 fZero) (holding (.firc ⟨⟨2, [quarter, fZero], 0⟩, fHalf⟩)))).map (fun t => t.STATUS) =
      some 0x00000601 := by
  decide +kernel

/-- V27; P5, the command at 5. -/
theorem test_apCfg :
    (next? (exec (.apCfg 0 fOne fHalf 1000) base)).map (fun t => (t.pc, t.U[0]?)) =
      some (4, some (.ap ⟨⟨1, [fZero], 0⟩, fHalf⟩)) ∧
    (next? (exec (.apCfg 0 fHalf fHalf 1000) (holding (.dl ⟨1, [fOne], 0⟩)))).map (fun t => (t.STATUS, t.U[0]?)) =
      some (0x00000101, some (.dl ⟨1, [fOne], 0⟩)) := by
  decide +kernel

/-- V27, both calls. -/
theorem test_apProc :
    (next? (exec (.apProc 0 fHalf) (holding (.ap ⟨⟨1, [fZero], 0⟩, fHalf⟩)))).map (fun t => (t.RES.r0, t.U[0]?)) =
      some (0xBFD0000000000000, some (.ap ⟨⟨1, [fHalf], 0⟩, fHalf⟩)) ∧
    (next? (exec (.apProc 0 threeQuarters) (holding (.ap ⟨⟨1, [fHalf], 0⟩, fHalf⟩)))).map
      (fun t => (t.RES.r0, t.U[0]?)) = some (fZero, some (.ap ⟨⟨1, [fOne], 0⟩, fHalf⟩)) := by
  decide +kernel

/-- V29 (`step = π/2`), V31. -/
theorem test_lfoCfg :
    (next? (exec (.lfoCfg 0 fOne fZero fOne 4) base)).map (fun t => (t.pc, t.U[0]?)) =
      some (5, some (.lfo ⟨fZero, 0x3FF921FB54442D18, fZero, fOne⟩)) ∧
    (next? (exec (.lfoCfg 0 fOne fZero fOne 0) base)).map (fun t => t.STATUS) = some 0x00000401 := by
  decide +kernel

/-- V30; the first tick of V29: the value comes from the phase before the advance. -/
theorem test_lfoTick :
    (next? (exec (.lfoTick 0) (holding (.lfo ⟨fZero, fZero, f3, fTwo⟩)))).map (fun t => (t.pc, t.RES.r0)) =
      some (1, f3) ∧
    (next? (exec (.lfoTick 0) (holding (.lfo ⟨fZero, 0x3FF921FB54442D18, fZero, fOne⟩)))).map
      (fun t => (t.RES.r0, t.U[0]?)) =
      some (fZero, some (.lfo ⟨0x3FF921FB54442D18, 0x3FF921FB54442D18, fZero, fOne⟩)) := by
  decide +kernel

/-- V29, the advances after tick 4 (equal to TWO_PI, not reduced) and after tick 5. -/
theorem test_lfoAdvance :
    lfoAdvance ⟨0x4012D97C7F3321D2, 0x3FF921FB54442D18, fZero, fOne⟩ = 0x401921FB54442D18 ∧
    lfoAdvance ⟨0x401921FB54442D18, 0x3FF921FB54442D18, fZero, fOne⟩ = 0x3FF921FB54442D18 := by
  decide +kernel

/-- P7, and V35: a rate of magnitude 1.0 is refused. -/
theorem test_triCfg :
    (next? (exec (.triCfg 5 0xBFD0000000000000) base)).map (fun t => (t.pc, t.U[5]?)) =
      some (2, some (.tri ⟨fZero, 0xBFD0000000000000⟩)) ∧
    refusal? (exec (.triCfg 5 fOne) base) = some .phasorRate := by
  decide +kernel

/-- P7, the ticks at 2 and 3: a negative rate wraps upward. -/
theorem test_triTick :
    (next? (exec (.triTick 0) (holding (.tri ⟨fZero, 0xBFD0000000000000⟩)))).map (fun t => (t.RES, t.U[0]?)) =
      some (⟨fZero, fOne, fZero, fHalf⟩, some (.tri ⟨threeQuarters, 0xBFD0000000000000⟩)) ∧
    (next? (exec (.triTick 0) (holding (.tri ⟨threeQuarters, 0xBFD0000000000000⟩)))).map (fun t => t.RES) =
      some ⟨fHalf, fHalf, threeQuarters, quarter⟩ := by
  decide +kernel

/-- V34. -/
theorem test_phasor :
    phasorAdvance 0x3FECCCCCCCCCCCCD 0x3FB999999999999A = fZero ∧ phasorAdvance fZero 0xBBC79CA10C924223 = fOne ∧
    tri 0x3BC79CA10C924223 = fZero := by
  decide +kernel

/-- V36, V39. -/
theorem test_flCfg :
    (next? (exec (.flCfg 0 fOne f3 0x406F400000000000 fHalf 1000) base)).map (fun t => (t.pc, t.U[0]?)) =
      some (6, some (.fl ⟨⟨3, [fZero, fZero, fZero], 0⟩, ⟨fZero, 0x3FF921FB54442D18, fTwo, fOne⟩, fHalf, 1, 3⟩)) ∧
    refusal? (exec (.flCfg 0 0xBFF0000000000000 f3 fOne fHalf 1000) base) = some .negativeDelay := by
  decide +kernel

/-- V37, the fourth input: the impulse, half as loud, three samples later. -/
theorem test_flStep :
    (next? (exec (.flStep 0 fZero)
      (holding (.fl ⟨⟨3, [fOne, fZero, fZero], 0⟩, ⟨fZero, fZero, f3, fZero⟩, fHalf, 3, 3⟩)))).map
      (fun t => (t.RES.r0, t.U[0]?)) =
      some (fHalf, some (.fl ⟨⟨3, [fZero, fZero, fZero], 1⟩, ⟨fZero, fZero, f3, fZero⟩, fHalf, 3, 3⟩)) := by
  decide +kernel

/-- V37 as a block; its peak is 1.0, so it is not divided. -/
theorem test_flBlock :
    (next? (exec (.flBlock 0 4) (fed (.fl ⟨⟨3, [fZero, fZero, fZero], 0⟩, ⟨fZero, fZero, f3, fZero⟩, fHalf, 3, 3⟩)
      [fOne, fZero, fZero, fZero]))).map (fun t => (t.pc, t.YMEM0, t.STATUS)) =
      some (1, [(0, fOne), (1, fZero), (2, fZero), (3, fHalf)], 0) := by
  decide +kernel

/-- V40, T13. -/
theorem test_rvCfg :
    (next? (exec (.rvCfg 0 1000 fHalf 0 [fTwo, f3] [fHalf, quarter] [fOne] [fHalf]) base)).map
      (fun t => (t.pc, t.U[0]?)) =
      some (14, some (.rv ⟨[⟨⟨2, [fZero, fZero], 0⟩, fHalf⟩, ⟨⟨3, [fZero, fZero, fZero], 0⟩, quarter⟩],
        [⟨⟨1, [fZero], 0⟩, fHalf⟩], fHalf, fHalf⟩)) ∧
    (next? (exec (.rvCfg 0 1000 fOne 0 [fTwo, f3] [fHalf] [] []) base)).map (fun t => (t.STATUS, t.U[0]?)) =
      some (0x00000201, some .empty) := by
  decide +kernel

/-- V40, the third input. -/
theorem test_rvStep :
    (next? (exec (.rvStep 0 fZero)
      (holding (.rv ⟨[⟨⟨2, [fOne, fZero], 0⟩, fHalf⟩, ⟨⟨3, [fOne, fZero, fZero], 2⟩, quarter⟩],
        [⟨⟨1, [fZero], 0⟩, fHalf⟩], fHalf, fHalf⟩)))).map (fun t => t.RES.r0) = some 0xBFC0000000000000 := by
  decide +kernel

/-- P3, the command at 14. -/
theorem test_rvBlock :
    (next? (exec (.rvBlock 0 8) (fed (.rv ⟨[⟨⟨2, [fZero, fZero], 0⟩, fHalf⟩, ⟨⟨3, [fZero, fZero, fZero], 0⟩, fHalf⟩],
        [⟨⟨1, [fZero], 0⟩, fHalf⟩], fHalf, fOne⟩) [fOne, fZero, fZero, fZero, fOne, fZero, fZero, fZero]))).map
      (fun t => (t.STATUS, t.YMEM0.map Prod.snd, t.YMEM1)) =
      some (0x00000002, [0x3FE642C8590B2164, 0x0000000000000000, 0xBFC642C8590B2164, 0x3FB642C8590B2164,
        0x3FF0000000000000, 0x3FD4DE9BD37A6F4E, 0xBFC21642C8590B21, 0x3FD74DE9BD37A6F5], []) := by
  decide +kernel

/-- P6, the command at 20. -/
theorem test_rvBlock2 :
    (next? (exec (.rvBlock2 0 1 8) (setSlot 1 (.rv ⟨[⟨⟨3, [fZero, fZero, fZero], 0⟩, fHalf⟩], [], fOne, fOne⟩)
      (fed (.rv ⟨[⟨⟨2, [fZero, fZero], 0⟩, fHalf⟩], [], fOne, fOne⟩)
        [fOne, fZero, fZero, fZero, fZero, fZero, fOne, fZero])))).map
      (fun t => (t.STATUS, t.YMEM0.map Prod.snd, t.YMEM1.map Prod.snd)) =
      some (0x00000006,
        [0x3FE999999999999A, fZero, 0x3FE999999999999A, fZero, 0x3FD999999999999A, fZero, fOne, fZero],
        [0x3FE5555555555555, fZero, fZero, 0x3FE5555555555555, fZero, fZero, fOne, fZero]) := by
  decide +kernel

/-- T7. -/
theorem test_trCfg :
    (next? (exec (.trCfg 0 f5 0x3FE999999999999A 44100) base)).map (fun t => (t.pc, t.U[0]?)) =
      some (4, some (.tr ⟨⟨fZero, 0x3F4757DEDE765A6A, 0x3FE3333333333333, 0x3FD999999999999A⟩⟩)) := by
  decide +kernel

/-- V47, the second input. -/
theorem test_trStep :
    (next? (exec (.trStep 0 0xC000000000000000) (holding (.tr ⟨⟨fZero, fZero, threeQuarters, quarter⟩⟩)))).map
      (fun t => t.RES.r0) = some 0xBFF8000000000000 := by
  decide +kernel

/-- V47 as a block: the peak is 1.5. -/
theorem test_trBlock :
    (next? (exec (.trBlock 0 2)
      (fed (.tr ⟨⟨fZero, fZero, threeQuarters, quarter⟩⟩) [fOne, 0xC000000000000000]))).map
      (fun t => (t.STATUS, t.YMEM0)) = some (0x00000002, [(0, fHalf), (1, 0xBFF0000000000000)]) := by
  decide +kernel

/-- V48, V52. -/
theorem test_psCfg :
    (next? (exec (.psCfg 0 f4 1000) base)).map (fun t => (t.pc, t.U[0]?)) =
      some (3, some (.ps ⟨4, ⟨8, List.replicate 8 fZero, 0⟩, ⟨fZero, fZero⟩, fOne⟩)) ∧
    (next? (exec (.psCfg 0 fHalf 1000) base)).map (fun t => t.STATUS) = some 0x00000101 := by
  decide +kernel

/-- V48 and V49: one octave down and one up (EXP2_ONE). -/
theorem test_psShift :
    (next? (exec (.psShift 0 0xC028000000000000)
      (holding (.ps ⟨4, ⟨8, List.replicate 8 fZero, 0⟩, ⟨fZero, fZero⟩, fOne⟩)))).map (fun t => (t.pc, t.U[0]?)) =
      some (2, some (.ps ⟨4, ⟨8, List.replicate 8 fZero, 0⟩, ⟨fZero, eighth⟩, fHalf⟩)) ∧
    (next? (exec (.psShift 0 fTwelve)
      (holding (.ps ⟨4, ⟨8, List.replicate 8 fZero, 0⟩, ⟨quarter, fZero⟩, fOne⟩)))).map (fun t => t.U[0]?) =
      some (some (.ps ⟨4, ⟨8, List.replicate 8 fZero, 0⟩, ⟨quarter, 0xBFD0000000000000⟩, fTwo⟩)) := by
  decide +kernel

/-- V48, the second input. -/
theorem test_psStep :
    (next? (exec (.psStep 0 fTwo)
      (holding (.ps ⟨4, ⟨8, fOne :: List.replicate 7 fZero, 1⟩, ⟨eighth, eighth⟩, fHalf⟩)))).map
      (fun t => (t.RES.r0, t.U[0]?)) =
      some (eighth, some (.ps ⟨4, ⟨8, fOne :: fTwo :: List.replicate 6 fZero, 2⟩, ⟨quarter, eighth⟩, fHalf⟩)) := by
  decide +kernel

/-- P4, its first three samples. -/
theorem test_psBlock :
    (next? (exec (.psBlock 0 3) (fed (.ps ⟨4, ⟨8, List.replicate 8 fZero, 0⟩, ⟨fZero, eighth⟩, fHalf⟩)
      [0x3FB0000000000000, eighth, 0x3FC8000000000000]))).map (fun t => (t.STATUS, t.YMEM0)) =
      some (0, [(0, fZero), (1, 0x3F80000000000000), (2, 0x3FB0000000000000)]) := by
  decide +kernel

/-- T11 (LOG2_ONE), V54. -/
theorem test_semi :
    (next? (exec (.semi f880 f440) base)).map (fun t => (t.pc, t.RES)) = some (3, ⟨fTwelve, 0, 0, 0⟩) ∧
    refusal? (exec (.semi fZero f440) base) = some .logDomain := by
  decide +kernel

/-- V55 and V56, on the two columns. -/
theorem test_norm :
    (next? (exec (.norm .c1 4)
      { base with YMEM1 := [(0, fHalf), (1, 0xC000000000000000), (2, oneAndHalf), (3, f3)] })).map
      (fun t => (t.STATUS, t.YMEM1)) =
      some (0x00000004, [(0, 0x3FC5555555555555), (1, 0xBFE5555555555555), (2, fHalf), (3, fOne)]) ∧
    (next? (exec (.norm .c0 3)
      { base with STATUS := 0x00000002, YMEM0 := [(0, fHalf), (1, 0xBFF0000000000000), (2, quarter)] })).map
      (fun t => (t.pc, t.STATUS, t.YMEM0)) =
      some (1, 0, [(0, fHalf), (1, 0xBFF0000000000000), (2, quarter)]) := by
  decide +kernel

/-! ### The host's moves -/

/-- R70, R75. -/
theorem test_host :
    (hostMove (.writeX 3 fOne) base).map (fun t => hostReadX 3 t) = some (some fOne) ∧
    hostMove (.writeX (2 ^ 24) fOne) base = none ∧
    (hostChain 2 { base with YMEM0 := [(0, fHalf), (1, fTwo)] }).map (fun t => t.XMEM) =
      some [(0, fHalf), (1, fTwo)] ∧
    hostChain 2 { base with YMEM0 := [(0, fHalf)] } = none ∧ idle State.reset = true := by
  decide +kernel

/-! ### Witnesses: the premises of each obligation, met by concrete values -/

/-- A machine whose slot 0 is any instance and whose input cell 0 is 1.0. -/
def comb : CombState := ⟨⟨2, [fOne, fZero], 0⟩, fHalf⟩
def flanger : FLState := ⟨⟨3, [fOne, fZero, fZero], 0⟩, ⟨fZero, fZero, f3, fZero⟩, fHalf, 3, 3⟩
def reverb : RVState := ⟨[⟨⟨2, [fOne, fZero], 0⟩, fHalf⟩], [⟨⟨1, [fZero], 0⟩, fHalf⟩], fOne, fHalf⟩
def tremolo : TRState := ⟨⟨fZero, fZero, threeQuarters, quarter⟩⟩
def shifter : PSState := ⟨2, ⟨4, [fOne, fTwo, fZero, fZero], 2⟩, ⟨fZero, quarter⟩, fHalf⟩

theorem witness_DecodeOfEncodeIsTheCommand :
    Instr.wellFormed 2 (.rvCfg 7 44100 fOne 3 [fOne, fTwo] [fHalf, fHalf] [] [fOne]) = true := by decide

theorem witness_EncodeOfDecodeIsTheWords :
    decode 2 [0x6007000000000000, 44100, fOne, 3, 1, 1, 0, 0, fTwo, fHalf, 0xFFFFFFFFFFFFFFFF] =
      .ok (.rvCfg 7 44100 fOne 3 [fTwo] [fHalf] [] []) := by decide

theorem witness_HeaderSelectsItsTableRow :
    (0x90010000FFFFFFFF : Word) &&& formatMask (opcodeFormat .norm) = opcodeMatch .norm := by decide

theorem witness_UndecodableStreamsAreRejected :
    decodeHeader 0x9002000000000010 = none ∧
    (Instr.wellFormed 32 (.rvCfg 0 44100 fOne 0 [fOne] [fHalf] [] []) = true ∧
      9 < 1 + nops (.rvCfg 0 44100 fOne 0 [fOne] [fHalf] [] [])) ∧
    (decodeHeader 0x6000000000000000 = some .rvCfg ∧ 32 < (33 : Word).toNat) := by decide

theorem witness_StepRunsTheDecodedCommand :
    statusFault (State.resetWith [0x4103000000000000]).STATUS = false ∧
    decode (State.resetWith [0x4103000000000000]).params.nfiltMax
      ((State.resetWith [0x4103000000000000]).CMD.drop (State.resetWith [0x4103000000000000]).pc) = .ok (.lfoTick 3) := by
  decide

theorem witness_StepsWithoutADecodedCommand :
    statusFault (faultEntry .slot State.reset).STATUS = true ∧
    (statusFault State.reset.STATUS = false ∧ State.reset.pc = State.reset.CMD.length) ∧
    (statusFault (State.resetWith [0]).STATUS = false ∧ (State.resetWith [0]).pc < (State.resetWith [0]).CMD.length ∧
      decode 32 [0] = .error .illegal ∧ decode 32 [0x6000000000000000, 1, 0, 0, 33, 33, 0, 0] = .error .capacity) := by
  decide

/-- CommandsCompleteOrFaultAtomically, InputsAndStreamAreNeverWritten: a completing and a faulting command. -/
theorem witness_next_states :
    (∃ t, exec (.iircProc 0 fOne) (holding (.iirc comb)) = .next t) ∧ ∃ t, exec (.iircProc 0 fOne) base = .next t :=
  ⟨exists_next_of_next? (by decide +kernel), exists_next_of_next? (by decide +kernel)⟩

theorem witness_HostResetStartsARun : decode 32 [0x4103000000000000] = .ok (.lfoTick 3) := by decide

/-- Slot 1 beside a command on slot 0. -/
theorem witness_OtherSlotsAreUnchanged :
    (∃ t, exec (.iircProc 0 fOne) (holding (.iirc comb)) = .next t) ∧
    ∀ u ∈ changedSlots (.iircProc 0 fOne), 1 ≠ u.toNat :=
  ⟨exists_next_of_next? (by decide +kernel), by decide⟩

theorem witness_OtherRegistersAreUnchanged :
    ((∃ t, exec (.dlWrite 0 fOne) (holding (.iirc comb)) = .next t) ∧ resultCount (.dlWrite 0 fOne) = 0) ∧
    ((∃ t, exec (.iircProc 0 fOne) (holding (.iirc comb)) = .next t) ∧ resultCount (.iircProc 0 fOne) = 1) ∧
    ((∃ t, exec (.flBlock 0 1) (fed (.fl flanger) [fOne]) = .next t) ∧ outputLen .c1 (.flBlock 0 1) = none) :=
  ⟨⟨exists_next_of_next? (by decide +kernel), rfl⟩, ⟨exists_next_of_next? (by decide +kernel), rfl⟩,
    exists_next_of_next? (by decide +kernel), rfl⟩

/-- The first cell after the block, and a cell of the column that the block does not name. -/
theorem witness_OtherOutputCellsAreUnchanged :
    (∃ t, exec (.flBlock 0 1) (fed (.fl flanger) [fOne]) = .next t) ∧
    (∀ n ∈ outputLen .c0 (.flBlock 0 1), n ≤ 1) ∧ (∀ n ∈ outputLen .c1 (.flBlock 0 1), n ≤ 0) :=
  ⟨exists_next_of_next? (by decide +kernel), by simp [outputLen], by simp [outputLen]⟩

theorem witness_SettingsChangeOnlyByConfiguration :
    ((∃ t, exec (.flStep 0 fOne) (holding (.fl flanger)) = .next t) ∧ isCfg (.flStep 0 fOne) = false ∧
      ∀ u x, Instr.flStep 0 fOne ≠ .psShift u x) ∧
    ((∃ t, exec (.psShift 0 fZero) (holding (.ps shifter)) = .next t) ∧ isCfg (.psShift 0 fZero) = false ∧
      (holding (.ps shifter)).U[0]? = some (.ps shifter)) :=
  ⟨⟨exists_next_of_next? (by decide +kernel), rfl, by simp⟩, exists_next_of_next? (by decide +kernel), rfl, rfl⟩

/-- DelayAndFilterConfigurationsComplete, at both ends of its range of delays. -/
theorem witness_DelayAndFilterConfigurationsComplete :
    (0 : Byte).toNat < base.U.length ∧ fFinite fOne = true ∧ 0 < (1000 : Word).toNat ∧ (1000 : Word).toNat < 2 ^ 53 ∧
    fLt (fDiv (fMul fOne (toF 1000)) fThousand) fOne = false ∧
    fLt (toF base.params.capMax) (fDiv (fMul fOne (toF 1000)) fThousand) = false ∧
    fLt (fDiv (fMul (toF (2 ^ 24)) (toF 1000)) fThousand) fOne = false ∧
    fLt (toF base.params.capMax) (fDiv (fMul (toF (2 ^ 24)) (toF 1000)) fThousand) = false := by
  decide +kernel

theorem witness_LfoAndTremoloConfigurationsComplete :
    (15 : Byte).toNat < base.U.length ∧ fFinite f5 = true ∧ fFinite fHalf = true ∧
    0 < (1 : Word).toNat ∧ (9007199254740991 : Word).toNat < 2 ^ 53 ∧
    fFinite (fDiv (fMul (fMul fTwo Config.PI) f5) (toF 1)) = true ∧
    fFinite (fDiv (fMul (fMul fTwo Config.PI) f5) (toF 9007199254740991)) = true := by
  decide +kernel

/-- LfoAndTremoloConfigurationsComplete and FlangerConfigurationCompletes: a step that overflows. -/
theorem witness_step_not_finite :
    fFinite fMax = true ∧ fFinite (fDiv (fMul (fMul fTwo Config.PI) fMax) (toF 1)) = false ∧
    fFinite (fDiv (fMul (fMul fTwo Config.PI) fMax) (toF 1000)) = false := by
  decide +kernel

/-- The largest rate below 1.0 and the smallest that is refused. -/
theorem witness_TriangularConfigurationCompletes :
    (0 : Byte).toNat < base.U.length ∧ (fFinite 0xBFEFFFFFFFFFFFFF = true ∧ fLt (fAbs 0xBFEFFFFFFFFFFFFF) fOne = true) ∧
    (fFinite 0xBFF0000000000000 = true ∧ fLe fOne (fAbs 0xBFF0000000000000) = true) := by
  decide +kernel

/-- The smallest minimum, 0, and the smallest maximum, 1 sample. -/
theorem witness_FlangerConfigurationCompletes :
    let qmax := fDiv (fMul fOne (toF 1000)) fThousand
    let qmin := fDiv (fMul fZero (toF 1000)) fThousand
    (0 : Byte).toNat < base.U.length ∧ fFinite fOne = true ∧ fFinite fZero = true ∧ fFinite fHalf = true ∧
    0 < (1000 : Word).toNat ∧ (1000 : Word).toNat < 2 ^ 53 ∧
    fLt qmax fOne = false ∧ fLt (toF base.params.capMax) qmax = false ∧
    fLt qmin fZero = false ∧ fLt (toF base.params.capMax) qmin = false ∧
    fFinite (fDiv (fAdd (toF (fTrunc qmin).toNat) (toF (fTrunc qmax).toNat)) fTwo) = true ∧
    fFinite (fDiv (fSub (toF (fTrunc qmax).toNat) (toF (fTrunc qmin).toNat)) fTwo) = true ∧
    fFinite (fDiv (fMul (fMul fTwo Config.PI) fOne) (toF 1000)) = true := by
  decide +kernel

/-- The milliseconds of 1000 Hz, as samples. -/
def q1000 (ms : F) : F := fDiv (fMul ms (toF 1000)) fThousand

/-- One sample of spread at 1000 Hz. -/
def oneMs : F := fDiv (fMul (toF 1) fThousand) (toF 1000)

theorem witness_ReverbConfigurationCompletes :
    (0 : Byte).toNat < base.U.length ∧ operandsOk (.rvCfg 0 1000 fOne 1 [fTwo, f3] [fHalf, fHalf] [fOne] [fHalf]) base = true ∧
    0 < (1000 : Word).toNat ∧ [fTwo, f3].length = [fHalf, fHalf].length ∧ [fOne].length = [fHalf].length ∧
    fLt (q1000 (fAdd fTwo oneMs)) fOne = false ∧ fLt (toF base.params.capMax) (q1000 (fAdd fTwo oneMs)) = false ∧
    fLt (q1000 (fAdd f3 oneMs)) fOne = false ∧ fLt (toF base.params.capMax) (q1000 (fAdd f3 oneMs)) = false ∧
    fLt (q1000 fOne) fOne = false ∧ fLt (toF base.params.capMax) (q1000 fOne) = false := by
  decide +kernel

/-- The longest window: half of CAP_MAX. -/
theorem witness_PitchShifterConfigurationCompletes :
    let q := fDiv (fMul (toF (2 ^ 23)) (toF 1000)) fThousand
    (0 : Byte).toNat < base.U.length ∧ fFinite (toF (2 ^ 23)) = true ∧ 0 < (1000 : Word).toNat ∧
    (1000 : Word).toNat < 2 ^ 53 ∧ fLt q fOne = false ∧ fLt (toF base.params.capMax) q = false ∧
    2 * (fTrunc q).toNat ≤ base.params.capMax := by
  decide +kernel

/-- An octave up over one sample gives the rate -1.0, which is refused; over two samples it completes. -/
theorem witness_PitchShiftSetsFactorAndRate :
    ((holding (.ps shifter)).U[(0 : Byte).toNat]? = some (.ps shifter) ∧ fFinite fTwelve = true ∧
      fFinite (Config.EXP2 (fDiv fTwelve fTwelve)) = true ∧
      fFinite (fDiv (fSub fOne (Config.EXP2 (fDiv fTwelve fTwelve))) (toF shifter.W)) = true ∧
      fLt (fAbs (fDiv (fSub fOne (Config.EXP2 (fDiv fTwelve fTwelve))) (toF shifter.W))) fOne = true) ∧
    (fFinite (fDiv (fSub fOne (Config.EXP2 (fDiv fTwelve fTwelve))) (toF 1)) = true ∧
      fLe fOne (fAbs (fDiv (fSub fOne (Config.EXP2 (fDiv fTwelve fTwelve))) (toF 1))) = true) := by
  decide +kernel

/-- A window of 0, which no run reaches, makes a rate that is not finite; so do long shifts for some EXP2. -/
theorem witness_PitchShiftSetsFactorAndRate_not_finite :
    fFinite (fDiv (fSub fOne (Config.EXP2 (fDiv fTwelve fTwelve))) (toF 0)) = false := by
  decide +kernel

theorem witness_DelayWriteStoresAtTheCursor :
    fFinite fOne = true ∧ (holding (.dl comb.d)).U[(0 : Byte).toNat]? = some (.dl comb.d) ∧
    (holding (.firc comb)).U[(0 : Byte).toNat]? = some (.firc comb) ∧
    (holding (.iirc comb)).U[(0 : Byte).toNat]? = some (.iirc comb) ∧
    (holding (.ap comb)).U[(0 : Byte).toNat]? = some (.ap comb) := by
  decide +kernel

/-- Offset 2.0 at cursor 0 of a line of two: one addition, to position 0. -/
theorem reads_comb : Reads comb.d fTwo fOne :=
  ⟨by decide +kernel, by decide +kernel, 1, by decide +kernel, by decide +kernel, by decide +kernel, by decide +kernel,
    by decide +kernel⟩

theorem witness_DelayReadInterpolates :
    fFinite fTwo = true ∧ (holding (.iirc comb)).U[(0 : Byte).toNat]? = some (.iirc ⟨comb.d, fHalf⟩) ∧
    Reads comb.d fTwo fOne ∧ fFinite (fSub (toF comb.d.cur) 0x4330000000000001) = true ∧
    fLt (fSub (toF comb.d.cur) 0x4330000000000001) fWrapLimit = true :=
  ⟨by decide, rfl, reads_comb, by decide +kernel, by decide +kernel⟩

/-- A position and an interpolated value that are not finite (in states that no run reaches). -/
theorem witness_DelayReadInterpolates_not_finite :
    fFinite (fSub (toF (2 ^ 1024)) fTwo) = false ∧ 0 ≤ wrapFuel ∧ fFinite (fSub (toF 0) fZero) = true ∧
    fLt (fSub (toF 0) fZero) fWrapLimit = false ∧ fLt (fSub (toF 0) fZero) fZero = false ∧
    fFinite (interpolate ⟨1, [fInf], 0⟩ (fSub (toF 0) fZero)) = false := by
  decide +kernel

/-- DelayProcReturnsTheStoredElement and CombsReturnTheStoredElement. -/
theorem witness_stored_element_commands :
    fFinite fOne = true ∧ fFinite fHalf = true ∧
    fFinite (fAdd fOne (fMul fHalf (comb.d.buf.getD comb.d.cur fZero))) = true ∧
    (holding (.dl comb.d)).U[(0 : Byte).toNat]? = some (.dl comb.d) ∧
    (holding (.firc comb)).U[(0 : Byte).toNat]? = some (.firc ⟨comb.d, fHalf⟩) ∧
    (holding (.iirc comb)).U[(0 : Byte).toNat]? = some (.iirc ⟨comb.d, fHalf⟩) ∧
    (holding (.ap comb)).U[(0 : Byte).toNat]? = some (.ap ⟨comb.d, fHalf⟩) := by
  decide +kernel

/-- A value to store that overflows. -/
theorem witness_stored_element_commands_not_finite :
    fFinite fTwo = true ∧ fFinite (fAdd fOne (fMul fTwo ([fMax].getD 0 fZero))) = false := by
  decide +kernel

theorem witness_AllPassIsSchroederCanonical :
    (holding (.ap comb)).U[(0 : Byte).toNat]? = some (.ap comb) ∧ fFinite fOne = true ∧
    fFinite (fAdd fOne (fMul comb.gain (comb.d.buf.getD comb.d.cur fZero))) = true ∧
    fFinite (fSub (comb.d.buf.getD comb.d.cur fZero)
      (fMul comb.gain (fAdd fOne (fMul comb.gain (comb.d.buf.getD comb.d.cur fZero))))) = true := by
  decide +kernel

/-- A stored value that overflows, and an output that does where the stored value does not. -/
theorem witness_AllPassIsSchroederCanonical_not_finite :
    fFinite (fAdd fOne (fMul fTwo fMax)) = false ∧
    (fFinite (fAdd fMax (fMul (fNeg fHalf) fMax)) = true ∧
      fFinite (fSub fMax (fMul (fNeg fHalf) (fAdd fMax (fMul (fNeg fHalf) fMax)))) = false) := by
  decide +kernel

theorem witness_LfoTickAdvancesThePhase :
    (holding (.lfo tremolo.lfo)).U[(0 : Byte).toNat]? = some (.lfo tremolo.lfo) ∧
    fFinite (fAdd tremolo.lfo.center (fMul tremolo.lfo.range (Config.SIN tremolo.lfo.phase))) = true ∧
    fFinite (fAdd tremolo.lfo.phase tremolo.lfo.step) = true ∧
    fLt Config.TWO_PI (fAdd tremolo.lfo.phase tremolo.lfo.step) = false ∧
    lfoTickFinite tremolo.lfo = true := by
  decide +kernel

/-- A phase that overflows; a value that does, from a phase of +0.0 and a center that no run reaches. With
`lfoTickFinite` false, the same serves FlangerStepReadsThenWrites and TremoloStepMultiplies. -/
theorem witness_LfoTickAdvancesThePhase_not_finite :
    fFinite (if fLt Config.TWO_PI (fAdd fMax fMax) then fSub (fAdd fMax fMax) Config.TWO_PI else fAdd fMax fMax) = false ∧
    fFinite (fAdd fInf (fMul fOne (Config.SIN fZero))) = false ∧ lfoTickFinite ⟨fMax, fMax, fZero, fZero⟩ = false := by
  refine ⟨by decide +kernel, by decide +kernel, ?_⟩
  rw [lfoTickFinite, show fFinite (lfoNext ⟨fMax, fMax, fZero, fZero⟩).phase = false by decide +kernel, Bool.and_false]

/-- The two ends of the phasor's interval. -/
theorem witness_TriangularTickReturnsGainsAndPhases :
    (holding (.tri ⟨fOne, 0xBFEFFFFFFFFFFFFF⟩)).U[(0 : Byte).toNat]? = some (.tri ⟨fOne, 0xBFEFFFFFFFFFFFFF⟩) ∧
    phasorOk ⟨fOne, 0xBFEFFFFFFFFFFFFF⟩ = true ∧ phasorOk ⟨fZero, 0x3FEFFFFFFFFFFFFF⟩ = true := by
  decide +kernel

theorem reads_flanger : Reads flanger.d (lfoValue flanger.lfo) fOne :=
  ⟨by decide +kernel, by decide +kernel, 1, by decide +kernel, by decide +kernel, by decide +kernel, by decide +kernel,
    by decide +kernel⟩

theorem witness_FlangerStepReadsThenWrites :
    (holding (.fl flanger)).U[(0 : Byte).toNat]? = some (.fl flanger) ∧ fFinite fOne = true ∧
    lfoTickFinite flanger.lfo = true ∧ Reads flanger.d (lfoValue flanger.lfo) fOne ∧
    fFinite (fAdd fOne (fMul flanger.depth fOne)) = true :=
  ⟨rfl, by decide, by decide +kernel, reads_flanger, by decide +kernel⟩

/-- An output that overflows. -/
theorem witness_FlangerStepReadsThenWrites_not_finite : fFinite (fAdd fMax (fMul fMax fOne)) = false := by
  decide +kernel

theorem witness_ReverbStepCompletes :
    (holding (.rv reverb)).U[(0 : Byte).toNat]? = some (.rv reverb) ∧ fFinite fOne = true ∧
    fFinite (rvOut reverb fOne) = true ∧ rvStoredFinite reverb fOne = true := by
  decide +kernel

/-- An output that overflows, and a stored element that does. -/
theorem witness_ReverbStepCompletes_not_finite :
    fFinite (rvOut ⟨[⟨⟨1, [fMax], 0⟩, fHalf⟩], [], fOne, fTwo⟩ fOne) = false ∧
    rvStoredFinite ⟨[⟨⟨1, [fMax], 0⟩, fTwo⟩], [], fOne, fZero⟩ fOne = false := by
  decide +kernel

theorem witness_TremoloStepMultiplies :
    (holding (.tr tremolo)).U[(0 : Byte).toNat]? = some (.tr tremolo) ∧ fFinite fOne = true ∧
    lfoTickFinite tremolo.lfo = true ∧ fFinite (fMul fOne (lfoValue tremolo.lfo)) = true := by
  decide +kernel

/-- A product that overflows. -/
theorem witness_TremoloStepMultiplies_not_finite :
    lfoTickFinite ⟨fZero, fZero, fTwo, fZero⟩ = true ∧ fFinite (fMul fMax (lfoValue ⟨fZero, fZero, fTwo, fZero⟩)) = false := by
  decide +kernel

/-- The first tap reads at the cursor, the second half a window behind it. -/
theorem reads_shifter :
    Reads shifter.d (fMul shifter.tri.p (toF shifter.W)) fZero ∧
    Reads shifter.d (fMul (phaseB shifter.tri.p) (toF shifter.W)) fTwo :=
  ⟨⟨by decide +kernel, by decide +kernel, 0, by decide +kernel, by decide +kernel, by decide +kernel, by decide +kernel,
    by decide +kernel⟩,
   ⟨by decide +kernel, by decide +kernel, 0, by decide +kernel, by decide +kernel, by decide +kernel, by decide +kernel,
    by decide +kernel⟩⟩

theorem witness_PitchShifterStepCrossfadesTwoTaps :
    (holding (.ps shifter)).U[(0 : Byte).toNat]? = some (.ps shifter) ∧ fFinite fOne = true ∧
    phasorOk shifter.tri = true ∧ fFinite (fMul shifter.tri.p (toF shifter.W)) = true ∧
    fFinite (fMul (phaseB shifter.tri.p) (toF shifter.W)) = true ∧
    (Reads shifter.d (fMul shifter.tri.p (toF shifter.W)) fZero ∧
      Reads shifter.d (fMul (phaseB shifter.tri.p) (toF shifter.W)) fTwo) ∧
    fFinite (fAdd (fMul fZero (tri shifter.tri.p)) (fMul fTwo (tri (phaseB shifter.tri.p)))) = true :=
  ⟨rfl, by decide, by decide +kernel, by decide +kernel, by decide +kernel, reads_shifter, by decide +kernel⟩

/-- The two gains can add up to more than 1.0, so an output can overflow from finite samples (found by a search over
phases in Python); and the two delays are not finite for a window that no run reaches. -/
theorem witness_PitchShifterStepCrossfadesTwoTaps_not_finite :
    let pA : F := 0x3FD52245358A7A71
    let d : DLState := ⟨2, [fMax, fMax], 0⟩
    phasorOk ⟨pA, fZero⟩ = true ∧ Reads d (fMul pA (toF 1)) 0x7FEFFFFFFFFFFFFE ∧
    Reads d (fMul (phaseB pA) (toF 1)) fMax ∧
    fFinite (fAdd (fMul 0x7FEFFFFFFFFFFFFE (tri pA)) (fMul fMax (tri (phaseB pA)))) = false ∧
    phasorOk ⟨fHalf, fZero⟩ = true ∧ fFinite (fMul fHalf (toF (2 ^ 1024))) = false ∧
    fFinite (fMul (phaseB fHalf) (toF (2 ^ 1024))) = false :=
  ⟨by decide +kernel,
    ⟨by decide +kernel, by decide +kernel, 1, by decide +kernel, by decide +kernel, by decide +kernel, by decide +kernel,
      by decide +kernel⟩,
    ⟨by decide +kernel, by decide +kernel, 1, by decide +kernel, by decide +kernel, by decide +kernel, by decide +kernel,
      by decide +kernel⟩,
    by decide +kernel, by decide +kernel, by decide +kernel, by decide +kernel⟩

/-- Each of the four domain tests of SEMI fails for some operands; LOG2_ONE gives a case in which all hold. (That some
LOG2 has a result that is not finite cannot be shown of the free function.) -/
theorem witness_SemiConvertsTwoFrequencies :
    (fFinite f880 = true ∧ fFinite f440 = true ∧ fLt fZero f880 = true ∧ fLt fZero f440 = true ∧
      fFinite (fDiv f880 f440) = true ∧ fIsZero (fDiv f880 f440) = false ∧
      fFinite (fMul fTwelve (Config.LOG2 (fDiv f880 f440))) = true) ∧
    fLe 0x8000000000000000 fZero = true ∧ fLe 0xBFF0000000000000 fZero = true ∧
    fFinite (fDiv f880 0x0000000000000001) = false ∧ fIsZero (fDiv 0x0000000000000001 f880) = true := by
  decide +kernel

theorem holds_two : Holds [(0, fHalf), (1, fTwo)] [fHalf, fTwo] := by unfold Holds; decide +kernel

/-- A peak above 1.0 and one of exactly 1.0. -/
theorem witness_NormDividesByThePeak :
    (2 : BitVec 32).toNat ≤ base.params.ylen ∧ [fHalf, fTwo].length = (2 : BitVec 32).toNat ∧
    Holds (column .c1 { base with YMEM1 := [(0, fHalf), (1, fTwo)] }) [fHalf, fTwo] ∧
    fLt fOne (peakOf [fHalf, fTwo]) = true ∧ fLt fOne (peakOf [fHalf, fOne]) = false :=
  ⟨by decide, rfl, holds_two, by decide +kernel, by decide +kernel⟩

theorem finite_one : ∀ x ∈ [fOne], fFinite x = true := List.forall_mem_singleton.2 (by decide)

theorem holds_one : Holds [(0, fOne)] [fOne] := by unfold Holds; decide +kernel

/-- One sample through each of the four effects. -/
theorem run_flanger : BlockRun flGives flanger [fOne] [oneAndHalf]
    { flanger with lfo := lfoNext flanger.lfo, d := push flanger.d fOne } :=
  ⟨_, ⟨by decide +kernel, fOne, reads_flanger, by decide +kernel, by decide +kernel, rfl⟩, rfl⟩

theorem run_reverb (r : RVState) (h : fFinite (rvOut r fOne) = true) (h' : rvStoredFinite r fOne = true) :
    BlockRun rvGives r [fOne] [rvOut r fOne] (rvNext r fOne) :=
  ⟨_, ⟨rfl, rfl, h, h'⟩, rfl⟩

theorem run_tremolo : BlockRun trGives tremolo [fOne] [threeQuarters] ⟨lfoNext tremolo.lfo⟩ :=
  ⟨_, ⟨by decide +kernel, by decide +kernel, by decide, rfl⟩, rfl⟩

theorem run_shifter : BlockRun psGives shifter [fOne] [fTwo]
    { shifter with
      d := push shifter.d fOne
      tri := { shifter.tri with p := phasorAdvance shifter.tri.p shifter.tri.rate } } :=
  ⟨_, ⟨by decide +kernel, by decide +kernel, by decide +kernel, fZero, fTwo, reads_shifter.1, reads_shifter.2,
    by decide +kernel, by decide, rfl⟩, rfl⟩

/-- MonoBlocksComplete, and BlocksAreSequencesOfSteps where the rules' formulas give values. -/
theorem witness_MonoBlocksComplete :
    (1 : BitVec 32).toNat ≤ base.params.xlen ∧ (1 : BitVec 32).toNat ≤ base.params.ylen ∧
    [fOne].length = (1 : BitVec 32).toNat ∧ Holds (fed (.fl flanger) [fOne]).XMEM [fOne] ∧
    (∀ x ∈ [fOne], fFinite x = true) ∧
    ((fed (.fl flanger) [fOne]).U[(0 : Byte).toNat]? = some (.fl flanger) ∧
      ∃ a', BlockRun flGives flanger [fOne] [oneAndHalf] a') ∧
    ((fed (.rv reverb) [fOne]).U[(0 : Byte).toNat]? = some (.rv reverb) ∧
      ∃ ys a', BlockRun rvGives reverb [fOne] ys a') ∧
    ((fed (.tr tremolo) [fOne]).U[(0 : Byte).toNat]? = some (.tr tremolo) ∧
      ∃ a', BlockRun trGives tremolo [fOne] [threeQuarters] a') ∧
    ((fed (.ps shifter) [fOne]).U[(0 : Byte).toNat]? = some (.ps shifter) ∧
      ∃ a', BlockRun psGives shifter [fOne] [fTwo] a') :=
  ⟨by decide, by decide, rfl, holds_one, finite_one, ⟨rfl, _, run_flanger⟩,
    ⟨rfl, _, _, run_reverb reverb (by decide +kernel) (by decide +kernel)⟩, ⟨rfl, _, run_tremolo⟩, rfl, _, run_shifter⟩

/-- BlocksAreSequencesOfSteps: the steps of a block all complete, or one of them is refused. -/
theorem witness_BlocksAreSequencesOfSteps :
    slotCheck (.flBlock 0 1) (fed (.fl flanger) [fOne]) = true ∧ slotCheck (.rvBlock 0 1) (fed (.rv reverb) [fOne]) = true ∧
    slotCheck (.trBlock 0 1) (fed (.tr tremolo) [fOne]) = true ∧ slotCheck (.psBlock 0 1) (fed (.ps shifter) [fOne]) = true ∧
    (runResults ([fOne].map (.flStep 0)) (fed (.fl flanger) [fOne])).isSome = true ∧
    (runResults ([fOne].map (.rvStep 0)) (fed (.rv reverb) [fOne])).isSome = true ∧
    (runResults ([fOne].map (.trStep 0)) (fed (.tr tremolo) [fOne])).isSome = true ∧
    (runResults ([fOne].map (.psStep 0)) (fed (.ps shifter) [fOne])).isSome = true ∧
    (runResults ([fMax].map (.trStep 0)) (fed (.tr ⟨⟨fZero, fZero, fTwo, fZero⟩⟩) [fMax])).isNone = true := by
  decide +kernel

def stereo : State := setSlot 1 (.rv { reverb with wet := fOne }) (fed (.rv reverb) [fOne])

theorem witness_StereoReverbNormalisesEachColumn :
    (0 : Byte) ≠ 1 ∧ stereo.U[(0 : Byte).toNat]? = some (.rv reverb) ∧
    stereo.U[(1 : Byte).toNat]? = some (.rv { reverb with wet := fOne }) ∧
    (1 : BitVec 32).toNat ≤ stereo.params.xlen ∧ (1 : BitVec 32).toNat ≤ stereo.params.ylen ∧
    [fOne].length = (1 : BitVec 32).toNat ∧ Holds stereo.XMEM [fOne] ∧
    (∃ ls l', BlockRun rvGives reverb [fOne] ls l') ∧
    ∃ rs r', BlockRun rvGives { reverb with wet := fOne } [fOne] rs r' :=
  ⟨by decide, rfl, rfl, by decide, by decide, rfl, holds_one,
    ⟨_, _, run_reverb reverb (by decide +kernel) (by decide +kernel)⟩,
    ⟨_, _, run_reverb { reverb with wet := fOne } (by decide +kernel) (by decide +kernel)⟩⟩

theorem witness_SlotFaultsAreThoseOfCheckSlot :
    (operandsOk (.iircProc 0 fOne) base = true ∧ slotCheck (.iircProc 0 fOne) base = false) ∧
    (operandsOk (.iircProc 0 fOne) (holding (.iirc comb)) = true ∧
      slotCheck (.iircProc 0 fOne) (holding (.iirc comb)) = true) ∧
    slotCheck (.rvBlock2 0 0 1) stereo = false ∧ slotCheck (.rvBlock2 0 1 1) stereo = true ∧
    slotCheck (.dlCfg 15 fOne 1000) base = true ∧ slotCheck (.dlCfg 16 fOne 1000) base = false := by
  decide +kernel

theorem witness_ZeroRateIsABadRate :
    operandsOk (.flCfg 0 fOne fTwo fOne fHalf 0) base = true ∧ slotCheck (.flCfg 0 fOne fTwo fOne fHalf 0) base = true ∧
    (rateOperands (.flCfg 0 fOne fTwo fOne fHalf 0)).head? = some 0 := by
  decide +kernel

theorem witness_ReverbArraysMustMatch :
    operandsOk (.rvCfg 0 1000 fOne 0 [fTwo] [] [] []) base = true ∧
    slotCheck (.rvCfg 0 1000 fOne 0 [fTwo] [] [] []) base = true ∧
    operandsOk (.rvCfg 0 1000 fOne 0 [] [] [fOne] [fHalf]) base = true ∧
    slotCheck (.rvCfg 0 1000 fOne 0 [] [] [fOne] [fHalf]) base = true ∧ 0 < (1000 : Word).toNat ∧
    [fTwo].length ≠ ([] : List F).length ∧ [fOne].length = [fHalf].length := by
  decide +kernel

/-- Just below 1.0, just above CAP_MAX, and a window of half of CAP_MAX and one sample more. -/
theorem witness_DelaysOutOfRangeFault :
    let q := fun ms => fDiv (fMul ms (toF 1000)) fThousand
    (0 : Byte).toNat < base.U.length ∧ 0 < (1000 : Word).toNat ∧ (1000 : Word).toNat < 2 ^ 53 ∧
    (fFinite 0x3FEFFFFFFFFFFFFF = true ∧ fLt (q 0x3FEFFFFFFFFFFFFF) fOne = true) ∧
    (fFinite (toF (2 ^ 24 + 1)) = true ∧ fLt (q (toF (2 ^ 24 + 1))) fOne = false ∧
      fLt (toF base.params.capMax) (q (toF (2 ^ 24 + 1))) = true) ∧
    (fFinite (toF (2 ^ 23 + 1)) = true ∧ fLt (q (toF (2 ^ 23 + 1))) fOne = false ∧
      fLt (toF base.params.capMax) (q (toF (2 ^ 23 + 1))) = false ∧
      base.params.capMax < 2 * (fTrunc (q (toF (2 ^ 23 + 1)))).toNat) := by
  decide +kernel

/-- DelaysOutOfRangeFault: a minimum just below zero and one just above CAP_MAX beside a maximum in range. -/
theorem witness_DelaysOutOfRangeFault_minimum :
    let q := fun ms => fDiv (fMul ms (toF 1000)) fThousand
    (fLt (q fTwo) fOne = false ∧ fLt (toF base.params.capMax) (q fTwo) = false) ∧
    (fFinite 0xBFF0000000000000 = true ∧ fLt (q 0xBFF0000000000000) fZero = true) ∧
    (fLt (q (toF (2 ^ 24 + 1))) fZero = false ∧ fLt (toF base.params.capMax) (q (toF (2 ^ 24 + 1))) = true) := by
  decide +kernel

/-- DelaysOutOfRangeFault: the second comb of two is too long, and, with the combs in range, an all-pass too short. -/
theorem witness_DelaysOutOfRangeFault_bank :
    let q := fun ms => fDiv (fMul ms (toF 1000)) fThousand
    let spreadMs := fDiv (fMul (toF 0) fThousand) (toF 1000)
    operandsOk (.rvCfg 0 1000 fOne 0 [fTwo, toF (2 ^ 24 + 1)] [fHalf, fHalf] [fHalf] [fHalf]) base = true ∧
    ([fTwo, toF (2 ^ 24 + 1)].map (fun v => fAdd v spreadMs) ++ [fHalf])[1]? = some (toF (2 ^ 24 + 1)) ∧
    (fLt (q (fAdd fTwo spreadMs)) fOne = false ∧ fLt (toF base.params.capMax) (q (fAdd fTwo spreadMs)) = false) ∧
    (fLt (q (toF (2 ^ 24 + 1))) fOne = false ∧ fLt (toF base.params.capMax) (q (toF (2 ^ 24 + 1))) = true) ∧
    ([fTwo].map (fun v => fAdd v spreadMs) ++ [fHalf])[1]? = some fHalf ∧ fLt (q fHalf) fOne = true := by
  decide +kernel

/-- SecondPhaseFormula: the ends of its interval. -/
theorem witness_SecondPhaseFormula :
    (fLe fZero fZero = true ∧ fLe fZero fOne = true) ∧ (fLe fZero fOne = true ∧ fLe fOne fOne = true) := by
  decide +kernel

/-- A `len` one above XLEN and YLEN, and a `len` of 0, on an acceptable slot; and a slot that is not acceptable. -/
theorem witness_BlockLengthIsChecked :
    Instr.flBlock 0 16777217 ∈ [Instr.flBlock 0 16777217, .rvBlock 0 16777217, .rvBlock2 0 1 16777217,
      .trBlock 0 16777217, .psBlock 0 16777217] ∧
    slotCheck (.flBlock 0 16777217) (holding (.fl flanger)) = true ∧ base.params.xlen < (16777217 : BitVec 32).toNat ∧
    base.params.ylen < (16777217 : BitVec 32).toNat ∧ slotCheck (.rvBlock2 0 1 0) stereo = true ∧
    slotCheck (.flBlock 0 16777217) base = false := by
  decide +kernel

theorem witness_BadOperandsAreRefusedBeforeTheSlot :
    (Instr.wellFormed base.params.nfiltMax (.dlWrite 0 fInf) = true ∧ operandsOk (.dlWrite 0 fInf) base = false ∧
      (floatOperands (.dlWrite 0 fInf)).all fFinite = false) ∧
    (Instr.wellFormed base.params.nfiltMax (.dlCfg 0 fOne 9007199254740992) = true ∧
      operandsOk (.dlCfg 0 fOne 9007199254740992) base = false ∧
      (floatOperands (.dlCfg 0 fOne 9007199254740992)).all fFinite = true) := by
  decide +kernel

/-- The second cell of two is Unwritten, or infinite. -/
theorem witness_BadInputCellsAreRefused :
    1 < (2 : BitVec 32).toNat ∧ slotCheck (.flBlock 0 2) (holding (.fl flanger)) = true ∧
    (2 : BitVec 32).toNat ≤ base.params.xlen ∧ (2 : BitVec 32).toNat ≤ base.params.ylen ∧
    (∀ j < 1, ∃ x, memRead [(0, fOne)] j = some x ∧ fFinite x = true) ∧ memRead [(0, fOne)] 1 = none ∧
    memRead [(0, fOne), (1, fInf)] 1 = some fInf ∧ fFinite fInf = false :=
  ⟨by decide, by decide +kernel, by decide, by decide,
    fun j hj => ⟨fOne, by rw [show j = 0 by omega]; rfl, by decide⟩, rfl, rfl, by decide⟩

/-! ### The invariants hold after reset, and a step is possible -/

theorem memOk_base : memoriesOk (State.resetWith [0x4805000000000000, 0x3FD0000000000000]) :=
  ⟨⟨List.Pairwise.nil, by simp [State.resetWith]⟩, ⟨List.Pairwise.nil, by simp [State.resetWith]⟩,
    ⟨List.Pairwise.nil, by simp [State.resetWith]⟩⟩

/-- StepsKeepMemoriesCanonical, StepsKeepSlotsShaped, StepsKeepStatusAndPcLegal, StepsKeepValuesFinite, and the steps of
PhasesStayInTheirIntervals. -/
theorem witness_step_invariants :
    let s := State.resetWith [0x4805000000000000, 0x3FD0000000000000]
    memoriesOk s ∧ slotsShaped s = true ∧ statusOk s = true ∧ pcOk s = true ∧ valuesFinite s = true ∧
      phasesOk s = true ∧ ∃ t, step s = .next t :=
  ⟨memOk_base, by decide +kernel, by decide +kernel, by decide +kernel, by decide +kernel, by decide +kernel,
    exists_next_of_next? (by decide +kernel)⟩

/-! ### Witnesses for the properties of the units -/

/-- A capacity of 1 and the lowest position that is not refused. -/
theorem witness_WrapAddLoopEnds :
    1 ≤ 1 ∧ fFinite fWrapLimit = true ∧ fLt fWrapLimit fZero = true ∧ fLt fWrapLimit fWrapLimit = false := by
  decide +kernel

/-- The smallest and the largest offset. -/
theorem witness_IntegerOffsetReadsTheElement :
    delayOk comb.d = true ∧ delayFinite comb.d = true ∧ comb.d.L < 2 ^ 52 ∧ 1 ≤ 1 ∧ 1 ≤ comb.d.L ∧ 1 ≤ 2 ∧
    2 ≤ comb.d.L := by
  decide +kernel

theorem witness_WrittenValuesStandBehindTheCursor :
    delayOk comb.d = true ∧ 1 ≤ 2 ∧ 2 ≤ comb.d.L ∧ 2 ≤ [fOne, fTwo, f3].length := by decide

/-- Three calls of a comb of two elements and gain 0.5: two among the first `L`, and the next one. -/
theorem witness_CombOutputIsTheStoredSequenceDelayed :
    let xs := [fOne, fTwo, f3]
    let out := [fZero, fZero, fOne]
    let w := fun n => fAdd (xs.getD n fZero) (fMul fHalf (out.getD n fZero))
    1 ≤ 2 ∧ (fFinite fOne && fFinite fTwo && fFinite f3) = true ∧ out.length = xs.length ∧
    (∀ n < xs.length, fFinite (w n) = true) ∧
    (∀ n < xs.length, out.getD n fZero = if n < 2 then fZero else w (n - 2)) ∧
    (holding (.firc ⟨freshDelay 2, fHalf⟩)).U[(0 : Byte).toNat]? = some (.firc ⟨freshDelay 2, fHalf⟩) ∧
    (holding (.iirc ⟨freshDelay 2, fHalf⟩)).U[(0 : Byte).toNat]? = some (.iirc ⟨freshDelay 2, fHalf⟩) := by
  decide +kernel

theorem witness_TriangleGainFormula : fLe 0x3FD0000000000000 quarter = true ∧ fLe quarter fOne = true := by
  decide +kernel

/-- Both ends of the phasor's interval, and an LFO at TWO_PI with the largest step below it. -/
theorem witness_PhasesStayInTheirIntervals :
    (fLe fZero fOne = true ∧ fLe fOne fOne = true ∧ fLt (fAbs 0x3FEFFFFFFFFFFFFF) fOne = true) ∧
    (fLe fZero fZero = true ∧ fLt (fAbs 0xBFEFFFFFFFFFFFFF) fOne = true) ∧
    (fLe fZero 0x401921FB54442D17 = true ∧ fLt 0x401921FB54442D17 Config.TWO_PI = true ∧
      fLe fZero Config.TWO_PI = true ∧ fLe Config.TWO_PI Config.TWO_PI = true) := by
  decide +kernel

/-- A step of each silent unit with input -0.0. -/
theorem witness_SilenceInGivesSilenceOut :
    fIsZero 0x8000000000000000 = true ∧
    (rvSilent ⟨[⟨⟨1, [fZero], 0⟩, fHalf⟩], [⟨⟨1, [fZero], 0⟩, fHalf⟩], fOne, fHalf⟩ = true ∧
      (rvStep ⟨[⟨⟨1, [fZero], 0⟩, fHalf⟩], [⟨⟨1, [fZero], 0⟩, fHalf⟩], fOne, fHalf⟩ 0x8000000000000000).isOk = true) ∧
    (trStep tremolo 0x8000000000000000).isOk = true ∧
    (silent [fZero] = true ∧ fFinite fHalf = true ∧
      (flStep ⟨⟨1, [fZero], 0⟩, ⟨fZero, fZero, fOne, fZero⟩, fHalf, 1, 1⟩ 0x8000000000000000).isOk = true) := by
  decide +kernel

/-- A first pass that divides and one that does not. -/
theorem witness_NormIsIdempotent :
    (2 : BitVec 32).toNat ≤ base.params.ylen ∧
    (∃ t, exec (.norm .c0 2) { base with YMEM0 := [(0, fHalf), (1, fTwo)] } = .next t) ∧
    (next? (exec (.norm .c0 2) { base with YMEM0 := [(0, fHalf), (1, fTwo)] })).map (fun t => statusNormed .c0 t.STATUS) =
      some true ∧
    ∃ t, exec (.norm .c0 1) { base with YMEM0 := [(0, fHalf), (1, fTwo)] } = .next t :=
  ⟨by decide, exists_next_of_next? (by decide +kernel), by decide +kernel, exists_next_of_next? (by decide +kernel)⟩

/-- A signal of one sample cut into one sample and nothing. -/
theorem witness_PitchShifterStreamsAcrossBlocks :
    (holding (.ps shifter)).U[(0 : Byte).toNat]? = some (.ps shifter) ∧ (∀ x ∈ [fOne] ++ [], fFinite x = true) ∧
    [fOne].length = (1 : BitVec 32).toNat ∧ ([] : List F).length = (0 : BitVec 32).toNat ∧
    ([fOne] ++ []).length = (1 : BitVec 32).toNat ∧ (1 : BitVec 32).toNat ≤ (holding (.ps shifter)).params.xlen ∧
    (1 : BitVec 32).toNat ≤ (holding (.ps shifter)).params.ylen ∧
    ∃ q', BlockRun psGives shifter ([fOne] ++ []) [fTwo] q' :=
  ⟨rfl, by rw [List.append_nil]; exact finite_one, rfl, rfl, rfl, by decide, by decide, by rw [List.append_nil]; exact ⟨_, run_shifter⟩⟩

end Sys2Proof.Tests
end

section
/-! PROOFS. The statements of 43_oscillators R181, R182: the values of the two shapes, a subtraction of two values within a
factor of two of each other is exact, and the second phase stays in its interval. -/

namespace Sys2Proof.Machine

/-! ### Subtraction of two close values is exact -/

/-- A magnitude is a whole number of at most 53 bits at the exponent of its binade. -/
theorem exists_significand (m : Nat) : ∃ q < 2 ^ 53, unitsOf m = q * 2 ^ (m / 2 ^ 52 - 1) := by
  by_cases h : m < 2 ^ 52
  · exact ⟨m, by omega, by rw [unitsOf, if_pos h, Nat.div_eq_of_lt h, Nat.zero_sub, Nat.pow_zero, Nat.mul_one]⟩
  · exact ⟨2 ^ 52 + m % 2 ^ 52, by omega, by rw [unitsOf, if_neg h]⟩

/-- The difference of two magnitudes is a magnitude's value where it is at most the smaller one: it is a whole number at
the smaller one's exponent, and no longer than the smaller one's significand. -/
theorem exists_unitsOf_sub {m n : Nat} (hmn : m ≤ n) (hm : m ≤ fInfMag) (h : unitsOf n ≤ 2 * unitsOf m) :
    ∃ k ≤ fInfMag, unitsOf k = unitsOf n - unitsOf m := by
  obtain ⟨q, hq, hqm⟩ := exists_significand m
  obtain ⟨r, -, hrn⟩ := exists_significand n
  have hexp : m / 2 ^ 52 - 1 ≤ n / 2 ^ 52 - 1 := Nat.sub_le_sub_right (Nat.div_le_div_right hmn) 1
  obtain ⟨j, hj⟩ := Nat.exists_eq_add_of_le hexp
  have hsub : unitsOf n - unitsOf m = (r * 2 ^ j - q) * 2 ^ (m / 2 ^ 52 - 1) := by
    rw [hrn, hqm, hj, Nat.pow_add, Nat.sub_mul, Nat.mul_assoc, Nat.mul_comm (2 ^ j)]
  have hle : unitsOf n - unitsOf m ≤ unitsOf m := by omega
  have hshort : r * 2 ^ j - q ≤ q := by
    rw [hsub, hqm] at hle
    exact Nat.le_of_mul_le_mul_right hle (Nat.two_pow_pos _)
  rw [hsub] at hle ⊢
  exact exists_unitsOf (by omega) (Nat.le_trans hle ((unitsOf_le_iff hm (Nat.le_refl _)).2 hm))

/-- An integer whose size is a magnitude's value is the value of a pattern. -/
theorem exists_fInt_eq {z : Int} {m : Nat} (hm : m ≤ fInfMag) (h : unitsOf m = z.natAbs) :
    ∃ c, fMag c ≤ fInfMag ∧ fInt c = z := by
  have hlt : m < 2 ^ 63 := Nat.lt_of_le_of_lt hm fInfMag_lt
  refine ⟨fEncode (decide (z < 0)) m, by rwa [fMag_fEncode hlt], ?_⟩
  rw [fInt_fEncode hlt, h]
  by_cases hz : z < 0 <;> simp only [hz, decide_true, decide_false, if_true, Bool.false_eq_true, if_false] <;> omega

/-- Sterbenz: the subtraction of two values within a factor of two of each other does not round. -/
theorem fInt_fSub_of_close {a b : F} (ha : fFinite a = true) (hb : fFinite b = true)
    (hba : fInt b ≤ 2 * fInt a) (hab : fInt a ≤ 2 * fInt b) : fInt (fSub a b) = fInt a - fInt b := by
  have hma := Nat.le_of_lt (fFinite_iff.1 ha)
  have hmb := Nat.le_of_lt (fFinite_iff.1 hb)
  have hua := natAbs_fInt a
  have hub := natAbs_fInt b
  have hdiff : ∃ k ≤ fInfMag, unitsOf k = (fInt a - fInt b).natAbs := by
    rcases Nat.le_total (fMag a) (fMag b) with h | h
    · have hle := (unitsOf_le_iff hma hmb).2 h
      obtain ⟨k, hk, hku⟩ := exists_unitsOf_sub h hma (by omega)
      exact ⟨k, hk, by omega⟩
    · have hle := (unitsOf_le_iff hmb hma).2 h
      obtain ⟨k, hk, hku⟩ := exists_unitsOf_sub h hmb (by omega)
      exact ⟨k, hk, by omega⟩
  obtain ⟨k, hk, hku⟩ := hdiff
  obtain ⟨c, hc, hcv⟩ := exists_fInt_eq hk hku
  rw [fInt_fSub_exact ha hb hc hcv.symm, hcv]

/-! ### The constants of the two shapes -/

theorem fInt_fZero : fInt fZero = 0 := by decide

theorem fInt_fHalf_pos : 0 < fInt fHalf := by decide +kernel

theorem fInt_fOne_eq_two_halves : fInt fOne = 2 * fInt fHalf := by decide +kernel

/-- The pattern of 1.5. -/
theorem fInt_threeHalves : fInt 0x3FF8000000000000 = 3 * fInt fHalf := by decide +kernel

/-- The pattern of 0.25. -/
theorem fInt_fHalf_eq_two_quarters : fInt fHalf = 2 * fInt 0x3FD0000000000000 := by decide +kernel

/-! ### The triangle (R181) -/

/-- On [0.25, 1.0] the subtraction of 0.5 is between values within a factor of two of each other. -/
theorem fInt_fSub_fHalf {p : F} (h1 : fLe 0x3FD0000000000000 p = true) (h2 : fLe p fOne = true) :
    fInt (fSub p fHalf) = fInt p - fInt fHalf := by
  obtain ⟨-, hp, hlo⟩ := fLe_eq_true.1 h1
  obtain ⟨-, -, hhi⟩ := fLe_eq_true.1 h2
  have hfin : fFinite p = true := fFinite_of_between (by decide) (by decide) hp hlo hhi
  have hquarter := fInt_fHalf_eq_two_quarters
  have hone := fInt_fOne_eq_two_halves
  exact fInt_fSub_of_close hfin (by decide) (by omega) (by omega)

/-- Settles O54: the formula is the definition's, the values are computed, and the exact subtraction is an instance of
Sterbenz's. -/
theorem triangleGainFormula : Obligations.TriangleGainFormula := by
  refine ⟨fun p => rfl, ?_, ?_, ?_, ?_, ?_, ?_, fun p => fInt_fSub_fHalf⟩ <;> decide +kernel

/-! ### The second phase (R182) -/

/-- A phase in [0, 1] plus 0.5 is finite and in [0.5, 1.5]. -/
theorem fAdd_fHalf_bounds {p : F} (h1 : fLe fZero p = true) (h2 : fLe p fOne = true) :
    fFinite (fAdd p fHalf) = true ∧ fInt fHalf ≤ fInt (fAdd p fHalf) ∧
      fInt (fAdd p fHalf) ≤ 3 * fInt fHalf := by
  obtain ⟨-, hp, hlo⟩ := fLe_eq_true.1 h1
  obtain ⟨-, -, hhi⟩ := fLe_eq_true.1 h2
  have hfin : fFinite p = true := fFinite_of_between (by decide) (by decide) hp hlo hhi
  have hhalf : fFinite fHalf = true := by decide
  rw [fInt_fZero] at hlo
  rw [fInt_fOne_eq_two_halves] at hhi
  have hge : fInt fHalf ≤ fInt (fAdd p fHalf) := le_fInt_fAdd hfin hhalf (by decide) (by omega)
  have hle : fInt (fAdd p fHalf) ≤ fInt 0x3FF8000000000000 :=
    fInt_fAdd_le hfin hhalf (by decide) (by rw [fInt_threeHalves]; omega)
  exact ⟨fFinite_of_between hhalf (by decide) (fMag_fAdd_le hfin hhalf) hge hle, hge, fInt_threeHalves ▸ hle⟩

/-- The second phase of a phase in [0, 1] is in [0, 1): below 1.0 the sum stands, and from 1.0 to 1.5 the subtraction
leaves at most 0.5. -/
theorem phaseB_mem_unit {p : F} (h1 : fLe fZero p = true) (h2 : fLe p fOne = true) :
    fLe fZero (phaseB p) = true ∧ fLt (phaseB p) fOne = true := by
  obtain ⟨hfin, hge, hle⟩ := fAdd_fHalf_bounds h1 h2
  have hpos := fInt_fHalf_pos
  have hone := fInt_fOne_eq_two_halves
  have hmag := Nat.le_of_lt (fFinite_iff.1 hfin)
  have hfinOne : fFinite fOne = true := by decide
  simp only [phaseB]
  split
  · rename_i hwrap
    obtain ⟨-, -, hwrap⟩ := fLe_eq_true.1 hwrap
    have hsubMag := fMag_fSub_le hfin hfinOne
    have hnonneg : fInt fZero ≤ fInt (fSub (fAdd p fHalf) fOne) :=
      le_fInt_fSub hfin hfinOne (by decide) (by rw [fInt_fZero]; omega)
    have hhalf : fInt (fSub (fAdd p fHalf) fOne) ≤ fInt fHalf :=
      fInt_fSub_le hfin hfinOne (by decide) (by omega)
    exact ⟨(fLe_iff (by decide) hsubMag).2 hnonneg, (fLt_iff hsubMag (by decide)).2 (by omega)⟩
  · rename_i hstay
    rw [fLe_iff (by decide) hmag] at hstay
    exact ⟨(fLe_iff (by decide) hmag).2 (by rw [fInt_fZero]; omega), (fLt_iff hmag (by decide)).2 (by omega)⟩

/-- Settles O55: the formula is the definition's, the values are computed, and the interval is `phaseB_mem_unit`. -/
theorem secondPhaseFormula : Obligations.SecondPhaseFormula := by
  refine ⟨fun p => rfl, ?_, ?_, ?_, ?_, fun p => phaseB_mem_unit⟩ <;> decide +kernel

end Sys2Proof.Machine
end

section
/-! PROOFS. The statements of 60_exceptions R305 and R308. A slot test answers exactly where `slotCheck` holds
and E_SLOT where it does not; nothing after it raises E_SLOT; a block's `len` is tested right after it. -/

namespace Sys2Proof.Machine

/-! ### The slot tests and the kinds they accept (R305) -/

/-- `view` accepts the slots of the kinds `ks` and no others. -/
def Views {α : Type} (view : Slot → Option α) (ks : List Kind) : Prop :=
  ∀ x, (view x).isSome = (kindOf x).any ks.contains

theorem views_viewDelay : Views viewDelay [.dl, .firc, .iirc, .ap] := fun x => by cases x <;> rfl
theorem views_viewFirc : Views viewFirc [.firc] := fun x => by cases x <;> rfl
theorem views_viewIirc : Views viewIirc [.iirc] := fun x => by cases x <;> rfl
theorem views_viewAp : Views viewAp [.ap] := fun x => by cases x <;> rfl
theorem views_viewLfo : Views viewLfo [.lfo] := fun x => by cases x <;> rfl
theorem views_viewTri : Views viewTri [.tri] := fun x => by cases x <;> rfl
theorem views_viewFl : Views viewFl [.fl] := fun x => by cases x <;> rfl
theorem views_viewRv : Views viewRv [.rv] := fun x => by cases x <;> rfl
theorem views_viewTr : Views viewTr [.tr] := fun x => by cases x <;> rfl
theorem views_viewPs : Views viewPs [.ps] := fun x => by cases x <;> rfl

theorem viewFl_eq_some {x : Slot} {f : FLState} : viewFl x = some f ↔ x = .fl f := by cases x <;> simp [viewFl]
theorem viewRv_eq_some {x : Slot} {r : RVState} : viewRv x = some r ↔ x = .rv r := by cases x <;> simp [viewRv]
theorem viewTr_eq_some {x : Slot} {t : TRState} : viewTr x = some t ↔ x = .tr t := by cases x <;> simp [viewTr]
theorem viewPs_eq_some {x : Slot} {p : PSState} : viewPs x = some p ↔ x = .ps p := by cases x <;> simp [viewPs]

/-- A test that answers a value where `passes` and raises E_SLOT where not. -/
structure SlotTest {α : Type} (passes : Bool) (x : Run α) : Prop where
  raises : passes = false → x = raise .slot
  answers : passes = true → ∃ a, x = .ok a

theorem slotTest_raise {α : Type} : SlotTest false (raise .slot : Run α) := ⟨fun _ => rfl, nofun⟩

theorem slotTest_ok {α : Type} (a : α) : SlotTest true (.ok a : Run α) := ⟨nofun, fun _ => ⟨a, rfl⟩⟩

theorem slotTest_cfgSlot (u : Byte) (s : State) : SlotTest (u.toNat < s.U.length) (cfgSlot u s) where
  raises h := cfgSlot_of_le (by simpa using h)
  answers h := ⟨(), cfgSlot_of_lt (by simpa using h)⟩

theorem hasKind_of_getElem? {α : Type} {view : Slot → Option α} {ks : List Kind} (hv : Views view ks) {u : Byte}
    {s : State} {x : Slot} (hx : s.U[u.toNat]? = some x) : hasKind s u ks = (view x).isSome := by
  rw [hv x]
  simp only [hasKind, hx]
  cases kindOf x <;> rfl

theorem slotTest_slotAs {α : Type} {view : Slot → Option α} {ks : List Kind} (hv : Views view ks) (u : Byte)
    (s : State) : SlotTest (hasKind s u ks) (slotAs view u s) := by
  cases hx : s.U[u.toNat]? with
  | none =>
    simp only [hasKind, slotAs, hx]
    exact slotTest_raise
  | some x =>
    rw [hasKind_of_getElem? hv hx]
    simp only [slotAs, hx]
    cases view x with
    | none => exact slotTest_raise
    | some a => exact slotTest_ok a

/-- Two slot tests in sequence: the second decides where the first passes. -/
theorem SlotTest.and_bind {α β : Type} {b b' : Bool} {x : Run α} {f : α → Run β} (hx : SlotTest b x)
    (hf : ∀ a, SlotTest b' (f a)) : SlotTest (b && b') (x >>= f) := by
  cases b with
  | false =>
    rw [hx.raises rfl, raise_bind, Bool.false_and]
    exact slotTest_raise
  | true =>
    obtain ⟨a, ha⟩ := hx.answers rfl
    rw [ha, ok_bind, Bool.true_and]
    exact hf a

/-- The slot test of RV.BLOCK2: different slots, both of kind RV. -/
theorem slotTest_stereoSlots (u v : Byte) (s : State) :
    SlotTest (hasKind s u [.rv] && hasKind s v [.rv] && u != v) (stereoSlots u v s) := by
  by_cases huv : u = v
  · rw [stereoSlots, if_pos huv, raise_bind, bne_eq_false_iff_eq.2 huv, Bool.and_false]
    exact slotTest_raise
  · rw [stereoSlots, if_neg huv, bne_iff_ne.2 huv, Bool.and_assoc]
    exact (slotTest_slotAs views_viewRv u s).and_bind fun l =>
      (slotTest_slotAs views_viewRv v s).and_bind fun r => slotTest_ok (l, r)

/-! ### What follows a passed slot test -/

/-- A computation that never raises E_SLOT, and where it completes leaves `pc` as it is in `s`. -/
structure PastSlot (s : State) (r : Run State) : Prop where
  ne_slot : r ≠ raise .slot
  pc_eq : ∀ t, r = .ok t → t.pc = s.pc

theorem PastSlot.bind {α : Type} {s : State} {x : Run α} {f : α → Run State} (hx : x ≠ raise .slot)
    (hf : ∀ a, x = .ok a → PastSlot s (f a)) : PastSlot s (x >>= f) where
  ne_slot h := by
    rcases bind_eq_error.1 h with h | ⟨a, ha, h⟩
    · exact hx h
    · exact (hf a ha).ne_slot h
  pc_eq t h := by
    obtain ⟨a, ha, h⟩ := bind_eq_ok.1 h
    exact (hf a ha).pc_eq t h

theorem PastSlot.pure {s t : State} (h : t.pc = s.pc) : PastSlot s (pure t) where
  ne_slot h' := by cases h'
  pc_eq t' h' := by cases h'; exact h

theorem PastSlot.raise {s : State} {c : Cause} (h : c ≠ .slot) : PastSlot s (raise c) where
  ne_slot h' := h (raise_inj.1 h')
  pc_eq _ h' := by cases h'

/-- Completion is told from fault entry by `pc`, which only completion advances. -/
theorem PastSlot.finish_ne {s : State} {r : Run State} (h : PastSlot s r) (n : Nat) :
    finish n s r ≠ .next (faultEntry .slot s) := by
  intro he
  rcases finish_eq_next.1 he with ⟨t, hr, ht⟩ | ⟨c, hr, hc⟩
  · have hpc := congrArg State.pc ht
    rw [faultEntry_pc, advance_pc, h.pc_eq t hr] at hpc
    omega
  · rw [faultEntry_inj] at hc
    exact h.ne_slot (hc ▸ hr)

/-- A body that raises E_SLOT where the slot check fails, and is past its slot test where it passes. -/
structure SlotDecides (passes : Bool) (s : State) (r : Run State) : Prop where
  raises : passes = false → r = raise .slot
  past : passes = true → PastSlot s r

theorem SlotDecides.finish {b : Bool} {n : Nat} {s : State} {r : Run State} (h : SlotDecides b s r) :
    (b = false → finish n s r = .next (faultEntry .slot s)) ∧
      (b = true → finish n s r ≠ .next (faultEntry .slot s)) :=
  ⟨fun hb => by rw [h.raises hb, finish_raise], fun hb => (h.past hb).finish_ne n⟩

theorem SlotTest.decides {α : Type} {b : Bool} {s : State} {x : Run α} {f : α → Run State} (hx : SlotTest b x)
    (hf : ∀ a, PastSlot s (f a)) : SlotDecides b s (x >>= f) where
  raises hb := by rw [hx.raises hb, raise_bind]
  past hb := by
    obtain ⟨a, ha⟩ := hx.answers hb
    rw [ha, ok_bind]
    exact hf a

/-- A command without a slot. -/
theorem PastSlot.decides {s : State} {r : Run State} (h : PastSlot s r) : SlotDecides true s r :=
  ⟨nofun, fun _ => h⟩

/-- A passed test before the slot test does not change what the slot test decides. -/
theorem SlotDecides.after {α : Type} {b : Bool} {s : State} {x : Run α} {a : α} {f : α → Run State} (hx : x = .ok a)
    (h : SlotDecides b s (f a)) : SlotDecides b s (x >>= f) := by
  rwa [hx, ok_bind]

/-! ### What raises no E_SLOT -/

theorem Raises.ne_raise {α : Type} {cs : List Cause} {x : Run α} {c : Cause} (h : Raises cs x) (hc : c ∉ cs) :
    x ≠ raise c := fun e => hc (h c e)

theorem goodRate_ne_slot (fs : Word) : goodRate fs ≠ raise .slot :=
  (raises_goodRate (cs := [.badRate]) (by simp) fs).ne_raise (by simp)

theorem msToSamples_ne_slot (capMax : Nat) (ms : F) (fs : Word) : msToSamples capMax ms fs ≠ raise .slot :=
  (raises_msToSamples (cs := [.zeroDelay, .capacity]) (by simp) (by simp) capMax ms fs).ne_raise (by simp)

theorem newComb_ne_slot (capMax : Nat) (ms gain : F) (fs : Word) : newComb capMax ms gain fs ≠ raise .slot :=
  bind_ne_raise (msToSamples_ne_slot _ _ _) fun _ => by simp [raise]

theorem newFilters_ne_slot (capMax : Nat) (fs : Word) (ps : List (F × F)) : newFilters capMax fs ps ≠ raise .slot :=
  (raises_newFilters (cs := [.zeroDelay, .capacity]) (by simp) (by simp) capMax fs ps).ne_raise (by simp)

theorem banksOk_ne_slot (nCD nCG nAD nAG : Nat) : banksOk nCD nCG nAD nAG ≠ raise .slot := by
  rw [banksOk]
  split
  · simp
  · split <;> simp [raise]

theorem minDelay_ne_slot (capMax : Nat) (ms : F) (fs : Word) : minDelay capMax ms fs ≠ raise .slot := by
  rw [minDelay]
  split
  · simp
  · split <;> simp [raise]

theorem windowSamples_ne_slot (capMax : Nat) (ms : F) (fs : Word) : windowSamples capMax ms fs ≠ raise .slot := by
  refine bind_ne_raise (msToSamples_ne_slot _ _ _) fun W => ?_
  split
  · simp
  · simp [raise]

theorem blockLen_ne_slot (len : Nat) (s : State) : blockLen len s ≠ raise .slot :=
  (raises_blockLen (cs := [.capacity]) (by simp) len s).ne_raise (by simp)

theorem readCells_ne_raise (m : Mem) (i n : Nat) (c : Cause) : readCells m i n ≠ raise c :=
  (raises_readCells [] m i n).ne_raise (by simp)

theorem semitones_ne_raise (ft fr : F) (c : Cause) : semitones ft fr ≠ raise c := by
  rw [semitones]
  split
  · simp
  · split
    · simp
    · exact checked_ne_raise _ _

/-! ### What keeps `pc` until the command ends -/

theorem pastSlot_normalise (c : Col) (len : Nat) (s : State) : PastSlot s (normalise c len s) where
  ne_slot := normalise_ne_raise c len s .slot
  pc_eq t h := by
    obtain ⟨vs, -, -, rfl⟩ := normalise_eq_ok.1 h
    split <;> simp

theorem pastSlot_channel {α : Type} {f : α → F → Run (F × α)} (hf : ∀ a x c, f a x ≠ raise c) (wrap : α → Slot)
    (u : Byte) (a : α) (c : Col) (xs : List F) {s s' : State} (hpc : s'.pc = s.pc) :
    PastSlot s (channel wrap f u a c xs s') where
  ne_slot := channel_ne_raise hf u a c xs s' .slot
  pc_eq t h := by
    obtain ⟨ys, a', -, -, rfl⟩ := channel_eq_ok h
    simpa using hpc

/-! ### Bodies that several commands share -/

theorem slotDecides_stepUnit {α : Type} {view : Slot → Option α} {ks : List Kind} {f : α → Run (F × α)}
    (hv : Views view ks) (hf : ∀ a c, f a ≠ raise c) (wrap : α → Slot) (u : Byte) (s : State) :
    SlotDecides (hasKind s u ks) s (stepUnit view wrap f u s) :=
  (slotTest_slotAs hv u s).decides fun a => .bind (hf a _) fun _ _ => .pure rfl

theorem slotDecides_blockUnit {α : Type} {view : Slot → Option α} {ks : List Kind} {f : α → F → Run (F × α)}
    (hv : Views view ks) (hf : ∀ a x c, f a x ≠ raise c) (wrap : α → Slot) (u : Byte) (len : Nat) (s : State) :
    SlotDecides (hasKind s u ks) s (blockUnit view wrap f u len s) :=
  (slotTest_slotAs hv u s).decides fun a => .bind (blockLen_ne_slot _ _) fun _ _ =>
    .bind (readCells_ne_raise _ _ _ _) fun xs _ => pastSlot_channel hf wrap u a .c0 xs rfl

section
variable {i : Instr} {s : State}

theorem finiteOperands_of_operandsOk (h : operandsOk i s = true) : finiteOperands (floatOperands i) = .ok () := by
  simp only [operandsOk, Bool.and_eq_true] at h
  exact finiteOperands_of_finite h.1.2

theorem narrowOperand_of_operandsOk (h : operandsOk i s = true) {n : Word} (hn : n ∈ rateOperands i) :
    narrowOperand n = .ok () := by
  simp only [operandsOk, Bool.and_eq_true] at h
  exact narrowOperand_of_lt (by simpa using List.all_eq_true.1 h.2 n hn)

/-- The counts of RV.CFG are within NFILT_MAX. -/
theorem countsOk_of_operandsOk {u : Byte} {fs : Word} {wet : F} {spread : Word} {cd cg ad ag : List F}
    (h : operandsOk (.rvCfg u fs wet spread cd cg ad ag) s = true) :
    countsOk s.params.nfiltMax [cd.length, cg.length, ad.length, ag.length] = .ok () := by
  simp only [operandsOk, Instr.wellFormed, arrayOk, Bool.and_eq_true, decide_eq_true_eq] at h
  exact if_neg (by simp; omega)

/-- The tests that the configurations with a sample rate start with, up to the rate itself. -/
theorem slotDecides_cfg {fs : Word} {r : Run State} (h : operandsOk i s = true) (hfs : fs ∈ rateOperands i) (u : Byte)
    (hr : PastSlot s r) :
    SlotDecides (u.toNat < s.U.length) s
      (finiteOperands (floatOperands i) >>= fun _ => narrowOperand fs >>= fun _ => cfgSlot u s >>= fun _ =>
        goodRate fs >>= fun _ => r) :=
  .after (finiteOperands_of_operandsOk h) <| .after (narrowOperand_of_operandsOk h hfs) <|
    (slotTest_cfgSlot u s).decides fun _ => .bind (goodRate_ne_slot fs) fun _ _ => hr

end

/-! ### Every command -/

/-- Settles O38: the body of each command is its operand tests, which pass, the slot test, and computations that raise
no E_SLOT. -/
theorem slotFaultsAreThoseOfCheckSlot : Obligations.SlotFaultsAreThoseOfCheckSlot := by
  intro i s h
  have hops := finiteOperands_of_operandsOk h
  cases i with
  | dlCfg u ms fs =>
    exact SlotDecides.finish <| slotDecides_cfg h (List.mem_singleton_self fs) u <|
      .bind (msToSamples_ne_slot _ _ _) fun _ _ => .pure rfl
  | dlWrite u x =>
    exact SlotDecides.finish <| .after hops <| (slotTest_slotAs views_viewDelay u s).decides fun _ => .pure rfl
  | dlRead u o =>
    exact SlotDecides.finish <| .after hops <| (slotTest_slotAs views_viewDelay u s).decides fun _ =>
      .bind (fracRead_ne_raise _ _ _) fun _ _ => .pure rfl
  | dlProc u x g =>
    exact SlotDecides.finish <| .after hops <| (slotTest_slotAs views_viewDelay u s).decides fun _ =>
      .bind (dlProc_ne_raise _ _ _ _) fun _ _ => .pure rfl
  | fircCfg u ms g fs | iircCfg u ms g fs | apCfg u ms g fs =>
    exact SlotDecides.finish <| slotDecides_cfg h (List.mem_singleton_self fs) u <|
      .bind (newComb_ne_slot _ _ _ _) fun _ _ => .pure rfl
  | fircProc u x =>
    exact SlotDecides.finish <| .after hops <| slotDecides_stepUnit views_viewFirc (combProc_ne_raise x) _ u s
  | iircProc u x =>
    exact SlotDecides.finish <| .after hops <| slotDecides_stepUnit views_viewIirc (combProc_ne_raise x) _ u s
  | apProc u x =>
    exact SlotDecides.finish <| .after hops <| slotDecides_stepUnit views_viewAp (apProc_ne_raise x) _ u s
  | lfoCfg u rate center range fs =>
    exact SlotDecides.finish <| slotDecides_cfg h (List.mem_singleton_self fs) u <|
      .bind (lfoNew_ne_raise _ _ _ _ _) fun _ _ => .pure rfl
  | lfoTick u => exact SlotDecides.finish <| slotDecides_stepUnit views_viewLfo lfoTick_ne_raise _ u s
  | triCfg u rate =>
    exact SlotDecides.finish <| .after hops <| (slotTest_cfgSlot u s).decides fun _ =>
      .bind (phasorRateOk_ne_raise _ _) fun _ _ => .pure rfl
  | triTick u =>
    exact SlotDecides.finish <| (slotTest_slotAs views_viewTri u s).decides fun _ =>
      .bind (triTick_ne_raise _ _) fun _ _ => .pure rfl
  | flCfg u mn mx rate depth fs =>
    exact SlotDecides.finish <| slotDecides_cfg h (List.mem_singleton_self fs) u <|
      .bind (msToSamples_ne_slot _ _ _) fun _ _ => .bind (minDelay_ne_slot _ _ _) fun _ _ =>
      .bind (checked_ne_raise _ _) fun _ _ => .bind (checked_ne_raise _ _) fun _ _ =>
      .bind (lfoNew_ne_raise _ _ _ _ _) fun _ _ => .pure rfl
  | flStep u x =>
    exact SlotDecides.finish <| .after hops <| slotDecides_stepUnit views_viewFl (flStep_ne_raise · x) _ u s
  | flBlock u len => exact SlotDecides.finish <| slotDecides_blockUnit views_viewFl flStep_ne_raise _ u _ s
  | rvCfg u fs wet spread cd cg ad ag =>
    have hfs : narrowOperand fs = .ok () := narrowOperand_of_operandsOk h (by simp [rateOperands])
    have hspread : narrowOperand spread = .ok () := narrowOperand_of_operandsOk h (by simp [rateOperands])
    exact SlotDecides.finish <| .after (countsOk_of_operandsOk h) <| .after hops <| .after hfs <| .after hspread <|
      (slotTest_cfgSlot u s).decides fun _ =>
      .bind (goodRate_ne_slot fs) fun _ _ => .bind (banksOk_ne_slot _ _ _ _) fun _ _ =>
      .bind (newFilters_ne_slot _ _ _) fun _ _ => .bind (newFilters_ne_slot _ _ _) fun _ _ => .pure rfl
  | rvStep u x =>
    exact SlotDecides.finish <| .after hops <| slotDecides_stepUnit views_viewRv (rvStep_ne_raise · x) _ u s
  | rvBlock u len => exact SlotDecides.finish <| slotDecides_blockUnit views_viewRv rvStep_ne_raise _ u _ s
  | rvBlock2 u v len =>
    exact SlotDecides.finish <| (slotTest_stereoSlots u v s).decides fun p =>
      .bind (blockLen_ne_slot _ _) fun _ _ => .bind (readCells_ne_raise _ _ _ _) fun xs _ =>
      .bind (channel_ne_raise rvStep_ne_raise _ _ _ _ _ _) fun t ht =>
      pastSlot_channel rvStep_ne_raise .rv v p.2 .c1 xs
        ((pastSlot_channel rvStep_ne_raise .rv u p.1 .c0 xs rfl).pc_eq t ht)
  | trCfg u rate depth fs =>
    exact SlotDecides.finish <| slotDecides_cfg h (List.mem_singleton_self fs) u <|
      .bind (checked_ne_raise _ _) fun _ _ => .bind (checked_ne_raise _ _) fun _ _ =>
      .bind (lfoNew_ne_raise _ _ _ _ _) fun _ _ => .pure rfl
  | trStep u x =>
    exact SlotDecides.finish <| .after hops <| slotDecides_stepUnit views_viewTr (trStep_ne_raise · x) _ u s
  | trBlock u len => exact SlotDecides.finish <| slotDecides_blockUnit views_viewTr trStep_ne_raise _ u _ s
  | psCfg u ms fs =>
    exact SlotDecides.finish <| slotDecides_cfg h (List.mem_singleton_self fs) u <|
      .bind (windowSamples_ne_slot _ _ _) fun _ _ => .pure rfl
  | psShift u t =>
    exact SlotDecides.finish <| .after hops <| (slotTest_slotAs views_viewPs u s).decides fun _ =>
      .bind (psShift_ne_raise _ _ _) fun _ _ => .pure rfl
  | psStep u x =>
    exact SlotDecides.finish <| .after hops <| slotDecides_stepUnit views_viewPs (psStep_ne_raise · x) _ u s
  | psBlock u len => exact SlotDecides.finish <| slotDecides_blockUnit views_viewPs psStep_ne_raise _ u _ s
  | semi ft fr =>
    exact SlotDecides.finish <| .after hops <| PastSlot.decides <|
      .bind (semitones_ne_raise ft fr _) fun _ _ => .pure rfl
  | norm c len =>
    refine SlotDecides.finish (PastSlot.decides ?_)
    split
    · exact .raise (by decide)
    · exact pastSlot_normalise c len.toNat s

/-! ### `len` above XLEN or YLEN, and `len` 0 (R308) -/

/-- What R308 asks of a block command. -/
def BlockLengthChecked (i : Instr) (len : BitVec 32) (s : State) : Prop :=
  (slotCheck i s = false → exec i s = .next (faultEntry .slot s)) ∧
  (slotCheck i s = true → s.params.xlen < len.toNat ∨ s.params.ylen < len.toNat →
    exec i s = .next (faultEntry .capacity s)) ∧
  (slotCheck i s = true → len = 0 → ∃ t, exec i s = .next t ∧ t.pc = s.pc + 1 ∧ t.YMEM0 = s.YMEM0 ∧
    t.YMEM1 = s.YMEM1 ∧ t.U = s.U ∧ statusNormed .c0 t.STATUS = false)

/-- The body of a block command: the slot test, the test of `len`, the input cells, and what is done with them. -/
def blockBody {α : Type} (slots : Run α) (len : Nat) (work : α → List F → Run State) (s : State) : Run State := do
  let a ← slots
  blockLen len s
  let xs ← readCells s.XMEM 0 len
  work a xs

/-- It is enough to know the slot test and that work on no samples answers `s` with flags cleared. -/
theorem blockLengthChecked_of_body {α : Type} {i : Instr} {len : BitVec 32} {s t : State} {slots : Run α}
    {work : α → List F → Run State} (hi : exec i s = finish 0 s (blockBody slots len.toNat work s))
    (hs : SlotTest (slotCheck i s) slots) (hw : ∀ a, slots = .ok a → work a [] = .ok t) (hpc : t.pc = s.pc)
    (h0 : t.YMEM0 = s.YMEM0) (h1 : t.YMEM1 = s.YMEM1) (hU : t.U = s.U) (hn : statusNormed .c0 t.STATUS = false) :
    BlockLengthChecked i len s := by
  rw [BlockLengthChecked, hi, blockBody]
  refine ⟨fun hb => ?_, fun hb hlen => ?_, fun hb hlen => ?_⟩
  · rw [hs.raises hb, raise_bind, finish_raise]
  · obtain ⟨a, ha⟩ := hs.answers hb
    rw [ha, ok_bind, blockLen_of_gt hlen, raise_bind, finish_raise]
  · obtain ⟨a, ha⟩ := hs.answers hb
    have hzero : len.toNat = 0 := by rw [hlen]; rfl
    rw [ha, ok_bind, hzero, blockLen_of_le (Nat.zero_le _) (Nat.zero_le _), ok_bind, readCells, ok_bind, hw a ha,
      finish_ok]
    exact ⟨_, rfl, by rw [advance_pc, hpc], h0, h1, hU, hn⟩

theorem peakOf_nil_le_one : fLt fOne (peakOf []) = false := by decide +kernel

theorem setSlot_of_getElem? {u : Byte} {x : Slot} {s : State} (h : s.U[u.toNat]? = some x) : setSlot u x s = s := by
  obtain ⟨hlt, rfl⟩ := List.getElem?_eq_some_iff.1 h
  rw [setSlot, List.set_getElem_self]

theorem setColumn_column (c : Col) (s : State) : setColumn c (column c s) s = s := by cases c <;> rfl

/-- A channel without samples leaves its slot and its column, and clears NORMEDc. -/
theorem channel_nil {α : Type} {wrap : α → Slot} {f : α → F → Run (F × α)} {u : Byte} {a : α} (c : Col) {s : State}
    (h : s.U[u.toNat]? = some (wrap a)) : channel wrap f u a c [] s = .ok (setNormed c false s) := by
  have hcells : writeCells (column c s) 0 (normalised []) = column c s := by
    rw [List.eq_nil_of_length_eq_zero (normalised_length []), writeCells]
  rw [channel_of_stepAll (ys := []) (a' := a) rfl (List.forall_mem_nil _), peakOf_nil_le_one, hcells,
    setSlot_of_getElem? h, setColumn_column]

/-- The mono block commands. -/
theorem blockLengthChecked_mono {α : Type} {i : Instr} {u : Byte} {len : BitVec 32} {s : State}
    {view : Slot → Option α} {wrap : α → Slot} {f : α → F → Run (F × α)} {ks : List Kind} (hv : Views view ks)
    (hw : ∀ {x a}, view x = some a ↔ x = wrap a) (hi : exec i s = finish 0 s (blockUnit view wrap f u len.toNat s))
    (hc : slotCheck i s = hasKind s u ks) : BlockLengthChecked i len s := by
  refine blockLengthChecked_of_body (t := setNormed .c0 false s) hi (hc ▸ slotTest_slotAs hv u s) (fun a ha => ?_)
    rfl rfl rfl rfl (statusNormed_withNormed .c0 false s.STATUS)
  obtain ⟨x, hx, ha⟩ := slotAs_eq_ok.1 ha
  exact channel_nil .c0 (hw.1 ha ▸ hx)

theorem blockLengthChecked_rvBlock2 (u v : Byte) (len : BitVec 32) (s : State) :
    BlockLengthChecked (.rvBlock2 u v len) len s := by
  refine blockLengthChecked_of_body (t := setNormed .c1 false (setNormed .c0 false s))
    (work := fun p xs => channel .rv rvStep u p.1 .c0 xs s >>= channel .rv rvStep v p.2 .c1 xs)
    rfl (slotTest_stereoSlots u v s) (fun ⟨l, r⟩ ha => ?_) rfl rfl rfl rfl ?_
  · obtain ⟨-, hl, hr⟩ := stereoSlots_eq_ok.1 ha
    simp only [channel_nil .c0 hl, ok_bind]
    exact channel_nil .c1 hr
  · rw [setNormed_STATUS, statusNormed_withNormed_of_ne (by decide), setNormed_STATUS, statusNormed_withNormed]

theorem exec_norm_of_gt {c : Col} {len : BitVec 32} {s : State} (h : s.params.ylen < len.toNat) :
    exec (.norm c len) s = .next (faultEntry .capacity s) := by
  rw [exec, execNorm, if_pos h, raise_bind, finish_raise]

theorem exec_norm_zero (c : Col) (s : State) : exec (.norm c 0) s = .next (advance 0 (setNormed c false s)) := by
  have hlen : ¬ s.params.ylen < (0 : BitVec 32).toNat := Nat.not_lt_zero _
  have hnorm : normalise c (0 : BitVec 32).toNat s = .ok (setNormed c false s) := by
    refine (normalise_of_holds (vs := []) rfl fun k hk => absurd hk (Nat.not_lt_zero k)).trans ?_
    rw [peakOf_nil_le_one]
    rfl
  rw [exec, execNorm, if_neg hlen, ← finish_ok, ← hnorm]

/-- Settles O42: each block command is a `blockBody`, and NORM tests its `len` first. -/
theorem blockLengthIsChecked : Obligations.BlockLengthIsChecked := by
  intro s u v c len
  refine ⟨?_, exec_norm_of_gt, ?_⟩
  · have hfl : BlockLengthChecked (.flBlock u len) len s := blockLengthChecked_mono views_viewFl viewFl_eq_some rfl rfl
    have hrv : BlockLengthChecked (.rvBlock u len) len s := blockLengthChecked_mono views_viewRv viewRv_eq_some rfl rfl
    have hrv2 : BlockLengthChecked (.rvBlock2 u v len) len s := blockLengthChecked_rvBlock2 u v len s
    have htr : BlockLengthChecked (.trBlock u len) len s := blockLengthChecked_mono views_viewTr viewTr_eq_some rfl rfl
    have hps : BlockLengthChecked (.psBlock u len) len s := blockLengthChecked_mono views_viewPs viewPs_eq_some rfl rfl
    exact List.forall_mem_cons.2 ⟨hfl, List.forall_mem_cons.2 ⟨hrv, List.forall_mem_cons.2 ⟨hrv2,
      List.forall_mem_cons.2 ⟨htr, List.forall_mem_singleton.2 hps⟩⟩⟩⟩
  · rintro rfl
    exact ⟨_, exec_norm_zero c s, rfl, rfl, rfl, statusNormed_withNormed c false s.STATUS⟩

end Sys2Proof.Machine
end

section
/-! PROOFS. The statements of 30_encoding and 60_exceptions R309 about decoding: an encoding decodes to its command, what
decodes is its command's encoding, a header selects a row by mask and match, and what does not decode. -/

namespace Sys2Proof

/-! ### From the words of a stream to an opcode and its operands -/

/-- The row of 30_encoding R94 that a command belongs to. -/
def Instr.opcode : Instr → Opcode
  | .dlCfg .. => .dlCfg | .dlWrite .. => .dlWrite | .dlRead .. => .dlRead | .dlProc .. => .dlProc
  | .fircCfg .. => .fircCfg | .fircProc .. => .fircProc | .iircCfg .. => .iircCfg | .iircProc .. => .iircProc
  | .apCfg .. => .apCfg | .apProc .. => .apProc | .lfoCfg .. => .lfoCfg | .lfoTick .. => .lfoTick
  | .triCfg .. => .triCfg | .triTick .. => .triTick | .flCfg .. => .flCfg | .flStep .. => .flStep
  | .flBlock .. => .flBlock | .rvCfg .. => .rvCfg | .rvStep .. => .rvStep | .rvBlock .. => .rvBlock
  | .rvBlock2 .. => .rvBlock2 | .trCfg .. => .trCfg | .trStep .. => .trStep | .trBlock .. => .trBlock
  | .psCfg .. => .psCfg | .psShift .. => .psShift | .psStep .. => .psStep | .psBlock .. => .psBlock
  | .semi .. => .semi | .norm .. => .norm

theorem unusedZero_header_u (opc u : Byte) : unusedZero (header opc u 0 0) .u = true := by simp [unusedZero]

theorem unusedZero_header_uImm (opc u : Byte) (imm : BitVec 32) :
    unusedZero (header opc u 0 imm) .uImm = true := by simp [unusedZero]

theorem unusedZero_header_uVImm (opc u v : Byte) (imm : BitVec 32) :
    unusedZero (header opc u v imm) .uVImm = true := by simp [unusedZero]

theorem unusedZero_header_noFields (opc : Byte) : unusedZero (header opc 0 0 0) .noFields = true := by
  simp [unusedZero]

theorem unusedZero_header_cImm (opc : Byte) (c : Col) (imm : BitVec 32) :
    unusedZero (header opc (colByte c) 0 imm) .cImm = true := by cases c <;> simp [unusedZero, colByte]

/-- A command's encoding starts with a header of its row. -/
theorem decodeHeader_of_encode {i : Instr} {h : Word} {ops : List Word} (he : encode i = h :: ops) :
    decodeHeader h = some i.opcode := by
  rw [decodeHeader_eq_some]
  cases i with
  | rvBlock2 u v len =>
    cases he
    exact ⟨hdrOpc_header .., unusedZero_header_uVImm ..⟩
  | semi t r =>
    cases he
    exact ⟨hdrOpc_header .., unusedZero_header_noFields ..⟩
  | norm c len =>
    cases he
    exact ⟨hdrOpc_header .., unusedZero_header_cImm ..⟩
  | flBlock | rvBlock | trBlock | psBlock =>
    cases he
    exact ⟨hdrOpc_header .., unusedZero_header_uImm ..⟩
  | _ =>
    cases he
    exact ⟨hdrOpc_header .., unusedZero_header_u ..⟩

theorem decode_cons {h : Word} {o : Opcode} (ho : decodeHeader h = some o) (nf : Nat) (ops : List Word) :
    decode nf (h :: ops) = decodeOperands nf o h ops := by simp only [decode, ho]

theorem decode_cons_of_none {h : Word} (ho : decodeHeader h = none) (nf : Nat) (ops : List Word) :
    decode nf (h :: ops) = .error .illegal := by simp only [decode, ho]

/-- What decodes has a header of a row, and operand words of that row. -/
theorem decode_eq_ok {nf : Nat} {ws : List Word} {i : Instr} :
    decode nf ws = .ok i ↔
      ∃ h ops o, ws = h :: ops ∧ decodeHeader h = some o ∧ decodeOperands nf o h ops = .ok i := by
  cases ws with
  | nil => simp [decode]
  | cons h ops =>
    cases ho : decodeHeader h with
    | none => simp [decode_cons_of_none ho, ho]
    | some o => simp [decode_cons ho, ho]

/-! ### An encoding decodes to its command -/

theorem hdrCol_header (opc : Byte) (c : Col) (imm : BitVec 32) : hdrCol (header opc (colByte c) 0 imm) = c := by
  cases c <;> simp [hdrCol, colByte]

theorem toNat_ofNat_length {nf : Nat} {a : List F} (h : arrayOk nf a = true) :
    (BitVec.ofNat 64 a.length).toNat = a.length ∧ a.length ≤ nf := by
  simp only [arrayOk, Bool.and_eq_true, decide_eq_true_eq] at h
  exact ⟨by simpa using h.2, h.1⟩

/-- The operand words of RV.CFG: the counts say where each array ends. -/
theorem decodeRvCfg_append {nf : Nat} {cd cg ad ag : List F} (u : Byte) (fs wet spread : Word)
    (hcd : arrayOk nf cd = true) (hcg : arrayOk nf cg = true) (had : arrayOk nf ad = true) (hag : arrayOk nf ag = true)
    (rest : List Word) :
    decodeRvCfg nf u (fs :: wet :: spread :: BitVec.ofNat 64 cd.length :: BitVec.ofNat 64 cg.length ::
      BitVec.ofNat 64 ad.length :: BitVec.ofNat 64 ag.length :: (cd ++ (cg ++ (ad ++ (ag ++ rest))))) =
      .ok (.rvCfg u fs wet spread cd cg ad ag) := by
  obtain ⟨hcd, hcd'⟩ := toNat_ofNat_length hcd
  obtain ⟨hcg, hcg'⟩ := toNat_ofNat_length hcg
  obtain ⟨had, had'⟩ := toNat_ofNat_length had
  obtain ⟨hag, hag'⟩ := toNat_ofNat_length hag
  simp only [decodeRvCfg, hcd, hcg, had, hag]
  rw [if_neg (by simp; omega), if_neg (by simp only [List.length_append]; omega)]
  simp only [List.drop_left, List.take_left]

/-- Settles O2: the header selects the command's row, and the row's fields and operand words are the command's. -/
theorem decodeOfEncodeIsTheCommand : Obligations.DecodeOfEncodeIsTheCommand := by
  intro nf i rest hw
  obtain ⟨h, ops, he⟩ : ∃ h ops, encode i = h :: ops := by cases i <;> exact ⟨_, _, rfl⟩
  rw [he, List.cons_append, decode_cons (decodeHeader_of_encode he)]
  cases i with
  | rvCfg u fs wet spread cd cg ad ag =>
    cases he
    simp only [Instr.wellFormed, Bool.and_eq_true] at hw
    obtain ⟨⟨⟨hcd, hcg⟩, had⟩, hag⟩ := hw
    simp only [Instr.opcode, decodeOperands, hdrU_header, List.cons_append, List.append_assoc]
    exact decodeRvCfg_append u fs wet spread hcd hcg had hag rest
  | norm c len =>
    cases he
    simp only [Instr.opcode, decodeOperands, hdrCol_header, hdrImm_header]
  | _ =>
    cases he
    simp only [Instr.opcode, decodeOperands, with1, with2, with3, with4, with5, List.cons_append, hdrU_header,
      hdrV_header, hdrImm_header]

/-! ### What decodes is an encoding -/

section
variable {ws : List Word} {i : Instr}

theorem with1_eq_ok {k : Word → Instr} : with1 ws k = .ok i ↔ ∃ a t, ws = a :: t ∧ k a = i := by
  rcases ws with _ | ⟨a, t⟩ <;> simp [with1]

theorem with2_eq_ok {k : Word → Word → Instr} : with2 ws k = .ok i ↔ ∃ a b t, ws = a :: b :: t ∧ k a b = i := by
  rcases ws with _ | ⟨a, _ | ⟨b, t⟩⟩ <;> simp [with2]

theorem with3_eq_ok {k : Word → Word → Word → Instr} :
    with3 ws k = .ok i ↔ ∃ a b c t, ws = a :: b :: c :: t ∧ k a b c = i := by
  rcases ws with _ | ⟨a, _ | ⟨b, _ | ⟨c, t⟩⟩⟩ <;> simp [with3]

theorem with4_eq_ok {k : Word → Word → Word → Word → Instr} :
    with4 ws k = .ok i ↔ ∃ a b c d t, ws = a :: b :: c :: d :: t ∧ k a b c d = i := by
  rcases ws with _ | ⟨a, _ | ⟨b, _ | ⟨c, _ | ⟨d, t⟩⟩⟩⟩ <;> simp [with4]

theorem with5_eq_ok {k : Word → Word → Word → Word → Word → Instr} :
    with5 ws k = .ok i ↔ ∃ a b c d e t, ws = a :: b :: c :: d :: e :: t ∧ k a b c d e = i := by
  rcases ws with _ | ⟨a, _ | ⟨b, _ | ⟨c, _ | ⟨d, _ | ⟨e, t⟩⟩⟩⟩⟩ <;> simp [with5]

end

/-- The header of a row is the row's opcode byte and the fields the row uses. -/
theorem eq_header_of_decodeHeader {h : Word} {o : Opcode} (ho : decodeHeader h = some o) :
    match opcodeFormat o with
    | .u => h = header (opcodeByte o) (hdrU h) 0 0
    | .uImm => h = header (opcodeByte o) (hdrU h) 0 (hdrImm h)
    | .uVImm => h = header (opcodeByte o) (hdrU h) (hdrV h) (hdrImm h)
    | .noFields => h = header (opcodeByte o) 0 0 0
    | .cImm => h = header (opcodeByte o) (colByte (hdrCol h)) 0 (hdrImm h) := by
  obtain ⟨hopc, hz⟩ := decodeHeader_eq_some.1 ho
  have hcol : hdrU h = 0 ∨ hdrU h = 1 → colByte (hdrCol h) = hdrU h := by
    rintro (hu | hu) <;> simp [hdrCol, hu, colByte]
  generalize opcodeFormat o = f at hz ⊢
  cases f <;> simp only [unusedZero, Bool.and_eq_true, Bool.or_eq_true, beq_iff_eq] at hz <;> dsimp only
  case u =>
    obtain ⟨⟨hv, hr⟩, hi⟩ := hz
    rw [← hopc, ← hv, ← hi, header_fields h hr]
  case uImm =>
    obtain ⟨hv, hr⟩ := hz
    rw [← hopc, ← hv, header_fields h hr]
  case uVImm => rw [← hopc, header_fields h hz]
  case noFields =>
    obtain ⟨⟨⟨hu, hv⟩, hr⟩, hi⟩ := hz
    have hf := header_fields h hr
    rwa [hopc, hu, hv, hi, eq_comm] at hf
  case cImm =>
    obtain ⟨⟨hu, hv⟩, hr⟩ := hz
    rw [← hopc, hcol hu, ← hv, header_fields h hr]

/-- What RV.CFG's operand words hold when they decode: seven fixed words, four of them counts within the bound, and
four arrays of those lengths. -/
theorem decodeRvCfg_eq_ok {nf : Nat} {u : Byte} {ws : List Word} {i : Instr} (h : decodeRvCfg nf u ws = .ok i) :
    ∃ fs wet spread cd cg ad ag rest, i = .rvCfg u fs wet spread cd cg ad ag ∧ arrayOk nf cd = true ∧
      arrayOk nf cg = true ∧ arrayOk nf ad = true ∧ arrayOk nf ag = true ∧
      ws = fs :: wet :: spread :: BitVec.ofNat 64 cd.length :: BitVec.ofNat 64 cg.length ::
        BitVec.ofNat 64 ad.length :: BitVec.ofNat 64 ag.length :: (cd ++ (cg ++ (ad ++ (ag ++ rest)))) := by
  simp only [decodeRvCfg] at h
  split at h
  case h_2 => cases h
  case h_1 fs wet spread nCD nCG nAD nAG rest =>
  split at h
  case isTrue => cases h
  case isFalse hcount =>
  split at h
  case isTrue => cases h
  case isFalse hlen =>
  cases h
  simp only [Bool.or_eq_true, decide_eq_true_eq, not_or, not_lt] at hcount hlen
  obtain ⟨⟨⟨hcd, hcg⟩, had⟩, hag⟩ := hcount
  have arrayOk_take : ∀ {n : Word} {l : List F}, n.toNat ≤ nf → n.toNat ≤ l.length →
      (l.take n.toNat).length = n.toNat ∧ arrayOk nf (l.take n.toNat) = true := by
    intro n l hn hl
    have hlt := n.isLt
    have hlen := List.length_take_of_le hl
    exact ⟨hlen, by simp only [arrayOk, hlen, Bool.and_eq_true, decide_eq_true_eq]; exact ⟨hn, hlt⟩⟩
  obtain ⟨h1, h1'⟩ := arrayOk_take hcd (l := rest) (by omega)
  obtain ⟨h2, h2'⟩ := arrayOk_take hcg (l := rest.drop nCD.toNat) (by rw [List.length_drop]; omega)
  obtain ⟨h3, h3'⟩ := arrayOk_take had (l := (rest.drop nCD.toNat).drop nCG.toNat)
    (by rw [List.length_drop, List.length_drop]; omega)
  obtain ⟨h4, h4'⟩ := arrayOk_take hag (l := ((rest.drop nCD.toNat).drop nCG.toNat).drop nAD.toNat)
    (by rw [List.length_drop, List.length_drop, List.length_drop]; omega)
  refine ⟨_, _, _, _, _, _, _, (((rest.drop nCD.toNat).drop nCG.toNat).drop nAD.toNat).drop nAG.toNat, rfl, h1', h2',
    h3', h4', ?_⟩
  simp only [h1, h2, h3, h4, List.take_append_drop, BitVec.ofNat_toNat, BitVec.setWidth_eq]

/-- A stream that decodes starts with the encoding of a well-formed command. -/
theorem exists_encode_append {nf : Nat} {ws : List Word} {i : Instr} (h : decode nf ws = .ok i) :
    i.wellFormed nf = true ∧ ∃ rest, ws = encode i ++ rest := by
  obtain ⟨h, ops, o, rfl, ho, hd⟩ := decode_eq_ok.1 h
  have hh := eq_header_of_decodeHeader ho
  cases o <;> dsimp only [opcodeFormat, opcodeByte] at hh <;> dsimp only [decodeOperands] at hd
  case rvCfg =>
    obtain ⟨fs, wet, spread, cd, cg, ad, ag, rest, rfl, hcd, hcg, had, hag, rfl⟩ := decodeRvCfg_eq_ok hd
    refine ⟨by simp only [Instr.wellFormed, hcd, hcg, had, hag, Bool.and_self], rest, ?_⟩
    simp only [encode, List.cons_append, List.append_assoc, ← hh]
  case dlWrite | dlRead | fircProc | iircProc | apProc | triCfg | flStep | rvStep | trStep | psShift | psStep =>
    obtain ⟨a, rest, rfl, rfl⟩ := with1_eq_ok.1 hd
    exact ⟨rfl, rest, by rw [encode, ← hh]; rfl⟩
  case dlCfg | dlProc | psCfg | semi =>
    obtain ⟨a, b, rest, rfl, rfl⟩ := with2_eq_ok.1 hd
    exact ⟨rfl, rest, by rw [encode, ← hh]; rfl⟩
  case fircCfg | iircCfg | apCfg | trCfg =>
    obtain ⟨a, b, c, rest, rfl, rfl⟩ := with3_eq_ok.1 hd
    exact ⟨rfl, rest, by rw [encode, ← hh]; rfl⟩
  case lfoCfg =>
    obtain ⟨a, b, c, d, rest, rfl, rfl⟩ := with4_eq_ok.1 hd
    exact ⟨rfl, rest, by rw [encode, ← hh]; rfl⟩
  case flCfg =>
    obtain ⟨a, b, c, d, e, rest, rfl, rfl⟩ := with5_eq_ok.1 hd
    exact ⟨rfl, rest, by rw [encode, ← hh]; rfl⟩
  case lfoTick | triTick | flBlock | rvBlock | rvBlock2 | trBlock | psBlock | norm =>
    cases hd
    exact ⟨rfl, ops, by rw [encode, ← hh]; rfl⟩

theorem length_encode (i : Instr) : (encode i).length = 1 + nops i := by
  cases i with
  | rvCfg u fs wet spread cd cg ad ag => exact Laws.EncodeLength.rvCfg u fs wet spread cd cg ad ag
  | _ => rfl

/-- Settles O3: a stream that decodes is its command's encoding and the words behind it. -/
theorem encodeOfDecodeIsTheWords : Obligations.EncodeOfDecodeIsTheWords := by
  intro nf ws i h
  obtain ⟨hw, rest, rfl⟩ := exists_encode_append h
  have hlen := length_encode i
  refine ⟨hw, by rw [List.length_append]; omega, ?_⟩
  rw [← hlen, List.take_left]

/-! ### Mask and match (R95) -/

section
variable (a b : Word)

theorem hdrOpc_and : hdrOpc (a &&& b) = hdrOpc a &&& hdrOpc b := BitVec.extractLsb'_and
theorem hdrU_and : hdrU (a &&& b) = hdrU a &&& hdrU b := BitVec.extractLsb'_and
theorem hdrV_and : hdrV (a &&& b) = hdrV a &&& hdrV b := BitVec.extractLsb'_and
theorem hdrRsv_and : hdrRsv (a &&& b) = hdrRsv a &&& hdrRsv b := BitVec.extractLsb'_and
theorem hdrImm_and : hdrImm (a &&& b) = hdrImm a &&& hdrImm b := BitVec.extractLsb'_and

end

/-- A word that holds an opcode byte and zeros. -/
theorem eq_opcodeMatch_iff {w : Word} {o : Opcode} :
    w = opcodeMatch o ↔ hdrOpc w = opcodeByte o ∧ hdrU w = 0 ∧ hdrV w = 0 ∧ hdrRsv w = 0 ∧ hdrImm w = 0 := by
  have hm : opcodeMatch o = header (opcodeByte o) 0 0 0 := by cases o <;> decide
  constructor
  · rintro rfl
    simp [hm]
  · rintro ⟨ho, hu, hv, hr, hi⟩
    rw [hm, ← header_fields w hr, ho, hu, hv, hi]

/-- `h & mask = match` looks at the opcode byte and at the fields that the format leaves unused. -/
theorem and_formatMask_eq_iff {h : Word} {o : Opcode} {f : HeaderFormat} :
    h &&& formatMask f = opcodeMatch o ↔ hdrOpc h = opcodeByte o ∧ unusedZero h f = true := by
  have hall : ∀ x : Byte, x &&& 255#8 = x := fun x => BitVec.and_allOnes
  have hall32 : ∀ x : BitVec 32, x &&& 4294967295#32 = x := fun x => BitVec.and_allOnes
  have hcol : ∀ x : Byte, x &&& 254#8 = 0#8 ↔ x = 0#8 ∨ x = 1#8 := by decide
  rw [eq_opcodeMatch_iff, hdrOpc_and, hdrU_and, hdrV_and, hdrRsv_and, hdrImm_and]
  cases f <;> simp [formatMask, unusedZero, hdrOpc, hdrU, hdrV, hdrRsv, hdrImm, hall, hall32, hcol, and_assoc]

/-- Settles O4: mask and match say what `decodeHeader` tests, and the opcode byte tells the rows apart. -/
theorem headerSelectsItsTableRow : Obligations.HeaderSelectsItsTableRow := by
  refine ⟨fun h o => decodeHeader_eq_some.trans and_formatMask_eq_iff.symm, fun h o p ho hp => ?_⟩
  exact opcodeByte_inj ((and_formatMask_eq_iff.1 ho).1.symm.trans (and_formatMask_eq_iff.1 hp).1)

/-! ### What does not decode (60_exceptions R309) -/

/-- A command cut short is the encoding of no command: were it one, the words behind it would not change what decodes. -/
theorem decode_take_ne_ok {nf : Nat} {i j : Instr} {n : Nat} (hw : i.wellFormed nf = true) (hn : n < 1 + nops i) :
    decode nf ((encode i).take n) ≠ .ok j := by
  intro h
  obtain ⟨hj, rest, hr⟩ := exists_encode_append h
  have hij : decode nf (encode i) = .ok j := by
    have := decodeOfEncodeIsTheCommand nf j (rest ++ (encode i).drop n) hj
    rwa [← List.append_assoc, ← hr, List.take_append_drop] at this
  have hii : decode nf (encode i) = .ok i := by simpa using decodeOfEncodeIsTheCommand nf i [] hw
  obtain rfl : i = j := Except.ok.inj (hii.symm.trans hij)
  have hlen := congrArg List.length hr
  rw [List.length_append, length_encode, List.length_take, length_encode] at hlen
  omega

theorem decodeOperands_ne_capacity {nf : Nat} {o : Opcode} (ho : o ≠ .rvCfg) (h : Word) (ops : List Word) :
    decodeOperands nf o h ops ≠ .error .capacity := by
  have h1 : ∀ k, with1 ops k ≠ .error .capacity := fun k => by unfold with1; split <;> simp
  have h2 : ∀ k, with2 ops k ≠ .error .capacity := fun k => by unfold with2; split <;> simp
  have h3 : ∀ k, with3 ops k ≠ .error .capacity := fun k => by unfold with3; split <;> simp
  have h4 : ∀ k, with4 ops k ≠ .error .capacity := fun k => by unfold with4; split <;> simp
  have h5 : ∀ k, with5 ops k ≠ .error .capacity := fun k => by unfold with5; split <;> simp
  cases o
  case rvCfg => exact absurd rfl ho
  case dlWrite | dlRead | fircProc | iircProc | apProc | triCfg | flStep | rvStep | trStep | psShift | psStep =>
    exact h1 _
  case dlCfg | dlProc | psCfg | semi => exact h2 _
  case fircCfg | iircCfg | apCfg | trCfg => exact h3 _
  case lfoCfg => exact h4 _
  case flCfg => exact h5 _
  case lfoTick | triTick | flBlock | rvBlock | rvBlock2 | trBlock | psBlock | norm => nofun

/-- Exactly a count of RV.CFG above the bound is E_CAPACITY. -/
theorem decode_eq_capacity {nf : Nat} {ws : List Word} :
    decode nf ws = .error .capacity ↔
      ∃ h fs wet spread nCD nCG nAD nAG rest, ws = h :: fs :: wet :: spread :: nCD :: nCG :: nAD :: nAG :: rest ∧
        decodeHeader h = some .rvCfg ∧ (nf < nCD.toNat ∨ nf < nCG.toNat ∨ nf < nAD.toNat ∨ nf < nAG.toNat) := by
  constructor
  · intro hc
    rcases ws with _ | ⟨h, ops⟩
    · cases hc
    cases ho : decodeHeader h with
    | none => rw [decode_cons_of_none ho] at hc; cases hc
    | some o =>
      rw [decode_cons ho] at hc
      obtain rfl : o = .rvCfg := by_contra fun hne => decodeOperands_ne_capacity hne h ops hc
      simp only [decodeOperands, decodeRvCfg] at hc
      split at hc
      case h_2 => cases hc
      case h_1 fs wet spread nCD nCG nAD nAG rest =>
      refine ⟨h, fs, wet, spread, nCD, nCG, nAD, nAG, rest, rfl, ho, ?_⟩
      split at hc
      case isTrue hcount => simpa [or_assoc] using hcount
      case isFalse => split at hc <;> cases hc
  · rintro ⟨h, fs, wet, spread, nCD, nCG, nAD, nAG, rest, rfl, ho, hcount⟩
    rw [decode_cons ho, decodeOperands, decodeRvCfg, if_pos (by simpa [or_assoc] using hcount)]

theorem decode_take_ne_capacity {nf : Nat} {i : Instr} {n : Nat} (hw : i.wellFormed nf = true) :
    decode nf ((encode i).take n) ≠ .error .capacity := by
  intro hc
  obtain ⟨h, fs, wet, spread, nCD, nCG, nAD, nAG, rest, hws, ho, hcount⟩ := decode_eq_capacity.1 hc
  have he : encode i = h :: fs :: wet :: spread :: nCD :: nCG :: nAD :: nAG :: (rest ++ (encode i).drop n) :=
    (List.take_append_drop n (encode i)).symm.trans (congrArg (· ++ (encode i).drop n) hws)
  have hfull : decode nf (encode i) = .error .capacity :=
    decode_eq_capacity.2 ⟨h, fs, wet, spread, nCD, nCG, nAD, nAG, _, he, ho, hcount⟩
  have hok : decode nf (encode i) = .ok i := by simpa using decodeOfEncodeIsTheCommand nf i [] hw
  cases hok.symm.trans hfull

/-- Settles O5: a header of no row, a command cut short, and a count above the bound. -/
theorem undecodableStreamsAreRejected : Obligations.UndecodableStreamsAreRejected := by
  refine ⟨fun nf h ws hh => decode_cons_of_none hh nf ws, fun nf i n hw hn => ?_,
    fun nf h fs wet spread nCD nCG nAD nAG rest ho hcount =>
      decode_eq_capacity.2 ⟨h, fs, wet, spread, nCD, nCG, nAD, nAG, rest, rfl, ho, hcount⟩⟩
  rcases hd : decode nf ((encode i).take n) with (_ | _) | j
  · rfl
  · exact absurd hd (decode_take_ne_capacity hw)
  · exact absurd hd (decode_take_ne_ok hw hn)

/-- Settles O1, by evaluating the decoder on the twelve streams. -/
theorem workedEncodingsDecode : Obligations.WorkedEncodingsDecode :=
  ⟨rfl, rfl, rfl, rfl, rfl, rfl, rfl, rfl, rfl, rfl, rfl, rfl⟩

end Sys2Proof
end

section
/-! PROOFS. The statements of 60_exceptions R309 to R311 and 70_reset_and_hazards R340, R347 about a step: a decoded
command is executed, what happens without one, what fault entry writes, and where the host's reset leads. -/

namespace Sys2Proof.Machine

/-! ### A step -/

/-- Settles O6: words that decode are not none, so `step` reaches `exec`. -/
theorem stepRunsTheDecodedCommand : Obligations.StepRunsTheDecodedCommand := by
  intro s i hf hd
  cases hws : s.CMD.drop s.pc with
  | nil => rw [hws] at hd; cases hd
  | cons w ws =>
    rw [hws] at hd
    simp [step, hf, fetch, hws, hd]

/-- Settles O7: FAULTED, idle, and words that do not decode. -/
theorem stepsWithoutADecodedCommand : Obligations.StepsWithoutADecodedCommand := by
  refine ⟨fun s hf => by simp [step, hf], fun s hf hpc => by simp [step, hf, fetch, hpc], fun s e hf hpc hd => ?_⟩
  cases hws : s.CMD.drop s.pc with
  | nil => rw [List.drop_eq_nil_iff] at hws; omega
  | cons w ws =>
    rw [hws] at hd
    cases e <;> simp [step, hf, fetch, hws, hd, decodeCause]

/-! ### Fault entry (R310) -/

/-- Outside FAULT and CAUSE fault entry keeps every bit of STATUS. -/
theorem getLsbD_withFault (c : Cause) (st : BitVec 32) {k : Nat} (h0 : k ≠ 0) (h8 : ¬(8 ≤ k ∧ k < 16)) :
    (withFault c st).getLsbD k = st.getLsbD k := by
  by_cases hk : k < 32
  · have hmask : ∀ j : Fin 32, j.val ≠ 0 → ¬(8 ≤ j.val ∧ j.val < 16) →
        (0xFFFF00FE#32).getLsbD j.val = true ∧ (1#32).getLsbD j.val = false := by decide
    obtain ⟨hm, h1⟩ := hmask ⟨k, hk⟩ h0 h8
    have hcause : (((causeCode c).zeroExtend 32) <<< 8).getLsbD k = false := by
      rw [BitVec.getLsbD_shiftLeft]
      by_cases hlow : k < 8
      · simp [hlow]
      · simp [BitVec.getLsbD_of_ge (causeCode c) (k - 8) (by omega)]
    simp only [withFault, BitVec.getLsbD_or, BitVec.getLsbD_and, hcause]
    simp [hm, h1]
  · rw [BitVec.getLsbD_of_ge _ _ (by omega), BitVec.getLsbD_of_ge _ _ (by omega)]

/-- Settles O8, with STATUS as `withFault` writes it. -/
theorem faultEntryRecordsCauseAndIndex : Obligations.FaultEntryRecordsCauseAndIndex := by
  intro c s
  refine ⟨withFault c s.STATUS, rfl, statusFault_withFault c s.STATUS, (statusCause_withFault c s.STATUS).trans ?_,
    fun k => getLsbD_withFault c s.STATUS⟩
  cases c <;> rfl

/-! ### Reset (R340) -/

/-- Settles O10: every field has its reset value, and FAULT is 0, so the stream's first command is executed. -/
theorem hostResetStartsARun : Obligations.HostResetStartsARun := by
  intro s cmd
  refine ⟨resetMachine cmd s, rfl, rfl, rfl, rfl, rfl, List.length_replicate, fun x hx => List.eq_of_mem_replicate hx,
    fun k => rfl, fun c k => by cases c <;> rfl, fun i hi => ?_⟩
  exact stepRunsTheDecodedCommand (resetMachine cmd s) i (show statusFault 0 = false by decide) hi

/-- Settles O45: after reset the memories are empty, every slot is empty and STATUS is 0. -/
theorem resetMeetsTheInvariants : Obligations.ResetMeetsTheInvariants := by
  intro cmd
  refine ⟨⟨memOk_nil _, memOk_nil _, memOk_nil _⟩, rfl, ?_, ?_, rfl, rfl⟩
  · simp [statusOk, State.resetWith, statusReserved, statusFault, statusCause]
  · simp [pcOk, State.resetWith]

end Sys2Proof.Machine
end

section
/-! PROOFS. The statements about configurations: the tests on operands and on the sample rate (60_exceptions R303, R312;
93 U1, U9), the delays out of range (40_delay_line R122), and what each configuration builds. -/

namespace Sys2Proof.Machine

/-! ### Operand tests (R312 item 2) -/

/-- Every well-formed command starts with the test of its `F` operands, and the test of its rates follows. -/
theorem exec_eq_operandTests {i : Instr} {s : State} (hw : i.wellFormed s.params.nfiltMax = true) :
    ∃ r, exec i s = finish (nops i) s (finiteOperands (floatOperands i) >>= fun _ => r) ∧
      ∀ n ∈ rateOperands i, 2 ^ 53 ≤ n.toNat → r = refuse .wideOperand := by
  cases i with
  | rvCfg u fs wet spread cd cg ad ag =>
    have hcounts : countsOk s.params.nfiltMax [cd.length, cg.length, ad.length, ag.length] = .ok () := by
      simp only [Instr.wellFormed, arrayOk, Bool.and_eq_true, decide_eq_true_eq] at hw
      exact if_neg (by simp; omega)
    refine ⟨_, by rw [exec, execRvCfg, hcounts, ok_bind]; rfl, fun n hn hle => ?_⟩
    by_cases hfs : fs.toNat < 2 ^ 53
    · have hspread : 2 ^ 53 ≤ spread.toNat := by
        rcases List.mem_pair.1 hn with rfl | rfl
        · exact absurd hfs (Nat.not_lt.2 hle)
        · exact hle
      rw [narrowOperand_of_lt hfs, ok_bind, narrowOperand_of_le hspread, refuse_bind]
    · rw [narrowOperand_of_le (Nat.not_lt.1 hfs), refuse_bind]
  | dlCfg | fircCfg | iircCfg | apCfg | lfoCfg | flCfg | trCfg | psCfg =>
    refine ⟨_, rfl, fun n hn hle => ?_⟩
    rw [← List.mem_singleton.1 hn, narrowOperand_of_le hle, refuse_bind]
  | _ => exact ⟨_, rfl, fun n hn => nomatch hn⟩

/-- Settles O43: the operand tests come first and refuse. -/
theorem badOperandsAreRefusedBeforeTheSlot : Obligations.BadOperandsAreRefusedBeforeTheSlot := by
  intro i s hw hbad
  obtain ⟨r, hr, hrates⟩ := exec_eq_operandTests hw
  rw [hr]
  refine ⟨fun hf => ?_, fun hf => ?_⟩
  · rw [finiteOperands_of_not hf, refuse_bind, finish_refuse]
  · obtain ⟨n, hn, hle⟩ : ∃ n ∈ rateOperands i, 2 ^ 53 ≤ n.toNat := by simpa [operandsOk, hw, hf] using hbad
    rw [finiteOperands_of_finite hf, ok_bind, hrates n hn hle, finish_refuse]

/-- So a command that answers a next state had acceptable operands. -/
theorem operandsOk_of_exec_next {i : Instr} {s t : State} (hw : i.wellFormed s.params.nfiltMax = true)
    (h : exec i s = .next t) : operandsOk i s = true := by
  by_contra hbad
  obtain ⟨hnot, hwide⟩ := badOperandsAreRefusedBeforeTheSlot i s hw (by simpa using hbad)
  cases hf : (floatOperands i).all fFinite with
  | false => rw [hnot hf] at h; cases h
  | true => rw [hwide hf] at h; cases h

/-! ### What a configuration does after its operand and slot tests -/

section
variable {s : State} {u : Byte} {fs : Word} {ms gain : F}

/-- The tests that a configuration with a sample rate starts with. -/
theorem cfgTests_eq {i : Instr} (h : operandsOk i s = true) (hfs : fs ∈ rateOperands i) (hu : u.toNat < s.U.length)
    (r : Run State) :
    (finiteOperands (floatOperands i) >>= fun _ => narrowOperand fs >>= fun _ => cfgSlot u s >>= fun _ => r) = r := by
  rw [finiteOperands_of_operandsOk h, ok_bind, narrowOperand_of_operandsOk h hfs, ok_bind, cfgSlot_of_lt hu, ok_bind]

theorem exec_dlCfg (h : operandsOk (.dlCfg u ms fs) s = true) (hu : u.toNat < s.U.length) :
    exec (.dlCfg u ms fs) s = finish 2 s (goodRate fs >>= fun _ => msToSamples s.params.capMax ms fs >>= fun L =>
      pure (setSlot u (.dl (freshDelay L)) s)) :=
  congrArg (finish 2 s) (cfgTests_eq h (List.mem_singleton_self fs) hu _)

theorem exec_fircCfg (h : operandsOk (.fircCfg u ms gain fs) s = true) (hu : u.toNat < s.U.length) :
    exec (.fircCfg u ms gain fs) s = finish 3 s (goodRate fs >>= fun _ => newComb s.params.capMax ms gain fs >>= fun c =>
      pure (setSlot u (.firc c) s)) :=
  congrArg (finish 3 s) (cfgTests_eq h (List.mem_singleton_self fs) hu _)

theorem exec_iircCfg (h : operandsOk (.iircCfg u ms gain fs) s = true) (hu : u.toNat < s.U.length) :
    exec (.iircCfg u ms gain fs) s = finish 3 s (goodRate fs >>= fun _ => newComb s.params.capMax ms gain fs >>= fun c =>
      pure (setSlot u (.iirc c) s)) :=
  congrArg (finish 3 s) (cfgTests_eq h (List.mem_singleton_self fs) hu _)

theorem exec_apCfg (h : operandsOk (.apCfg u ms gain fs) s = true) (hu : u.toNat < s.U.length) :
    exec (.apCfg u ms gain fs) s = finish 3 s (goodRate fs >>= fun _ => newComb s.params.capMax ms gain fs >>= fun c =>
      pure (setSlot u (.ap c) s)) :=
  congrArg (finish 3 s) (cfgTests_eq h (List.mem_singleton_self fs) hu _)

theorem exec_lfoCfg {rate center range : F} (h : operandsOk (.lfoCfg u rate center range fs) s = true)
    (hu : u.toNat < s.U.length) :
    exec (.lfoCfg u rate center range fs) s = finish 4 s (goodRate fs >>= fun _ => lfoNew rate center range fs >>= fun l =>
      pure (setSlot u (.lfo l) s)) :=
  congrArg (finish 4 s) (cfgTests_eq h (List.mem_singleton_self fs) hu _)

theorem exec_trCfg {rate depth : F} (h : operandsOk (.trCfg u rate depth fs) s = true) (hu : u.toNat < s.U.length) :
    exec (.trCfg u rate depth fs) s = finish 3 s (goodRate fs >>= fun _ => checked (fDiv depth fTwo) >>= fun half =>
      checked (fSub fOne half) >>= fun center => lfoNew rate center half fs >>= fun l =>
      pure (setSlot u (.tr ⟨l⟩) s)) :=
  congrArg (finish 3 s) (cfgTests_eq h (List.mem_singleton_self fs) hu _)

theorem exec_flCfg {mn mx rate depth : F} (h : operandsOk (.flCfg u mn mx rate depth fs) s = true)
    (hu : u.toNat < s.U.length) :
    exec (.flCfg u mn mx rate depth fs) s = finish 5 s (goodRate fs >>= fun _ =>
      msToSamples s.params.capMax mx fs >>= fun maxD => minDelay s.params.capMax mn fs >>= fun minD =>
      checked (sweepCenter minD maxD) >>= fun center => checked (sweepRange minD maxD) >>= fun range =>
      lfoNew rate center range fs >>= fun lfo =>
      pure (setSlot u (.fl ⟨freshDelay maxD, lfo, depth, minD, maxD⟩) s)) :=
  congrArg (finish 5 s) (cfgTests_eq h (List.mem_singleton_self fs) hu _)

theorem exec_psCfg (h : operandsOk (.psCfg u ms fs) s = true) (hu : u.toNat < s.U.length) :
    exec (.psCfg u ms fs) s = finish 2 s (goodRate fs >>= fun _ => windowSamples s.params.capMax ms fs >>= fun W =>
      pure (setSlot u (.ps ⟨W, freshDelay (2 * W), ⟨fZero, fZero⟩, fOne⟩) s)) :=
  congrArg (finish 2 s) (cfgTests_eq h (List.mem_singleton_self fs) hu _)

theorem exec_rvCfg {wet : F} {spread : Word} {cd cg ad ag : List F}
    (h : operandsOk (.rvCfg u fs wet spread cd cg ad ag) s = true) (hu : u.toNat < s.U.length) :
    exec (.rvCfg u fs wet spread cd cg ad ag) s = finish (7 + cd.length + cg.length + ad.length + ag.length) s
      (goodRate fs >>= fun _ => banksOk cd.length cg.length ad.length ag.length >>= fun _ =>
      newFilters s.params.capMax fs ((cd.map (fAdd · (spreadMs spread fs))).zip cg) >>= fun comb =>
      newFilters s.params.capMax fs (ad.zip ag) >>= fun ap =>
      pure (setSlot u (.rv ⟨comb, ap, fDiv fOne (toF cd.length), wet⟩) s)) := by
  have hops : finiteOperands (wet :: (cd ++ cg ++ ad ++ ag)) = .ok () := finiteOperands_of_operandsOk h
  rw [exec, execRvCfg, countsOk_of_operandsOk h, ok_bind, hops, ok_bind,
    narrowOperand_of_operandsOk h (n := fs) (by simp [rateOperands]), ok_bind,
    narrowOperand_of_operandsOk h (n := spread) (by simp [rateOperands]), ok_bind, cfgSlot_of_lt hu, ok_bind]

end

/-- Settles O39: the rate is tested right after the slot, and 0 raises E_BAD_RATE. -/
theorem zeroRateIsABadRate : Obligations.ZeroRateIsABadRate := by
  intro s i h hs h0
  cases i <;> simp only [rateOperands, List.head?_cons, List.head?_nil, Option.some.injEq, reduceCtorEq] at h0 <;>
    subst h0 <;> replace hs := of_decide_eq_true hs
  case dlCfg => rw [exec_dlCfg h hs, goodRate_zero, raise_bind, finish_raise]
  case fircCfg => rw [exec_fircCfg h hs, goodRate_zero, raise_bind, finish_raise]
  case iircCfg => rw [exec_iircCfg h hs, goodRate_zero, raise_bind, finish_raise]
  case apCfg => rw [exec_apCfg h hs, goodRate_zero, raise_bind, finish_raise]
  case lfoCfg => rw [exec_lfoCfg h hs, goodRate_zero, raise_bind, finish_raise]
  case flCfg => rw [exec_flCfg h hs, goodRate_zero, raise_bind, finish_raise]
  case rvCfg => rw [exec_rvCfg h hs, goodRate_zero, raise_bind, finish_raise]
  case trCfg => rw [exec_trCfg h hs, goodRate_zero, raise_bind, finish_raise]
  case psCfg => rw [exec_psCfg h hs, goodRate_zero, raise_bind, finish_raise]

/-! ### Configurations that build an instance -/

theorem newComb_of_msToSamples {capMax : Nat} {ms gain : F} {fs : Word} {L : Nat}
    (h : msToSamples capMax ms fs = .ok L) : newComb capMax ms gain fs = .ok ⟨freshDelay L, gain⟩ := by
  rw [newComb, h, ok_bind, pure_eq_ok]

/-- Acceptable operands, from their tests one by one. -/
theorem operandsOk_of {i : Instr} {s : State} (hw : i.wellFormed s.params.nfiltMax = true)
    (hf : ∀ v ∈ floatOperands i, fFinite v = true) (hr : ∀ n ∈ rateOperands i, n.toNat < 2 ^ 53) :
    operandsOk i s = true := by
  simp only [operandsOk, hw, Bool.true_and, Bool.and_eq_true, List.all_eq_true, decide_eq_true_eq]
  exact ⟨hf, hr⟩

/-- Settles O16: in range `MsToSamples` answers the truncated quotient. -/
theorem delayAndFilterConfigurationsComplete : Obligations.DelayAndFilterConfigurationsComplete := by
  intro s u ms gain fs hu hms hg h0 h53 q h1 hcap d
  have hL : msToSamples s.params.capMax ms fs = .ok (fTrunc q).toNat := msToSamples_of_range h1 hcap
  have hc : newComb s.params.capMax ms gain fs = .ok ⟨d, gain⟩ := newComb_of_msToSamples hL
  have hrate : ∀ n ∈ [fs], n.toNat < 2 ^ 53 := List.forall_mem_singleton.2 h53
  have hfilter : ∀ v ∈ [ms, gain], fFinite v = true := List.forall_mem_cons.2 ⟨hms, List.forall_mem_singleton.2 hg⟩
  refine ⟨?_, ?_, ?_, ?_⟩
  · rw [exec_dlCfg (operandsOk_of rfl (List.forall_mem_singleton.2 hms) hrate) hu, goodRate_of_pos h0, ok_bind, hL]
    rfl
  · rw [exec_fircCfg (operandsOk_of rfl hfilter hrate) hu, goodRate_of_pos h0, ok_bind, hc]; rfl
  · rw [exec_iircCfg (operandsOk_of rfl hfilter hrate) hu, goodRate_of_pos h0, ok_bind, hc]; rfl
  · rw [exec_apCfg (operandsOk_of rfl hfilter hrate) hu, goodRate_of_pos h0, ok_bind, hc]; rfl

/-! ### Oscillators -/

theorem fLe_eq_false_of_fLt {a b : F} (h : fLt a b = true) : fLe b a = false := by
  obtain ⟨ha, hb, hlt⟩ := fLt_eq_true.1 h
  rw [← Bool.not_eq_true, fLe_iff hb ha]
  omega

/-- Settles O18: the two sides of U4. -/
theorem triangularConfigurationCompletes : Obligations.TriangularConfigurationCompletes := by
  intro s u rate hu hf
  have hexec : exec (.triCfg u rate) s =
      finish 1 s (phasorRateOk rate >>= fun _ => pure (setSlot u (.tri ⟨fZero, rate⟩) s)) := by
    rw [exec, execTriCfg, finiteOperands_of_finite (by simpa using hf), ok_bind, cfgSlot_of_lt hu, ok_bind]
  rw [hexec, phasorRateOk]
  refine ⟨fun h => ?_, fun h => ?_⟩
  · rw [if_neg (by simp [fLe_eq_false_of_fLt h])]; rfl
  · rw [if_pos h, refuse_bind, finish_refuse]

/-- Half of a finite value has magnitude at most 2^1023, the pattern `0x7FE0000000000000`. -/
theorem fMag_half_le {a : F} (ha : fFinite a = true) :
    fFinite (fDiv a fTwo) = true ∧ fMag (fDiv a fTwo) ≤ 0x7FE0000000000000 := by
  have hle : fMag (fDiv a fTwo) ≤ 0x7FE0000000000000 := by
    have hbig : unitsOf fInfMag * fScale = unitsOf 0x7FE0000000000000 * unitsOf (fMag fTwo) := by decide +kernel
    rw [fDiv_of_finite ha (by decide) (by decide), fMag_fRound]
    have hmag := Nat.le_of_lt (fFinite_iff.1 ha)
    exact roundMag_le_of_le (unitsOf_pos (by decide) (by decide)) (by decide)
      (Nat.le_trans (Nat.mul_le_mul_right _ ((unitsOf_le_iff hmag (Nat.le_refl _)).2 hmag)) (Nat.le_of_eq hbig))
  exact ⟨fFinite_iff.2 (Nat.lt_of_le_of_lt hle (by decide)), hle⟩

/-- The center of a tremolo is finite. -/
theorem fFinite_one_sub_half {a : F} (ha : fFinite a = true) : fFinite (fSub fOne (fDiv a fTwo)) = true := by
  obtain ⟨hf, hle⟩ := fMag_half_le ha
  have hone : fFinite fOne = true := by decide
  have hbound : (unitsOf 0x7FE0000000000000 : Int) + fInt fOne ≤ fInt 0x7FEFFFFFFFFFFFFF := by decide +kernel
  have hpos : 0 ≤ fInt fOne := by decide +kernel
  have hneg : fInt (0xFFEFFFFFFFFFFFFF : F) = -fInt (0x7FEFFFFFFFFFFFFF : F) := by decide +kernel
  have hunits := (unitsOf_le_iff (Nat.le_of_lt (fFinite_iff.1 hf)) (by decide)).2 hle
  rw [← natAbs_fInt] at hunits
  exact fFinite_of_between (a := 0xFFEFFFFFFFFFFFFF) (c := 0x7FEFFFFFFFFFFFFF) (by decide) (by decide)
    (fMag_fSub_le hone hf) (le_fInt_fSub hone hf (by decide) (by omega)) (fInt_fSub_le hone hf (by decide) (by omega))

theorem lfoNew_of_finite {rate center range : F} {fs : Word}
    (h : fFinite (fDiv (fMul Config.TWO_PI rate) (toF fs.toNat)) = true) :
    lfoNew rate center range fs = .ok ⟨fZero, fDiv (fMul Config.TWO_PI rate) (toF fs.toNat), center, range⟩ :=
  lfoNew_eq_ok.2 ⟨h, rfl⟩

theorem checked_of_not_finite {v : F} (h : fFinite v = false) : checked v = refuse .nonFiniteResult :=
  if_neg (by simp [h])

theorem lfoNew_of_not_finite {rate center range : F} {fs : Word}
    (h : fFinite (fDiv (fMul Config.TWO_PI rate) (toF fs.toNat)) = false) :
    lfoNew rate center range fs = refuse .nonFiniteResult := by
  rw [lfoNew, checked_of_not_finite h, refuse_bind]

/-- Settles O17: the step alone decides, since half a depth and one less it are finite. -/
theorem lfoAndTremoloConfigurationsComplete : Obligations.LfoAndTremoloConfigurationsComplete := by
  intro s u rate center range depth fs hu hr hc hg hd h0 h53 st half
  have hrate : ∀ n ∈ [fs], n.toNat < 2 ^ 53 := List.forall_mem_singleton.2 h53
  have hlfo : ∀ v ∈ [rate, center, range], fFinite v = true :=
    List.forall_mem_cons.2 ⟨hr, List.forall_mem_cons.2 ⟨hc, List.forall_mem_singleton.2 hg⟩⟩
  have htr : ∀ v ∈ [rate, depth], fFinite v = true := List.forall_mem_cons.2 ⟨hr, List.forall_mem_singleton.2 hd⟩
  rw [exec_lfoCfg (operandsOk_of rfl hlfo hrate) hu, exec_trCfg (operandsOk_of rfl htr hrate) hu, goodRate_of_pos h0,
    ok_bind, ok_bind, checked_of_finite (fMag_half_le hd).1, ok_bind, checked_of_finite (fFinite_one_sub_half hd),
    ok_bind]
  refine ⟨fun hst => ?_, fun hst => ?_⟩
  · rw [lfoNew_of_finite hst, lfoNew_of_finite hst]
    exact ⟨rfl, rfl⟩
  · rw [lfoNew_of_not_finite hst, lfoNew_of_not_finite hst]
    exact ⟨rfl, rfl⟩

/-! ### Flanger, reverberator, pitch shifter -/

theorem minDelay_of_range {capMax : Nat} {ms : F} {fs : Word} (h0 : fLt (msQuotient ms fs) fZero = false)
    (hcap : fLt (toF capMax) (msQuotient ms fs) = false) :
    minDelay capMax ms fs = .ok (fTrunc (msQuotient ms fs)).toNat := by simp [minDelay, h0, hcap]

theorem minDelay_of_lt {capMax : Nat} {ms : F} {fs : Word} (h : fLt (msQuotient ms fs) fZero = true) :
    minDelay capMax ms fs = refuse .negativeDelay := by simp [minDelay, h]

theorem minDelay_of_gt {capMax : Nat} {ms : F} {fs : Word} (h0 : fLt (msQuotient ms fs) fZero = false)
    (hcap : fLt (toF capMax) (msQuotient ms fs) = true) : minDelay capMax ms fs = raise .capacity := by
  simp [minDelay, h0, hcap]

/-- Settles O19: both bounds in range; then the center, the range and the step decide, in this order. -/
theorem flangerConfigurationCompletes : Obligations.FlangerConfigurationCompletes := by
  intro s u minMs maxMs rate depth fs hu hmn hmx hr hd h0 h53 qmax qmin h1 hcap h2 hcap2 maxD minD center range st
  have hops : ∀ v ∈ [minMs, maxMs, rate, depth], fFinite v = true := List.forall_mem_cons.2 ⟨hmn,
    List.forall_mem_cons.2 ⟨hmx, List.forall_mem_cons.2 ⟨hr, List.forall_mem_singleton.2 hd⟩⟩⟩
  have hmax : msToSamples s.params.capMax maxMs fs = .ok maxD := msToSamples_of_range h1 hcap
  have hmin : minDelay s.params.capMax minMs fs = .ok minD := minDelay_of_range h2 hcap2
  have hcenter : sweepCenter minD maxD = center := rfl
  have hrange : sweepRange minD maxD = range := rfl
  rw [exec_flCfg (operandsOk_of rfl hops (List.forall_mem_singleton.2 h53)) hu, goodRate_of_pos h0, ok_bind, hmax,
    ok_bind, hmin, ok_bind, hcenter, hrange]
  refine ⟨fun hc hg hst => ?_, fun hnot => ?_⟩
  · rw [checked_of_finite hc, ok_bind, checked_of_finite hg, ok_bind, lfoNew_of_finite hst]
    rfl
  · have honly : OnlyNonFinite (checked center >>= fun c => checked range >>= fun g => lfoNew rate c g fs) :=
      onlyNonFinite_bind (onlyNonFinite_checked _) fun _ => onlyNonFinite_bind (onlyNonFinite_checked _) fun _ =>
        onlyNonFinite_lfoNew _ _ _ _
    have hrefuse := honly.of_ne_ok fun l hl => by
      simp only [checked_bind_eq_ok, lfoNew_eq_ok] at hl
      obtain ⟨hc, hg, hst, -⟩ := hl
      rcases hnot with h | h | h
      · exact Bool.false_ne_true (h.symm.trans hc)
      · exact Bool.false_ne_true (h.symm.trans hg)
      · exact Bool.false_ne_true (h.symm.trans hst)
    have hbody : (checked center >>= fun c => checked range >>= fun g => lfoNew rate c g fs >>= fun lfo =>
        (pure (setSlot u (.fl ⟨freshDelay maxD, lfo, depth, minD, maxD⟩) s) : Run State)) =
        ((checked center >>= fun c => checked range >>= fun g => lfoNew rate c g fs) >>= fun lfo =>
          pure (setSlot u (.fl ⟨freshDelay maxD, lfo, depth, minD, maxD⟩) s)) := by
      simp only [bind_assoc]
    rw [hbody, hrefuse, refuse_bind, finish_refuse]

/-- Settles O21: the window's quotient in range, and twice the window within CAP_MAX. -/
theorem pitchShifterConfigurationCompletes : Obligations.PitchShifterConfigurationCompletes := by
  intro s u ms fs hu hms h0 h53 q W h1 hcap h2
  have hW : windowSamples s.params.capMax ms fs = .ok W := windowSamples_eq_ok.2 ⟨msToSamples_of_range h1 hcap, h2⟩
  rw [exec_psCfg (operandsOk_of rfl (List.forall_mem_singleton.2 hms) (List.forall_mem_singleton.2 h53)) hu,
    goodRate_of_pos h0, ok_bind, hW]
  rfl

/-- Filters whose delays are all in range. -/
theorem newFilters_of_fits {capMax : Nat} {fs : Word} {ms gains : List F} {len : F → Nat}
    (h : ∀ v ∈ ms, msToSamples capMax v fs = .ok (len v)) :
    newFilters capMax fs (ms.zip gains) = .ok (List.zipWith (fun v g => ⟨freshDelay (len v), g⟩) ms gains) := by
  induction ms generalizing gains with
  | nil => rfl
  | cons v ms ih =>
    cases gains with
    | nil => rfl
    | cons g gains =>
      rw [List.zip_cons_cons, newFilters, newComb_of_msToSamples (h v (by simp)), ok_bind,
        ih fun w hw => h w (List.mem_cons_of_mem _ hw), ok_bind, pure_eq_ok, List.zipWith_cons_cons]

theorem banksOk_of_eq {nCD nCG nAD nAG : Nat} (hc : nCD = nCG) (ha : nAD = nAG) (h0 : nCD ≠ 0) :
    banksOk nCD nCG nAD nAG = .ok () := by simp [banksOk, hc, ha, hc ▸ h0]

/-- Settles O20: every delay in range, so both lists of filters are built. -/
theorem reverbConfigurationCompletes : Obligations.ReverbConfigurationCompletes := by
  intro s u fs wet spread cd cg ad ag hu h h0 hcd had hne q spMs hcomb hap filter
  have hbanks := banksOk_of_eq hcd had (fun h => hne (List.length_eq_zero_iff.1 h))
  have hcomb' : newFilters s.params.capMax fs ((cd.map (fAdd · spMs)).zip cg) = .ok (List.zipWith filter (cd.map (fAdd · spMs)) cg) :=
    newFilters_of_fits (len := fun v => (fTrunc (q v)).toNat) fun v hv => by
      obtain ⟨ms, hms, rfl⟩ := List.mem_map.1 hv
      exact msToSamples_of_range (hcomb ms hms).1 (hcomb ms hms).2
  have hap' : newFilters s.params.capMax fs (ad.zip ag) = .ok (List.zipWith filter ad ag) :=
    newFilters_of_fits (len := fun v => (fTrunc (q v)).toNat) fun v hv => msToSamples_of_range (hap v hv).1 (hap v hv).2
  have hspread : spreadMs spread fs = spMs := rfl
  have hpc : s.pc + 1 + (7 + cd.length + cg.length + ad.length + ag.length) = s.pc + 8 + 2 * cd.length + 2 * ad.length := by
    omega
  rw [exec_rvCfg h hu, goodRate_of_pos h0, ok_bind, hbanks, ok_bind, hspread, hcomb', ok_bind, hap', ok_bind,
    pure_eq_ok, finish_ok, List.zipWith_map_left, advance, setSlot_pc, hpc]
  rfl

/-! ### Delays out of range -/

theorem newComb_of_raise {capMax : Nat} {ms gain : F} {fs : Word} {c : Cause}
    (h : msToSamples capMax ms fs = raise c) : newComb capMax ms gain fs = raise c := by
  rw [newComb, h, raise_bind]

/-- The first delay out of range decides. -/
theorem newFilters_of_raise {capMax : Nat} {fs : Word} {ms gains : List F} {k : Nat} {v : F} {c : Cause}
    (hl : ms.length = gains.length) (hk : ms[k]? = some v)
    (hbefore : ∀ w ∈ ms.take k, ∃ L, msToSamples capMax w fs = .ok L) (hv : msToSamples capMax v fs = raise c) :
    newFilters capMax fs (ms.zip gains) = raise c := by
  induction ms generalizing gains k with
  | nil => simp at hk
  | cons w ms ih =>
    rcases gains with _ | ⟨g, gains⟩
    · cases hl
    rw [List.zip_cons_cons, newFilters]
    cases k with
    | zero =>
      obtain rfl : w = v := by simpa using hk
      rw [newComb_of_raise hv, raise_bind]
    | succ k =>
      obtain ⟨L, hL⟩ := hbefore w (by simp)
      rw [newComb_of_msToSamples hL, ok_bind,
        ih (by simpa using hl) (by simpa using hk) fun w' hw' => hbefore w' (by simp [hw']), raise_bind]

/-- Settles O40: the lengths are compared before any delay is converted. -/
theorem reverbArraysMustMatch : Obligations.ReverbArraysMustMatch := by
  intro s u fs wet spread cd cg ad ag i h hs h0
  rw [exec_rvCfg h (of_decide_eq_true hs), goodRate_of_pos h0, ok_bind]
  refine ⟨fun hne => ?_, fun hcd hcg had => ?_⟩
  · rw [banksOk, if_pos (by simpa using hne), raise_bind, finish_raise]
  · rw [banksOk, if_neg (by simp [hcd, hcg, had]), if_pos (by rw [hcd]; rfl), raise_bind, finish_raise]

section
variable {s : State} {u : Byte} {ms : F} {fs : Word} {c : Cause}

/-- What a delay out of range does in each command with one delay and, as the maximum, in FL.CFG. -/
def DelayRaises (s : State) (u : Byte) (ms : F) (fs : Word) (c : Cause) : Prop :=
  exec (.dlCfg u ms fs) s = .next (faultEntry c s) ∧
    (∀ g, fFinite g = true → exec (.fircCfg u ms g fs) s = .next (faultEntry c s) ∧
      exec (.iircCfg u ms g fs) s = .next (faultEntry c s) ∧ exec (.apCfg u ms g fs) s = .next (faultEntry c s)) ∧
    (∀ mn r dp, fFinite mn = true → fFinite r = true → fFinite dp = true →
      exec (.flCfg u mn ms r dp fs) s = .next (faultEntry c s)) ∧
    exec (.psCfg u ms fs) s = .next (faultEntry c s)

theorem delayRaises_of_msToSamples (hu : u.toNat < s.U.length) (hms : fFinite ms = true) (h0 : 0 < fs.toNat)
    (h53 : fs.toNat < 2 ^ 53) (hr : msToSamples s.params.capMax ms fs = raise c) : DelayRaises s u ms fs c := by
  have hrate : ∀ n ∈ [fs], n.toNat < 2 ^ 53 := List.forall_mem_singleton.2 h53
  have hone : ∀ v ∈ [ms], fFinite v = true := List.forall_mem_singleton.2 hms
  refine ⟨?_, fun g hg => ?_, fun mn r dp hmn hr' hdp => ?_, ?_⟩
  · rw [exec_dlCfg (operandsOk_of rfl hone hrate) hu, goodRate_of_pos h0, ok_bind, hr, raise_bind, finish_raise]
  · have hops : ∀ v ∈ [ms, g], fFinite v = true := List.forall_mem_cons.2 ⟨hms, List.forall_mem_singleton.2 hg⟩
    rw [exec_fircCfg (operandsOk_of rfl hops hrate) hu, exec_iircCfg (operandsOk_of rfl hops hrate) hu,
      exec_apCfg (operandsOk_of rfl hops hrate) hu, goodRate_of_pos h0, newComb_of_raise hr]
    exact ⟨rfl, rfl, rfl⟩
  · have hops : ∀ v ∈ [mn, ms, r, dp], fFinite v = true := List.forall_mem_cons.2 ⟨hmn,
      List.forall_mem_cons.2 ⟨hms, List.forall_mem_cons.2 ⟨hr', List.forall_mem_singleton.2 hdp⟩⟩⟩
    rw [exec_flCfg (operandsOk_of rfl hops hrate) hu, goodRate_of_pos h0, ok_bind, hr, raise_bind, finish_raise]
  · rw [exec_psCfg (operandsOk_of rfl hone hrate) hu, goodRate_of_pos h0, ok_bind, windowSamples, hr, raise_bind,
      raise_bind, finish_raise]

/-- The bank and the chain of RV.CFG: the first delay out of range, the combs before the all-pass filters, decides. -/
theorem exec_rvCfg_of_raise {wet v : F} {spread : Word} {cd cg ad ag : List F} {k : Nat} (hu : u.toNat < s.U.length)
    (h0 : 0 < fs.toNat) (h : operandsOk (.rvCfg u fs wet spread cd cg ad ag) s = true) (hcd : cd.length = cg.length)
    (had : ad.length = ag.length) (hne : cd ≠ [])
    (hk : (cd.map (fAdd · (spreadMs spread fs)) ++ ad)[k]? = some v)
    (hbefore : ∀ w ∈ (cd.map (fAdd · (spreadMs spread fs)) ++ ad).take k, ∃ L, msToSamples s.params.capMax w fs = .ok L)
    (hv : msToSamples s.params.capMax v fs = raise c) :
    exec (.rvCfg u fs wet spread cd cg ad ag) s = .next (faultEntry c s) := by
  have hbanks := banksOk_of_eq hcd had (fun h => hne (List.length_eq_zero_iff.1 h))
  rw [exec_rvCfg h hu, goodRate_of_pos h0, ok_bind, hbanks, ok_bind]
  generalize hm : cd.map (fAdd · (spreadMs spread fs)) = combs at hk hbefore ⊢
  have hcombs : combs.length = cg.length := by rw [← hm, List.length_map, hcd]
  by_cases hlt : k < combs.length
  · rw [List.getElem?_append_left hlt] at hk
    rw [List.take_append_of_le_length (Nat.le_of_lt hlt)] at hbefore
    rw [newFilters_of_raise hcombs hk hbefore hv, raise_bind, finish_raise]
  · have hge : combs.length ≤ k := Nat.not_lt.1 hlt
    rw [List.getElem?_append_right hge] at hk
    rw [List.take_append, List.take_of_length_le hge] at hbefore
    have hfits : ∀ w ∈ combs, ∃ L, msToSamples s.params.capMax w fs = .ok L :=
      fun w hw => hbefore w (List.mem_append_left _ hw)
    choose! len hlen using hfits
    rw [newFilters_of_fits hlen, ok_bind, newFilters_of_raise had hk (fun w hw => hbefore w (List.mem_append_right _ hw)) hv, raise_bind,
      finish_raise]

end

/-- Settles O41: `MsToSamples` raises what the quotient asks for, and each configuration raises that. -/
theorem delaysOutOfRangeFault : Obligations.DelaysOutOfRangeFault := by
  intro s u ms fs hu hms h0 h53 q short long fits raises
  have hrate : ∀ n ∈ [fs], n.toNat < 2 ^ 53 := List.forall_mem_singleton.2 h53
  have hlong : ∀ {v}, long v → msToSamples s.params.capMax v fs = raise .capacity := fun h => msToSamples_of_gt h.1 h.2
  have hfits : ∀ {v}, fits v → msToSamples s.params.capMax v fs = .ok (fTrunc (q v)).toNat :=
    fun h => msToSamples_of_range h.1 h.2
  refine ⟨fun h => delayRaises_of_msToSamples hu hms h0 h53 (msToSamples_of_lt h),
    fun h => delayRaises_of_msToSamples hu hms h0 h53 (hlong h), fun h hcap => ?_, fun mx r dp hmx hr hdp hmax => ?_, ?_⟩
  · rw [exec_psCfg (operandsOk_of rfl (List.forall_mem_singleton.2 hms) hrate) hu, goodRate_of_pos h0, ok_bind,
      windowSamples, hfits h, ok_bind, if_pos hcap, raise_bind, raise_bind, finish_raise]
  · have hops : ∀ v ∈ [ms, mx, r, dp], fFinite v = true := List.forall_mem_cons.2 ⟨hms,
      List.forall_mem_cons.2 ⟨hmx, List.forall_mem_cons.2 ⟨hr, List.forall_mem_singleton.2 hdp⟩⟩⟩
    rw [exec_flCfg (operandsOk_of rfl hops hrate) hu, goodRate_of_pos h0, ok_bind, hfits hmax, ok_bind]
    refine ⟨fun hneg => ?_, fun hneg hcap => ?_⟩
    · rw [minDelay_of_lt hneg, refuse_bind, finish_refuse]
    · rw [minDelay_of_gt hneg hcap, raise_bind, finish_raise]
  · intro wet spread cd cg ad ag i h hcd had hne delays k v hk hbefore
    refine ⟨fun hv => ?_, fun hv => ?_⟩
    · exact exec_rvCfg_of_raise hu h0 h hcd had hne hk (fun w hw => ⟨_, hfits (hbefore w hw)⟩) (msToSamples_of_lt hv)
    · exact exec_rvCfg_of_raise hu h0 h hcd had hne hk (fun w hw => ⟨_, hfits (hbefore w hw)⟩) (hlong hv)

end Sys2Proof.Machine
end

section
/-! PROOFS. One inversion lemma for all commands (`exec_cases`): everything a command can do when it answers a next state.
Each frame statement is a case analysis over it. -/

namespace Sys2Proof.Machine

/-! ### What a configuration puts in its slot -/

/-- `Configures cap i u x`: command `i` builds the instance `x` for slot `u`. -/
inductive Configures (cap : Nat) : Instr → Byte → Slot → Prop
  | dl {u ms fs L} (hL : msToSamples cap ms fs = .ok L) : Configures cap (.dlCfg u ms fs) u (.dl (freshDelay L))
  | firc {u ms g fs L} (hL : msToSamples cap ms fs = .ok L) (hg : fFinite g = true) :
    Configures cap (.fircCfg u ms g fs) u (.firc ⟨freshDelay L, g⟩)
  | iirc {u ms g fs L} (hL : msToSamples cap ms fs = .ok L) (hg : fFinite g = true) :
    Configures cap (.iircCfg u ms g fs) u (.iirc ⟨freshDelay L, g⟩)
  | ap {u ms g fs L} (hL : msToSamples cap ms fs = .ok L) (hg : fFinite g = true) :
    Configures cap (.apCfg u ms g fs) u (.ap ⟨freshDelay L, g⟩)
  | lfo {u rate center range fs l} (hl : lfoNew rate center range fs = .ok l) (hc : fFinite center = true)
    (hr : fFinite range = true) : Configures cap (.lfoCfg u rate center range fs) u (.lfo l)
  | tri {u rate} (hf : fFinite rate = true) (hr : fLe fOne (fAbs rate) = false) :
    Configures cap (.triCfg u rate) u (.tri ⟨fZero, rate⟩)
  | fl {u mn mx rate depth fs maxD minD l} (hmax : msToSamples cap mx fs = .ok maxD)
    (hc : fFinite (sweepCenter minD maxD) = true) (hr : fFinite (sweepRange minD maxD) = true)
    (hd : fFinite depth = true) (hl : lfoNew rate (sweepCenter minD maxD) (sweepRange minD maxD) fs = .ok l) :
    Configures cap (.flCfg u mn mx rate depth fs) u (.fl ⟨freshDelay maxD, l, depth, minD, maxD⟩)
  | rv {u fs wet spread cd cg ad ag comb ap} (hw : fFinite wet = true) (hcg : ∀ g ∈ cg, fFinite g = true)
    (hag : ∀ g ∈ ag, fFinite g = true) (hlen : cd.length = cg.length) (hne : cd.length ≠ 0)
    (hcomb : newFilters cap fs ((cd.map (fAdd · (spreadMs spread fs))).zip cg) = .ok comb)
    (hap : newFilters cap fs (ad.zip ag) = .ok ap) :
    Configures cap (.rvCfg u fs wet spread cd cg ad ag) u (.rv ⟨comb, ap, fDiv fOne (toF cd.length), wet⟩)
  | tr {u rate depth fs l} (hh : fFinite (fDiv depth fTwo) = true) (hc : fFinite (fSub fOne (fDiv depth fTwo)) = true)
    (hl : lfoNew rate (fSub fOne (fDiv depth fTwo)) (fDiv depth fTwo) fs = .ok l) :
    Configures cap (.trCfg u rate depth fs) u (.tr ⟨l⟩)
  | ps {u ms fs W} (hW : msToSamples cap ms fs = .ok W) :
    Configures cap (.psCfg u ms fs) u (.ps ⟨W, freshDelay (2 * W), ⟨fZero, fZero⟩, fOne⟩)

theorem Configures.isCfg_changedSlots {cap : Nat} {i : Instr} {u : Byte} {x : Slot} (h : Configures cap i u x) :
    isCfg i = true ∧ changedSlots i = [u] := by cases h <;> exact ⟨rfl, rfl⟩

/-! ### What one sample does to a slot -/

/-- `Samples z z'`: a finite value stored in the delay line of `z`, or one step of the unit in `z`, gives `z'`. -/
inductive Samples : Slot → Slot → Prop
  | store {z d v} (hd : viewDelay z = some d) (hv : fFinite v = true) : Samples z (withDelay (push d v) z)
  | lfo {l} (h : lfoTickFinite l = true) : Samples (.lfo l) (.lfo (lfoNext l))
  | tri {p o p'} (h : triTick p = .ok (o, p')) : Samples (.tri p) (.tri p')
  | fl {f x y f'} (hx : fFinite x = true) (h : flGives f x y f') : Samples (.fl f) (.fl f')
  | rv {r x y r'} (h : rvGives r x y r') : Samples (.rv r) (.rv r')
  | tr {t x y t'} (h : trGives t x y t') : Samples (.tr t) (.tr t')
  | ps {q x y q'} (hx : fFinite x = true) (h : psStep q x = .ok (y, q')) : Samples (.ps q) (.ps q')

/-- The samples of a block, one after another. -/
abbrev SampleRun : Slot → Slot → Prop := Relation.ReflTransGen Samples

theorem forall_finite_of_holds {m : Mem} {xs : List F} (h : Holds m xs) : ∀ x ∈ xs, fFinite x = true := by
  intro x hx
  obtain ⟨k, hk, rfl⟩ := List.getElem_of_mem hx
  simpa [List.getD_eq_getElem?_getD, List.getElem?_eq_getElem hk] using (h k hk).2

theorem sampleRun_of_stepAll {α : Type} {wrap : α → Slot} {f : α → F → Run (F × α)}
    (hf : ∀ {a x y b}, fFinite x = true → f a x = .ok (y, b) → Samples (wrap a) (wrap b)) {a a' : α} {xs ys : List F}
    (hx : ∀ x ∈ xs, fFinite x = true) (h : stepAll f a xs = .ok (ys, a')) : SampleRun (wrap a) (wrap a') := by
  induction xs generalizing a ys with
  | nil =>
    obtain ⟨-, rfl⟩ : [] = ys ∧ a = a' := by simpa [stepAll] using h
    exact .refl
  | cons x xs ih =>
    simp only [stepAll, bind_eq_ok, Prod.exists] at h
    obtain ⟨y, b, h1, zs, c, h2, h3⟩ := h
    cases h3
    exact .head (hf (hx x (by simp)) h1) (ih (fun x' hx' => hx x' (List.mem_cons_of_mem _ hx')) h2)

/-! ### The peak of a range (48_normalise R291) -/

/-- Among values of positive sign the greater magnitude is the greater value. -/
theorem fLt_iff_fMag_lt {a b : F} (ha : fFinite a = true) (hb : fFinite b = true) (hsa : fSign a = false)
    (hsb : fSign b = false) : fLt a b = true ↔ fMag a < fMag b := by
  have hma := Nat.le_of_lt (fFinite_iff.1 ha)
  have hmb := Nat.le_of_lt (fFinite_iff.1 hb)
  have hunits := unitsOf_le_iff hmb hma
  rw [fLt_iff hma hmb, fInt_eq, fInt_eq, hsa, hsb]
  simp only [Bool.false_eq_true, if_false, Int.ofNat_lt]
  omega

/-- A running maximum of absolute values from `p` on: finite, positive, above every value, and one of them or `p`. -/
structure PeakFrom (p : F) (vs : List F) (q : F) : Prop where
  finite : fFinite q = true
  positive : fSign q = false
  start_le : fMag p ≤ fMag q
  le : ∀ v ∈ vs, fMag v ≤ fMag q
  attained : q = p ∨ ∃ v ∈ vs, fMag v = fMag q

theorem peakFrom_foldl {p : F} {vs : List F} (hp : fFinite p = true) (hs : fSign p = false)
    (hvs : ∀ v ∈ vs, fFinite v = true) :
    PeakFrom p vs (vs.foldl (fun peak v => if fLt peak (fAbs v) then fAbs v else peak) p) := by
  induction vs generalizing p with
  | nil => exact ⟨hp, hs, Nat.le_refl _, fun _ h => (nomatch h), .inl rfl⟩
  | cons v vs ih =>
    have hv : fFinite v = true := hvs v (by simp)
    have hlt := fLt_iff_fMag_lt hp (by simpa using hv) hs (fSign_fAbs v)
    rw [fMag_fAbs] at hlt
    have htail : ∀ w ∈ vs, fFinite w = true := fun w hw => hvs w (List.mem_cons_of_mem _ hw)
    rw [List.foldl_cons]
    split
    · rename_i h
      obtain ⟨hf, hpos, hstart, hle, hatt⟩ := ih (p := fAbs v) (by simpa using hv) (fSign_fAbs v) htail
      rw [fMag_fAbs] at hstart
      refine ⟨hf, hpos, Nat.le_trans (Nat.le_of_lt (hlt.1 h)) hstart, List.forall_mem_cons.2 ⟨hstart, hle⟩, .inr ?_⟩
      rcases hatt with h' | ⟨w, hw, h'⟩
      · exact ⟨v, by simp, by rw [h', fMag_fAbs]⟩
      · exact ⟨w, List.mem_cons_of_mem _ hw, h'⟩
    · rename_i h
      obtain ⟨hf, hpos, hstart, hle, hatt⟩ := ih hp hs htail
      refine ⟨hf, hpos, hstart, List.forall_mem_cons.2 ⟨Nat.le_trans (Nat.not_lt.1 fun h' => h (hlt.2 h')) hstart, hle⟩,
        hatt.imp_right ?_⟩
      rintro ⟨w, hw, h'⟩
      exact ⟨w, List.mem_cons_of_mem _ hw, h'⟩

theorem peakFrom_peakOf {vs : List F} (hvs : ∀ v ∈ vs, fFinite v = true) : PeakFrom fZero vs (peakOf vs) :=
  peakFrom_foldl (by decide) (by decide) hvs

theorem not_fIsZero_of_gt_one {p : F} (h : fLt fOne p = true) : fIsZero p = false := by
  obtain ⟨-, hp, hlt⟩ := fLt_eq_true.1 h
  have hone : 0 < fInt fOne := by decide +kernel
  rw [← Bool.not_eq_true, fIsZero_iff, ← fInt_eq_zero hp]
  omega

/-- A value divided by a peak has magnitude at most 1.0. -/
theorem fMag_fDiv_peak_le_one {vs : List F} (hvs : ∀ v ∈ vs, fFinite v = true) (hp : fLt fOne (peakOf vs) = true)
    {v : F} (hv : v ∈ vs) : fMag (fDiv v (peakOf vs)) ≤ fMag fOne :=
  fMag_fDiv_le_one (hvs v hv) (peakFrom_peakOf hvs).finite (not_fIsZero_of_gt_one hp) ((peakFrom_peakOf hvs).le v hv)

theorem normalised_finite {vs : List F} (hvs : ∀ v ∈ vs, fFinite v = true) : ∀ v ∈ normalised vs, fFinite v = true := by
  rw [normalised]
  split
  · rename_i hp
    intro q hq
    obtain ⟨v, hv, rfl⟩ := List.mem_map.1 hq
    exact fFinite_iff.2 (Nat.lt_of_le_of_lt (fMag_fDiv_peak_le_one hvs hp hv) (by decide))
  · exact hvs

/-! ### What a command does -/

/-- A range of a column before and after: as it was, or finite values written from index 0 on. -/
def Writes (vs : List F) (m m' : Mem) : Prop :=
  (∀ v ∈ vs, fFinite v = true) ∧ (m' = m ∨ m' = writeCells m 0 vs)

/-- The state in which a completed command leaves the machine, `pc` apart. -/
inductive Effect (i : Instr) (s : State) : State → Prop
  | config {u x} (h : Configures s.params.capMax i u x) : Effect i s (setSlot u x s)
  | write {u z z'} (hu : changedSlots i = [u]) (hz : s.U[u.toNat]? = some z) (h : Samples z z') :
    Effect i s (setSlot u z' s)
  | shift {u x p p'} (hi : i = .psShift u x) (hz : s.U[u.toNat]? = some (.ps p)) (h : psShift p x = .ok p') :
    Effect i s (setSlot u (.ps p') s)
  | read {v} (hr : resultCount i = 1) : Effect i s (writeRes0 v s)
  | sample {u z z' v} (hu : changedSlots i = [u]) (hr : resultCount i = 1) (hz : s.U[u.toNat]? = some z)
    (h : Samples z z') : Effect i s (writeRes0 v (setSlot u z' s))
  | tick {u z z' a b c d} (hu : changedSlots i = [u]) (hr : resultCount i = 4) (hz : s.U[u.toNat]? = some z)
    (h : Samples z z') : Effect i s (writeRes a b c d (setSlot u z' s))
  | normalise {c b vs m} (ho : outputLen c i = some vs.length) (hlen : vs.length ≤ s.params.ylen)
    (hm : Writes vs (column c s) m) : Effect i s (setNormed c b (setColumn c m s))
  | block {u z z' b vs m} (hu : changedSlots i = [u]) (ho : outputLen .c0 i = some vs.length)
    (hlen : vs.length ≤ s.params.ylen) (hm : Writes vs s.YMEM0 m) (hz : s.U[u.toNat]? = some z) (h : SampleRun z z') :
    Effect i s (setNormed .c0 b (setColumn .c0 m (setSlot u z' s)))
  | block2 {u v z z' w w' b b' ls rs m m'} (hu : changedSlots i = [u, v]) (huv : u ≠ v)
    (hl : outputLen .c0 i = some ls.length) (hr : outputLen .c1 i = some rs.length)
    (hllen : ls.length ≤ s.params.ylen) (hrlen : rs.length ≤ s.params.ylen) (hm : Writes ls s.YMEM0 m)
    (hm' : Writes rs s.YMEM1 m') (hz : s.U[u.toNat]? = some z) (hw : s.U[v.toNat]? = some w) (h : SampleRun z z')
    (h' : SampleRun w w') :
    Effect i s (setNormed .c1 b' (setColumn .c1 m' (setSlot v w' (setNormed .c0 b (setColumn .c0 m (setSlot u z' s))))))

theorem setDelay_of_getElem? {u : Byte} {z : Slot} {d : DLState} {s : State} (h : s.U[u.toNat]? = some z) :
    setDelay u d s = setSlot u (withDelay d z) s := by
  rw [setDelay, setSlot, List.modify_eq_set_getElem?, h]
  rfl

theorem viewFirc_eq_some {x : Slot} {c : CombState} : viewFirc x = some c ↔ x = .firc c := by cases x <;> simp [viewFirc]
theorem viewIirc_eq_some {x : Slot} {c : CombState} : viewIirc x = some c ↔ x = .iirc c := by cases x <;> simp [viewIirc]
theorem viewAp_eq_some {x : Slot} {c : CombState} : viewAp x = some c ↔ x = .ap c := by cases x <;> simp [viewAp]
theorem viewLfo_eq_some {x : Slot} {l : LFOState} : viewLfo x = some l ↔ x = .lfo l := by cases x <;> simp [viewLfo]
theorem viewTri_eq_some {x : Slot} {t : TRIState} : viewTri x = some t ↔ x = .tri t := by cases x <;> simp [viewTri]

theorem samples_flStep {f f' : FLState} {x y : F} (hx : fFinite x = true) (h : flStep f x = .ok (y, f')) :
    Samples (.fl f) (.fl f') := .fl hx (flStep_eq_ok.1 h)

theorem samples_rvStep {r r' : RVState} {x y : F} (_ : fFinite x = true) (h : rvStep r x = .ok (y, r')) :
    Samples (.rv r) (.rv r') := .rv (rvStep_eq_ok.1 h)

theorem samples_trStep {t t' : TRState} {x y : F} (_ : fFinite x = true) (h : trStep t x = .ok (y, t')) :
    Samples (.tr t) (.tr t') := .tr (trStep_eq_ok.1 h)

/-- The channel of a block: the outputs written and normalised. -/
theorem writes_normalised {ys : List F} {m : Mem} (hy : ∀ y ∈ ys, fFinite y = true) :
    Writes (normalised ys) m (writeCells m 0 (normalised ys)) := ⟨normalised_finite hy, .inr rfl⟩

/-- The effect of a mono block command. -/
theorem effect_block {α : Type} {i : Instr} {s : State} {wrap : α → Slot} {f : α → F → Run (F × α)}
    (hf : ∀ {a x y b}, fFinite x = true → f a x = .ok (y, b) → Samples (wrap a) (wrap b)) {u : Byte} {len : BitVec 32}
    {a a' : α} {xs ys : List F} (hu : changedSlots i = [u]) (ho : outputLen .c0 i = some len.toNat)
    (hz : s.U[u.toNat]? = some (wrap a)) (hlen : len.toNat ≤ s.params.ylen) (hxs : xs.length = len.toNat)
    (hx : Holds s.XMEM xs) (hs : stepAll f a xs = .ok (ys, a')) (hy : ∀ y ∈ ys, fFinite y = true) :
    Effect i s (afterChannel .c0 u ys (wrap a') s) := by
  have hys : (normalised ys).length = len.toNat := by rw [normalised_length, stepAll_length hs, hxs]
  exact .block hu (by rw [ho, hys]) (by rw [hys]; exact hlen) (writes_normalised hy) hz
    (sampleRun_of_stepAll hf (forall_finite_of_holds hx) hs)

/-- Everything `Normalise` does. -/
theorem effect_normalise {i : Instr} {c : Col} {len : Nat} {s t : State} (ho : outputLen c i = some len)
    (hlen : len ≤ s.params.ylen) (h : normalise c len s = .ok t) : Effect i s t := by
  obtain ⟨vs, hl, hv, rfl⟩ := normalise_eq_ok.1 h
  have hvs := forall_finite_of_holds hv
  split
  · have hys : (normalised vs).length = len := by rw [normalised_length, hl]
    exact .normalise (by rw [ho, hys]) (by rw [hys]; exact hlen) (writes_normalised hvs)
  · have hsame : setNormed c false s = setNormed c false (setColumn c (column c s) s) := by rw [setColumn_column]
    rw [hsame]
    exact .normalise (by rw [ho, hl]) (by rw [hl]; exact hlen) ⟨hvs, .inl rfl⟩

/-- A command that answers a next state completed with its effect, or took fault entry with one of its causes. -/
theorem exec_cases {i : Instr} {s t : State} (h : exec i s = .next t) :
    (∃ t', Effect i s t' ∧ t = advance (nops i) t') ∨ ∃ c ∈ causesOf i, t = faultEntry c s := by
  cases i with
  | dlCfg u ms fs => exact (execDlCfg_next h).imp_left fun ⟨L, hL, e⟩ => ⟨_, .config (.dl hL), e⟩
  | fircCfg u ms g fs => exact (execFircCfg_next h).imp_left fun ⟨L, hL, hg, e⟩ => ⟨_, .config (.firc hL hg), e⟩
  | iircCfg u ms g fs => exact (execIircCfg_next h).imp_left fun ⟨L, hL, hg, e⟩ => ⟨_, .config (.iirc hL hg), e⟩
  | apCfg u ms g fs => exact (execApCfg_next h).imp_left fun ⟨L, hL, hg, e⟩ => ⟨_, .config (.ap hL hg), e⟩
  | lfoCfg u rate center range fs =>
    exact (execLfoCfg_next h).imp_left fun ⟨l, hl, hc, hr, e⟩ => ⟨_, .config (.lfo hl hc hr), e⟩
  | triCfg u rate => exact (execTriCfg_next h).imp_left fun ⟨hf, hr, e⟩ => ⟨_, .config (.tri hf hr), e⟩
  | flCfg u mn mx rate depth fs =>
    exact (execFlCfg_next h).imp_left fun ⟨maxD, minD, l, hmax, _, hc, hr, hd, hl, e⟩ =>
      ⟨_, .config (.fl hmax hc hr hd hl), e⟩
  | rvCfg u fs wet spread cd cg ad ag =>
    exact (execRvCfg_next h).imp_left fun ⟨comb, ap, hw, hcg, hag, hlen, _, hne, hcomb, hap, e⟩ =>
      ⟨_, .config (.rv hw hcg hag hlen hne hcomb hap), e⟩
  | trCfg u rate depth fs => exact (execTrCfg_next h).imp_left fun ⟨l, hh, hc, hl, e⟩ => ⟨_, .config (.tr hh hc hl), e⟩
  | psCfg u ms fs => exact (execPsCfg_next h).imp_left fun ⟨W, hW, _, e⟩ => ⟨_, .config (.ps hW), e⟩
  | dlWrite u x =>
    exact (execDlWrite_next h).imp_left fun ⟨z, d, hz, hd, hx, e⟩ =>
      ⟨_, .write rfl hz (.store hd hx), by rw [e, setDelay_of_getElem? hz]; rfl⟩
  | dlRead u o => exact (execDlRead_next h).imp_left fun ⟨z, d, v, _, _, _, e⟩ => ⟨_, .read rfl, e⟩
  | dlProc u x g =>
    exact (execDlProc_next h).imp_left fun ⟨z, d, hz, hd, hw, e⟩ =>
      ⟨_, .sample rfl rfl hz (.store hd hw), by rw [e, setDelay_of_getElem? hz]; rfl⟩
  | fircProc u x =>
    refine (execFircProc_next h).imp_left fun ⟨z, c, hz, hc, hw, e⟩ => ?_
    obtain rfl := viewFirc_eq_some.1 hc
    exact ⟨_, .sample rfl rfl hz (.store rfl hw), e⟩
  | iircProc u x =>
    refine (execIircProc_next h).imp_left fun ⟨z, c, hz, hc, hw, e⟩ => ?_
    obtain rfl := viewIirc_eq_some.1 hc
    exact ⟨_, .sample rfl rfl hz (.store rfl hw), e⟩
  | apProc u x =>
    refine (execApProc_next h).imp_left fun ⟨z, a, hz, ha, hw, _, e⟩ => ?_
    obtain rfl := viewAp_eq_some.1 ha
    exact ⟨_, .sample rfl rfl hz (.store rfl hw), e⟩
  | lfoTick u =>
    refine (execLfoTick_next h).imp_left fun ⟨z, l, hz, hl, hf, e⟩ => ?_
    obtain rfl := viewLfo_eq_some.1 hl
    exact ⟨_, .sample rfl rfl hz (.lfo hf), e⟩
  | triTick u =>
    refine (execTriTick_next h).imp_left fun ⟨z, p, o, p', hz, hp, ho, e⟩ => ?_
    obtain rfl := viewTri_eq_some.1 hp
    exact ⟨_, .tick rfl rfl hz (.tri ho), e⟩
  | flStep u x =>
    refine (execFlStep_next h).imp_left fun ⟨z, f, y, f', hz, hf, hx, hg, e⟩ => ?_
    obtain rfl := viewFl_eq_some.1 hf
    exact ⟨_, .sample rfl rfl hz (.fl hx hg), e⟩
  | rvStep u x =>
    refine (execRvStep_next h).imp_left fun ⟨z, r, y, r', hz, hr, _, hg, e⟩ => ?_
    obtain rfl := viewRv_eq_some.1 hr
    exact ⟨_, .sample rfl rfl hz (.rv hg), e⟩
  | trStep u x =>
    refine (execTrStep_next h).imp_left fun ⟨z, r, y, r', hz, hr, _, hg, e⟩ => ?_
    obtain rfl := viewTr_eq_some.1 hr
    exact ⟨_, .sample rfl rfl hz (.tr hg), e⟩
  | psStep u x =>
    refine (execPsStep_next h).imp_left fun ⟨z, q, y, q', hz, hq, hx, hg, e⟩ => ?_
    obtain rfl := viewPs_eq_some.1 hq
    exact ⟨_, .sample rfl rfl hz (.ps hx hg), e⟩
  | psShift u x =>
    refine (execPsShift_next h).imp_left fun ⟨z, p, p', hz, hp, hs, e⟩ => ?_
    obtain rfl := viewPs_eq_some.1 hp
    exact ⟨_, .shift rfl hz hs, e⟩
  | semi ft fr => exact (execSemi_next h).imp_left fun ⟨_, e⟩ => ⟨_, .read rfl, e⟩
  | flBlock u len =>
    refine (execFlBlock_next h).imp_left fun ⟨z, a, xs, ys, a', hz, ha, _, hlen, hxs, hx, hs, hy, e⟩ => ?_
    obtain rfl := viewFl_eq_some.1 ha
    exact ⟨_, effect_block samples_flStep rfl rfl hz hlen hxs hx hs hy, e⟩
  | rvBlock u len =>
    refine (execRvBlock_next h).imp_left fun ⟨z, a, xs, ys, a', hz, ha, _, hlen, hxs, hx, hs, hy, e⟩ => ?_
    obtain rfl := viewRv_eq_some.1 ha
    exact ⟨_, effect_block samples_rvStep rfl rfl hz hlen hxs hx hs hy, e⟩
  | trBlock u len =>
    refine (execTrBlock_next h).imp_left fun ⟨z, a, xs, ys, a', hz, ha, _, hlen, hxs, hx, hs, hy, e⟩ => ?_
    obtain rfl := viewTr_eq_some.1 ha
    exact ⟨_, effect_block samples_trStep rfl rfl hz hlen hxs hx hs hy, e⟩
  | psBlock u len =>
    refine (execPsBlock_next h).imp_left fun ⟨z, a, xs, ys, a', hz, ha, _, hlen, hxs, hx, hs, hy, e⟩ => ?_
    obtain rfl := viewPs_eq_some.1 ha
    exact ⟨_, effect_block Samples.ps rfl rfl hz hlen hxs hx hs hy, e⟩
  | rvBlock2 u v len =>
    refine (execRvBlock2_next h).imp_left fun
      ⟨l, r, xs, ls, rs, l', r', huv, hl, hr, _, hlen, hxs, hx, hsl, hsr, hlf, hrf, e⟩ => ?_
    have hll : (normalised ls).length = len.toNat := by rw [normalised_length, stepAll_length hsl, hxs]
    have hrl : (normalised rs).length = len.toNat := by rw [normalised_length, stepAll_length hsr, hxs]
    have hfin := forall_finite_of_holds hx
    exact ⟨_, .block2 rfl huv (congrArg some hll.symm) (congrArg some hrl.symm) (by rw [hll]; exact hlen)
      (by rw [hrl]; exact hlen) (writes_normalised hlf) (writes_normalised hrf) hl hr
      (sampleRun_of_stepAll samples_rvStep hfin hsl) (sampleRun_of_stepAll samples_rvStep hfin hsr), e⟩
  | norm c len =>
    exact (execNorm_next h).imp_left fun ⟨t', hlen, hn, e⟩ => ⟨t', effect_normalise (by simp [outputLen]) hlen hn, e⟩

end Sys2Proof.Machine
end

section
/-! PROOFS. The frame statements: what a command leaves as it was, in every next state it answers. -/

namespace Sys2Proof.Machine

variable {i : Instr} {s t : State}

/-- What no completed command changes. -/
theorem Effect.frame (h : Effect i s t) :
    t.pc = s.pc ∧ t.FCI = s.FCI ∧ t.CMD = s.CMD ∧ t.XMEM = s.XMEM ∧ t.params = s.params ∧ t.U.length = s.U.length := by
  cases h <;> simp

theorem Effect.status (h : Effect i s t) :
    statusFault t.STATUS = statusFault s.STATUS ∧ statusCause t.STATUS = statusCause s.STATUS ∧
      statusReserved t.STATUS = statusReserved s.STATUS := by
  cases h <;> simp

/-- Settles O9: the two alternatives of `exec_cases`. -/
theorem commandsCompleteOrFaultAtomically : Obligations.CommandsCompleteOrFaultAtomically := by
  intro i s t h
  refine (exec_cases h).imp_left ?_
  rintro ⟨t', he, rfl⟩
  obtain ⟨hpc, hfci, -⟩ := he.frame
  obtain ⟨hfault, hcause, -⟩ := he.status
  exact ⟨by rw [advance_pc, hpc], hfci, hfault, hcause⟩

/-- Settles O11. -/
theorem inputsAndStreamAreNeverWritten : Obligations.InputsAndStreamAreNeverWritten := by
  intro i s t h
  rcases exec_cases h with ⟨t', he, rfl⟩ | ⟨c, -, rfl⟩
  · exact he.frame.2.2
  · exact ⟨rfl, rfl, rfl, rfl⟩

/-- Settles O12: every write to the slot file is at an index in `changedSlots`. -/
theorem otherSlotsAreUnchanged : Obligations.OtherSlotsAreUnchanged := by
  intro i s t k h hk
  rcases exec_cases h with ⟨t', he, rfl⟩ | ⟨c, -, rfl⟩
  case inr => rfl
  have hset : ∀ {u : Byte} (l : List Slot) (x : Slot), u ∈ changedSlots i → (l.set u.toNat x)[k]? = l[k]? :=
    fun l x hu => List.getElem?_set_ne (hk _ hu).symm
  cases he with
  | config hc => exact hset s.U _ (by simp [hc.isCfg_changedSlots.2])
  | shift hi => exact hset s.U _ (by simp [hi, changedSlots])
  | write hu | sample hu | tick hu => exact hset s.U _ (by simp [hu])
  | read => rfl
  | normalise => simp
  | block hu => simpa using hset s.U _ (by simp [hu])
  | block2 hu => simpa using (hset _ _ (by simp [hu])).trans (hset s.U _ (by simp [hu]))

theorem Configures.resultCount {cap : Nat} {u : Byte} {x : Slot} (h : Configures cap i u x) : resultCount i = 0 := by
  cases h <;> rfl

/-- Settles O13: only `sample`, `read` and `tick` write result registers, only the effects on a column its NORMED bit. -/
theorem otherRegistersAreUnchanged : Obligations.OtherRegistersAreUnchanged := by
  intro i s t h
  rcases exec_cases h with ⟨t', he, rfl⟩ | ⟨c, -, rfl⟩
  case inr => simp
  refine ⟨fun h0 => ?_, fun h1 => ?_, fun c hc => ?_, he.status.2.2⟩
  · cases he with
    | read hr | sample _ hr | tick _ hr => omega
    | _ => simp
  · cases he with
    | tick _ hr => omega
    | _ => simp
  · have hne : ∀ {c' : Col} {n : Nat}, outputLen c' i = some n → c ≠ c' := by
      rintro c' n ho rfl
      exact nomatch hc.symm.trans ho
    cases he with
    | normalise ho => simp [statusNormed_withNormed_of_ne (hne ho)]
    | block _ ho => simp [statusNormed_withNormed_of_ne (hne ho)]
    | block2 _ _ hl hr => simp [statusNormed_withNormed_of_ne (hne hl), statusNormed_withNormed_of_ne (hne hr)]
    | _ => simp

theorem Writes.memRead_of_ge {vs : List F} {m m' : Mem} (h : Writes vs m m') {k : Nat} (hk : vs.length ≤ k) :
    memRead m' k = memRead m k := by
  rcases h.2 with rfl | rfl
  · rfl
  · rw [memRead_writeCells, if_neg (by omega)]

/-- Settles O14: a column is written by the commands that name it only, and there below `len`. -/
theorem otherOutputCellsAreUnchanged : Obligations.OtherOutputCellsAreUnchanged := by
  intro i s t c k h hk
  rcases exec_cases h with ⟨t', he, rfl⟩ | ⟨e, -, rfl⟩
  case inr => simp
  rw [column_advance]
  cases he with
  | @normalise c' b vs m ho _ hm =>
    rw [column_setNormed]
    by_cases hc : c = c'
    · subst hc
      rw [column_setColumn, hm.memRead_of_ge (hk _ ho)]
    · rw [column_setColumn_of_ne hc]
  | block _ ho _ hm =>
    cases c with
    | c0 => exact hm.memRead_of_ge (hk _ ho)
    | c1 => rfl
  | block2 _ _ hl hr _ _ hm hm' =>
    cases c with
    | c0 => exact hm.memRead_of_ge (hk _ hl)
    | c1 => exact hm'.memRead_of_ge (hk _ hr)
  | _ => simp

/-! ### Settings (70_reset_and_hazards R341) -/

theorem map_combSettings_chainNext (w : F) (as : List CombState) :
    (chainNext w as).map combSettings = as.map combSettings := by
  induction as generalizing w with
  | nil => rfl
  | cons a as ih =>
    rw [chainNext, List.map_cons, List.map_cons, ih]
    rfl

theorem lfoSettings_lfoNext (l : LFOState) : lfoSettings (lfoNext l) = lfoSettings l := by
  simp only [lfoSettings, lfoNext]

theorem settings_of_samples {z z' : Slot} (h : Samples z z') : settings z' = settings z := by
  cases h with
  | @store _ d v hd =>
    cases z <;> simp only [viewDelay, Option.some.injEq, reduceCtorEq] at hd <;> subst hd <;> rfl
  | lfo => rw [settings, settings, lfoSettings_lfoNext]
  | tri h =>
    obtain ⟨-, -, -, -, -, e⟩ := triTick_eq_ok.1 h
    rw [e]
    rfl
  | fl _ h =>
    obtain ⟨-, dl, -, -, -, e⟩ := h
    simp only [e, settings, lfoSettings_lfoNext, delaySettings_push]
  | @rv r x _ _ h =>
    obtain ⟨-, e, -, -⟩ := h
    have hcomb : combSettings ∘ combNext x = combSettings := funext fun c => rfl
    simp only [e, settings, rvNext, map_combSettings_chainNext, List.map_map, hcomb]
  | tr h =>
    obtain ⟨-, -, -, e⟩ := h
    simp only [e, settings, lfoSettings_lfoNext]
  | ps _ h =>
    obtain ⟨-, -, -, -, -, -, vA, vB, -, -, -, -, e⟩ := psStep_eq_ok.1 h
    rw [e]
    rfl

theorem settings_of_sampleRun {z z' : Slot} (h : SampleRun z z') : settings z' = settings z := by
  induction h with
  | refl => rfl
  | tail _ h ih => rw [settings_of_samples h, ih]

theorem map_set_of_eq {α β : Type} {f : α → β} {l : List α} {n : Nat} {a b : α} (ha : l[n]? = some a) (h : f b = f a) :
    (l.set n b).map f = l.map f := by
  obtain ⟨hn, rfl⟩ := List.getElem?_eq_some_iff.1 ha
  rw [List.map_set, h, ← List.map_set, List.set_getElem_self]

/-- Settles O15: samples keep settings; what is left is PS.SHIFT. -/
theorem settingsChangeOnlyByConfiguration : Obligations.SettingsChangeOnlyByConfiguration := by
  intro i s t h hcfg
  refine ⟨fun hshift => ?_, ?_⟩
  · rcases exec_cases h with ⟨t', he, rfl⟩ | ⟨e, -, rfl⟩
    case inr => rfl
    cases he with
    | config hc => exact nomatch hcfg.symm.trans hc.isCfg_changedSlots.1
    | shift hi => exact absurd hi (hshift _ _)
    | read => rfl
    | write _ hz hs | sample _ _ hz hs | tick _ _ hz hs => exact map_set_of_eq hz (settings_of_samples hs)
    | normalise => simp
    | block _ _ _ _ hz hs => exact map_set_of_eq hz (settings_of_sampleRun hs)
    | @block2 u v z z' w w' _ _ _ _ _ _ _ huv _ _ _ _ _ _ hz hw hs hs' =>
      have hw' : (s.U.set u.toNat z')[v.toNat]? = some w :=
        (List.getElem?_set_ne fun e => huv (BitVec.eq_of_toNat_eq e)).trans hw
      exact (map_set_of_eq hw' (settings_of_sampleRun hs')).trans (map_set_of_eq hz (settings_of_sampleRun hs))
  · rintro u x rfl k p hp
    rcases execPsShift_next h with ⟨z, q, q', hz, hq, hs, rfl⟩ | ⟨e, -, rfl⟩
    · obtain rfl := viewPs_eq_some.1 hq
      obtain ⟨-, -, -, rfl⟩ := psShift_eq_ok.1 hs
      by_cases hk : u.toNat = k
      · subst hk
        obtain rfl : q = p := by simpa using hz.symm.trans hp
        exact ⟨_, _, List.getElem?_set_self (List.getElem?_eq_some_iff.1 hz).1⟩
      · exact ⟨p.factor, p.tri.rate, (List.getElem?_set_ne hk).trans hp⟩
    · exact ⟨p.factor, p.tri.rate, hp⟩

end Sys2Proof.Machine
end

section
/-! PROOFS. The invariants of every step: canonical memories, STATUS and `pc`, and, of every slot, shape, finite values and
the intervals of the oscillators. A property of slots is kept when configurations establish it, and samples and PS.SHIFT
keep it (`step_keeps_slots`). -/

namespace Sys2Proof.Machine

/-! ### Memories (20_memory R60, R67) -/

theorem memOk_of_writes {size : Nat} {vs : List F} {m m' : Mem} (h : Writes vs m m') (hlen : vs.length ≤ size)
    (hm : memOk size m) : memOk size m' := by
  rcases h.2 with rfl | rfl
  · exact hm
  · exact memOk_writeCells hm (by omega)

theorem memoriesOk_of_effect {i : Instr} {s t : State} (hs : memoriesOk s) (h : Effect i s t) : memoriesOk t := by
  obtain ⟨hx, h0, h1⟩ := hs
  cases h with
  | @normalise c _ _ _ _ hlen hm =>
    cases c with
    | c0 => exact ⟨hx, memOk_of_writes hm hlen h0, h1⟩
    | c1 => exact ⟨hx, h0, memOk_of_writes hm hlen h1⟩
  | block _ _ hlen hm => exact ⟨hx, memOk_of_writes hm hlen h0, h1⟩
  | block2 _ _ _ _ hlen hlen' hm hm' => exact ⟨hx, memOk_of_writes hm hlen h0, memOk_of_writes hm' hlen' h1⟩
  | _ => exact ⟨hx, h0, h1⟩

/-- Settles O46: only normalised ranges within YLEN are written. -/
theorem stepsKeepMemoriesCanonical : Obligations.StepsKeepMemoriesCanonical := by
  intro s t hs h
  obtain ⟨-, -, ⟨i, -, hi⟩ | ⟨e, -, rfl⟩⟩ := step_next h
  · rcases exec_cases hi with ⟨t', he, rfl⟩ | ⟨c, -, rfl⟩
    · exact (memoriesOk_of_effect hs he : memoriesOk t')
    · exact hs
  · exact hs

/-! ### STATUS, FCI and `pc` (10_state R27, R28) -/

/-- Fault entry with a cause of the engine. -/
theorem statusOk_faultEntry {c : Cause} {s : State} (hc : c ≠ .unknownNote) (h : statusOk s = true) :
    statusOk (faultEntry c s) = true := by
  have hcode : causeCode c ∈ engineCauses := by
    cases c
    case unknownNote => exact absurd rfl hc
    all_goals decide
  simp only [statusOk, Bool.and_eq_true, beq_iff_eq] at h
  simp [statusOk, h.1, hcode]

theorem unknownNote_notMem_causesOf (i : Instr) : .unknownNote ∉ causesOf i := by cases i <;> simp [causesOf]

/-- Settles O48: a completed command keeps the fields and moves `pc` past words that were there; fault entry writes a
cause of the engine and the index at which it stands. -/
theorem stepsKeepStatusAndPcLegal : Obligations.StepsKeepStatusAndPcLegal := by
  intro s t h
  obtain ⟨hf, hpc, ⟨i, hd, hi⟩ | ⟨e, -, rfl⟩⟩ := step_next h
  · rcases exec_cases hi with ⟨t', he, rfl⟩ | ⟨c, hc, rfl⟩
    · obtain ⟨hpc', hfci, hcmd, -⟩ := he.frame
      obtain ⟨hfault, hcause, hres⟩ := he.status
      have hlen := (encodeOfDecodeIsTheWords _ _ _ hd).2.1
      rw [fetch, List.length_drop] at hlen
      refine ⟨fun hs => ?_, fun _ => ⟨?_, hcmd⟩⟩
      · simpa [statusOk, hfault, hcause, hres, hf] using hs
      · simp only [pcOk, advance_pc, advance_CMD, hpc', hcmd, decide_eq_true_eq]
        omega
    · have hne : c ≠ .unknownNote := fun h => unknownNote_notMem_causesOf i (h ▸ hc)
      exact ⟨statusOk_faultEntry hne, fun hp => ⟨hp, rfl⟩⟩
  · have hne : decodeCause e ≠ .unknownNote := by cases e <;> decide
    exact ⟨statusOk_faultEntry hne, fun hp => ⟨hp, rfl⟩⟩

/-! ### Properties of every slot -/

theorem all_set {P : Slot → Bool} {l : List Slot} {n : Nat} {x : Slot} (hl : l.all P = true) (hx : P x = true) :
    (l.set n x).all P = true := by
  rw [List.all_eq_true] at *
  intro y hy
  rcases List.mem_or_eq_of_mem_set hy with hy | rfl
  · exact hl y hy
  · exact hx

theorem all_getElem? {P : Slot → Bool} {l : List Slot} {n : Nat} {x : Slot} (hl : l.all P = true)
    (hx : l[n]? = some x) : P x = true := List.all_eq_true.1 hl x (List.mem_of_getElem? hx)

section
variable {P : Slot → Bool}

theorem sampleRun_keeps (hsample : ∀ {z z'}, Samples z z' → P z = true → P z' = true) {z z' : Slot}
    (h : SampleRun z z') (hz : P z = true) : P z' = true := by
  induction h with
  | refl => exact hz
  | tail _ h ih => exact hsample h ih

theorem effect_keeps_slots {i : Instr} {s t : State}
    (hconf : ∀ {u x}, Configures s.params.capMax i u x → P x = true)
    (hsample : ∀ {z z'}, Samples z z' → P z = true → P z' = true)
    (hshift : ∀ {p p' x}, psShift p x = .ok p' → P (.ps p) = true → P (.ps p') = true) (hs : s.U.all P = true)
    (h : Effect i s t) : t.U.all P = true := by
  cases h with
  | config h => exact all_set hs (hconf h)
  | shift _ hz h => exact all_set hs (hshift h (all_getElem? hs hz))
  | read => exact hs
  | write _ hz h | sample _ _ hz h | tick _ _ hz h => exact all_set hs (hsample h (all_getElem? hs hz))
  | normalise => simpa using hs
  | block _ _ _ _ hz h => exact all_set hs (sampleRun_keeps hsample h (all_getElem? hs hz))
  | block2 _ _ _ _ _ _ _ _ hz hw h h' =>
    exact all_set (all_set hs (sampleRun_keeps hsample h (all_getElem? hs hz)))
      (sampleRun_keeps hsample h' (all_getElem? hs hw))

/-- A property of slots that configurations establish, and samples and PS.SHIFT keep, is kept by every step. Of a
configuration it may be used that the command was well formed and that it completed. -/
theorem step_keeps_slots {s t : State}
    (hconf : ∀ {i u x}, i.wellFormed s.params.nfiltMax = true → exec i s = .next t → (∀ c, t ≠ faultEntry c s) →
      Configures s.params.capMax i u x → P x = true)
    (hsample : ∀ {z z'}, Samples z z' → P z = true → P z' = true)
    (hshift : ∀ {p p' x}, psShift p x = .ok p' → P (.ps p) = true → P (.ps p') = true) (hs : s.U.all P = true)
    (h : step s = .next t) : t.U.all P = true := by
  obtain ⟨-, -, ⟨i, hd, hi⟩ | ⟨e, -, rfl⟩⟩ := step_next h
  case inr => exact hs
  rcases exec_cases hi with ⟨t', he, rfl⟩ | ⟨c, -, rfl⟩
  case inr => exact hs
  have hpc : t'.pc = s.pc := he.frame.1
  have hne : ∀ c, advance (nops i) t' ≠ faultEntry c s := by
    intro c hc
    have := congrArg State.pc hc
    rw [advance_pc, faultEntry_pc, hpc] at this
    omega
  have hU : t'.U.all P = true :=
    effect_keeps_slots (hconf (encodeOfDecodeIsTheWords _ _ _ hd).1 hi hne) hsample hshift hs he
  exact hU

end

/-- A completed command had a sample rate that is not 0. -/
theorem rate_ne_zero_of_completed {i : Instr} {s t : State} (hok : operandsOk i s = true) (h : exec i s = .next t)
    (hne : ∀ c, t ≠ faultEntry c s) : (rateOperands i).head? ≠ some 0 := by
  intro h0
  cases hs : slotCheck i s with
  | false =>
    have := (slotFaultsAreThoseOfCheckSlot i s hok).1 hs
    rw [h] at this
    exact hne _ (Host.Outcome.next.inj this)
  | true =>
    have := zeroRateIsABadRate s i hok hs h0
    rw [h] at this
    exact hne _ (Host.Outcome.next.inj this)

/-! ### Finite values (10_state R23) -/

/-- The chain of all-pass filters after a sample: the filters before it, each with what the sample stored in it. -/
theorem mem_chainNext {w : F} {as : List CombState} {a : CombState} (h : a ∈ chainNext w as) :
    ∃ b ∈ as, ∃ v ∈ chainStored w as, a = { b with d := push b.d v } := by
  induction as generalizing w with
  | nil => cases h
  | cons b as ih =>
    rcases List.mem_cons.1 h with h | h
    · exact ⟨b, by simp, apIn w b, by simp [chainStored], h⟩
    · obtain ⟨c, hc, v, hv, e⟩ := ih h
      exact ⟨c, List.mem_cons_of_mem _ hc, v, List.mem_cons_of_mem _ hv, e⟩

theorem combFinite_push {c : CombState} {v : F} (hc : combFinite c = true) (hv : fFinite v = true) :
    combFinite { c with d := push c.d v } = true := by
  simp only [combFinite, Bool.and_eq_true] at *
  exact ⟨delayFinite_push hc.1 hv, hc.2⟩

/-- One sample of a reverberator keeps a property of filters that storing a stored value keeps. -/
theorem all_rvNext {Q : CombState → Bool} {r : RVState} {x : F}
    (hQ : ∀ {c : CombState} {v : F}, fFinite v = true → Q c = true → Q { c with d := push c.d v } = true)
    (hfin : rvStoredFinite r x = true) (hcomb : r.comb.all Q = true) (hap : r.ap.all Q = true) :
    (rvNext r x).comb.all Q = true ∧ (rvNext r x).ap.all Q = true := by
  simp only [rvStoredFinite, Bool.and_eq_true, List.all_eq_true] at *
  obtain ⟨hfc, hfa⟩ := hfin
  refine ⟨fun c hc => ?_, fun a ha => ?_⟩
  · obtain ⟨b, hb, e⟩ := List.mem_map.1 hc
    exact e ▸ hQ (hfc b hb) (hcomb b hb)
  · obtain ⟨b, hb, v, hv, e⟩ := mem_chainNext ha
    exact e ▸ hQ (hfa v hv) (hap b hb)

@[simp] theorem lfoNext_step (l : LFOState) : (lfoNext l).step = l.step := by simp only [lfoNext]
@[simp] theorem lfoNext_center (l : LFOState) : (lfoNext l).center = l.center := by simp only [lfoNext]
@[simp] theorem lfoNext_range (l : LFOState) : (lfoNext l).range = l.range := by simp only [lfoNext]

theorem lfoFinite_lfoNext {l : LFOState} (hl : lfoFinite l = true) (h : lfoTickFinite l = true) :
    lfoFinite (lfoNext l) = true := by
  simp only [lfoFinite, lfoTickFinite, lfoNext_step, lfoNext_center, lfoNext_range, Bool.and_eq_true] at *
  exact ⟨⟨⟨h.2, hl.1.1.2⟩, hl.1.2⟩, hl.2⟩

theorem slotFinite_of_samples {z z' : Slot} (h : Samples z z') (hz : slotFinite z = true) : slotFinite z' = true := by
  cases h with
  | @store _ d v hd hv =>
    cases z <;> simp only [viewDelay, Option.some.injEq, reduceCtorEq] at hd <;> subst hd
    case dl d => exact delayFinite_push hz hv
    case firc c | iirc c | ap c => exact combFinite_push (c := c) hz hv
  | lfo h => exact lfoFinite_lfoNext hz h
  | tri h =>
    obtain ⟨-, -, -, hp, -, e⟩ := triTick_eq_ok.1 h
    simp only [e, slotFinite, Bool.and_eq_true] at hz ⊢
    exact ⟨hp, hz.2⟩
  | fl hx h =>
    obtain ⟨hl, dl, -, -, -, e⟩ := h
    simp only [e, slotFinite, Bool.and_eq_true] at hz ⊢
    exact ⟨⟨delayFinite_push hz.1.1 hx, lfoFinite_lfoNext hz.1.2 hl⟩, hz.2⟩
  | rv h =>
    obtain ⟨-, e, -, hst⟩ := h
    simp only [slotFinite, Bool.and_eq_true] at hz ⊢
    obtain ⟨hc, ha⟩ := all_rvNext (fun hv hc => combFinite_push hc hv) hst hz.1.1.1 hz.1.1.2
    rw [e]
    exact ⟨⟨⟨hc, ha⟩, hz.1.2⟩, hz.2⟩
  | tr h =>
    obtain ⟨hl, -, -, e⟩ := h
    rw [e]
    exact lfoFinite_lfoNext hz hl
  | ps hx h =>
    obtain ⟨-, -, -, -, -, hp, vA, vB, -, -, -, -, e⟩ := psStep_eq_ok.1 h
    simp only [e, slotFinite, Bool.and_eq_true] at hz ⊢
    exact ⟨⟨⟨delayFinite_push hz.1.1.1 hx, hp⟩, hz.1.2⟩, hz.2⟩

/-- Every filter of a new bank is a zeroed one, of one of the delays and with one of the gains. -/
theorem exists_of_mem_newFilters {cap : Nat} {fs : Word} {mss gains : List F} {cs : List CombState} {c : CombState}
    (h : newFilters cap fs (mss.zip gains) = .ok cs) (hc : c ∈ cs) :
    ∃ ms ∈ mss, ∃ g ∈ gains, ∃ L, msToSamples cap ms fs = .ok L ∧ c = ⟨freshDelay L, g⟩ := by
  have hpair : ∃ p ∈ mss.zip gains, ∃ L, msToSamples cap p.1 fs = .ok L ∧ c = ⟨freshDelay L, p.2⟩ := by
    have hnew := newFilters_eq_ok.1 h
    clear h
    generalize mss.zip gains = ps at hnew
    induction hnew with
    | nil => cases hc
    | @cons p c' ps cs' hp _ ih =>
      rcases List.mem_cons.1 hc with rfl | hc
      · exact ⟨p, by simp, hp⟩
      · obtain ⟨q, hq, hL⟩ := ih hc
        exact ⟨q, List.mem_cons_of_mem _ hq, hL⟩
  obtain ⟨⟨ms, g⟩, hp, hL⟩ := hpair
  exact ⟨ms, (List.of_mem_zip hp).1, g, (List.of_mem_zip hp).2, hL⟩

theorem newFilters_finite {cap : Nat} {fs : Word} {mss gains : List F} {cs : List CombState}
    (hg : ∀ g ∈ gains, fFinite g = true) (h : newFilters cap fs (mss.zip gains) = .ok cs) :
    cs.all combFinite = true := by
  rw [List.all_eq_true]
  intro c hc
  obtain ⟨ms, -, g, hmem, L, -, e⟩ := exists_of_mem_newFilters h hc
  simp only [e, combFinite, delayFinite_fresh, hg g hmem, Bool.and_self]

theorem lfoFinite_of_lfoNew {rate center range : F} {fs : Word} {l : LFOState} (h : lfoNew rate center range fs = .ok l)
    (hc : fFinite center = true) (hr : fFinite range = true) : lfoFinite l = true := by
  obtain ⟨hst, e⟩ := lfoNew_eq_ok.1 h
  have hz : fFinite fZero = true := by decide
  simp only [e, lfoFinite, hz, hst, hc, hr, Bool.and_self]

theorem fMag_fOne_le_fMag_toF {n : Nat} (h : n ≠ 0) : fMag fOne ≤ fMag (toF n) := by
  rw [toF, fMag_fRound]
  refine le_roundMag_of_le Nat.one_pos (by decide) ?_
  rw [unitsOf_fOne, Nat.mul_one]
  exact Nat.le_mul_of_pos_left _ (Nat.pos_of_ne_zero h)

/-- The scale of a reverberator with at least one comb is finite, also for a count that is no finite value. -/
theorem fFinite_scale {n : Nat} (h : n ≠ 0) : fFinite (fDiv fOne (toF n)) = true := by
  have hone : fFinite fOne = true := by decide
  have hge := fMag_fOne_le_fMag_toF h
  rcases Nat.lt_or_eq_of_le (fMag_toF_le n) with hlt | heq
  · have hz : fIsZero (toF n) = false := by
      rw [← Bool.not_eq_true, fIsZero_iff]
      rw [fMag_fOne] at hge
      omega
    exact fFinite_iff.2 (Nat.lt_of_le_of_lt (fMag_fDiv_le_one hone (fFinite_iff.2 hlt) hz hge) (by decide))
  · have hinf : fIsInf (toF n) = true := by simp [fIsInf, heq]
    have hnan : fIsNaN (toF n) = false := fIsNaN_eq_false.2 (Nat.le_of_eq heq)
    simp only [fDiv, fIsNaN_of_finite hone, fIsInf_of_finite hone, hnan, hinf, Bool.or_self, Bool.false_eq_true, if_false,
      if_true]
    exact fFinite_iff.2 (by rw [fMag_fEncode (by decide)]; decide)

theorem slotFinite_of_configures {cap : Nat} {i : Instr} {u : Byte} {x : Slot} (h : Configures cap i u x) :
    slotFinite x = true := by
  have hz : fFinite fZero = true := by decide
  have hone : fFinite fOne = true := by decide
  cases h with
  | dl => exact delayFinite_fresh _
  | firc _ hg | iirc _ hg | ap _ hg => simp only [slotFinite, combFinite, delayFinite_fresh, hg, Bool.and_self]
  | lfo hl hc hr => exact lfoFinite_of_lfoNew hl hc hr
  | tri hf => simp only [slotFinite, hz, hf, Bool.and_self]
  | fl _ hc hr hd hl =>
    simp only [slotFinite, delayFinite_fresh, lfoFinite_of_lfoNew hl hc hr, hd, Bool.and_self]
  | rv hw hcg hag _ hne hcomb hap =>
    simp only [slotFinite, newFilters_finite hcg hcomb, newFilters_finite hag hap, fFinite_scale hne, hw, Bool.and_self]
  | tr hh hc hl => exact lfoFinite_of_lfoNew hl hc hh
  | ps => simp only [slotFinite, delayFinite_fresh, hz, hone, Bool.and_self]

theorem slotFinite_of_psShift {p p' : PSState} {x : F} (h : psShift p x = .ok p') (hp : slotFinite (.ps p) = true) :
    slotFinite (.ps p') = true := by
  obtain ⟨hf, hr, -, e⟩ := psShift_eq_ok.1 h
  simp only [e, slotFinite, Bool.and_eq_true] at hp ⊢
  exact ⟨⟨hp.1.1, hr⟩, hf⟩

theorem Writes.all_finite {vs : List F} {m m' : Mem} (h : Writes vs m m') (hm : m.all (fun c => fFinite c.2) = true) :
    m'.all (fun c => fFinite c.2) = true := by
  rcases h.2 with rfl | rfl
  · exact hm
  · rw [List.all_eq_true] at *
    exact fun c hc => (mem_writeCells hc).elim (h.1 c.2) (hm c)

theorem columnsFinite_of_effect {i : Instr} {s t : State} (h : Effect i s t)
    (h0 : s.YMEM0.all (fun c => fFinite c.2) = true) (h1 : s.YMEM1.all (fun c => fFinite c.2) = true) :
    t.YMEM0.all (fun c => fFinite c.2) = true ∧ t.YMEM1.all (fun c => fFinite c.2) = true := by
  cases h with
  | @normalise c _ _ _ _ _ hm =>
    cases c with
    | c0 => exact ⟨hm.all_finite h0, h1⟩
    | c1 => exact ⟨h0, hm.all_finite h1⟩
  | block _ _ _ hm => exact ⟨hm.all_finite h0, h1⟩
  | block2 _ _ _ _ _ _ hm hm' => exact ⟨hm.all_finite h0, hm'.all_finite h1⟩
  | _ => exact ⟨h0, h1⟩

/-- Settles O49: the slots by `step_keeps_slots`, the columns because only finite values are written. -/
theorem stepsKeepValuesFinite : Obligations.StepsKeepValuesFinite := by
  intro s t hs h
  simp only [valuesFinite, Bool.and_eq_true] at hs ⊢
  obtain ⟨⟨hU, h0⟩, h1⟩ := hs
  have hU' : t.U.all slotFinite = true :=
    step_keeps_slots (fun _ _ _ => slotFinite_of_configures) slotFinite_of_samples slotFinite_of_psShift hU h
  have hY : t.YMEM0.all (fun c => fFinite c.2) = true ∧ t.YMEM1.all (fun c => fFinite c.2) = true := by
    obtain ⟨-, -, ⟨i, -, hi⟩ | ⟨e, -, rfl⟩⟩ := step_next h
    · rcases exec_cases hi with ⟨t', he, rfl⟩ | ⟨c, -, rfl⟩
      · have hcols := columnsFinite_of_effect he h0 h1
        exact hcols
      · exact ⟨h0, h1⟩
    · exact ⟨h0, h1⟩
  exact ⟨⟨hU', hY.1⟩, hY.2⟩

end Sys2Proof.Machine
end

section
/-! PROOFS. Two invariants of every step: the shape of the slots, for which a delay in samples is at least 1, and the
intervals of the oscillators, for which one correction brings a phase back. -/

namespace Sys2Proof.Machine

/-! ### A delay in samples is at least 1 (40_delay_line R122) -/

theorem fIsInf_or_finite {a : F} (h : fMag a ≤ fInfMag) : fIsInf a = true ∨ fFinite a = true := by
  rw [fFinite_iff, fIsInf, beq_iff_eq]
  omega

theorem fIsZero_of_fIsInf {a : F} (h : fIsInf a = true) : fIsZero a = false := by
  rw [fIsInf, beq_iff_eq] at h
  rw [fIsZero, h]
  decide

theorem fMag_fEncode_inf (neg : Bool) : fMag (fEncode neg fInfMag) ≤ fInfMag :=
  Nat.le_of_eq (fMag_fEncode fInfMag_lt)

section
variable {a b : F}

/-- Only a NaN or an infinity times zero makes a product a NaN. -/
theorem fMag_fMul_le_of_ne_zero (ha : fMag a ≤ fInfMag) (hb : fFinite b = true) (h0 : fIsZero b = false) :
    fMag (fMul a b) ≤ fInfMag := by
  rcases fIsInf_or_finite ha with hi | hf
  · simp [fMul, fIsNaN_eq_false.2 ha, fIsNaN_of_finite hb, hi, fIsZero_of_fIsInf hi, h0, fMag_fEncode_inf]
  · exact fMag_fMul_le hf hb

theorem fMag_fDiv_le_of_ne_zero (ha : fMag a ≤ fInfMag) (hb : fFinite b = true) (h0 : fIsZero b = false) :
    fMag (fDiv a b) ≤ fInfMag := by
  rcases fIsInf_or_finite ha with hi | hf
  · simp [fDiv, fIsNaN_eq_false.2 ha, fIsNaN_of_finite hb, hi, fIsInf_of_finite hb, fMag_fEncode_inf]
  · rw [fDiv_of_finite hf hb h0, fMag_fRound]
    exact roundMag_le _ _

theorem fMag_fAdd_le_of_finite (ha : fFinite a = true) (hb : fMag b ≤ fInfMag) : fMag (fAdd a b) ≤ fInfMag := by
  rcases fIsInf_or_finite hb with hi | hf
  · simp [fAdd, fIsNaN_of_finite ha, fIsNaN_eq_false.2 hb, fIsInf_of_finite ha, hi, hb]
  · exact fMag_fAdd_le ha hf

end

section
variable {fs : Word}

/-- A sample rate that is not 0, as a value. -/
theorem toF_rate (h0 : fs ≠ 0) (h53 : fs.toNat < 2 ^ 53) : fFinite (toF fs.toNat) = true ∧ fIsZero (toF fs.toNat) = false := by
  have hne : fs.toNat ≠ 0 := fun h => h0 (BitVec.eq_of_toNat_eq h)
  refine ⟨fFinite_toF (Nat.le_of_lt h53), ?_⟩
  have hge := fMag_fOne_le_fMag_toF hne
  rw [fMag_fOne] at hge
  rw [← Bool.not_eq_true, fIsZero_iff]
  omega

/-- The quotient of a delay that is no NaN is none, so `trunc` takes it to at least 1. -/
theorem msToSamples_pos {cap L : Nat} {ms : F} (h0 : fs ≠ 0) (h53 : fs.toNat < 2 ^ 53) (hms : fMag ms ≤ fInfMag)
    (h : msToSamples cap ms fs = .ok L) : 0 < L := by
  obtain ⟨hfin, hnz⟩ := toF_rate h0 h53
  have hq : fMag (msQuotient ms fs) ≤ fInfMag :=
    fMag_fDiv_le_of_ne_zero (fMag_fMul_le_of_ne_zero hms hfin hnz) (by decide) (by decide)
  rw [msToSamples] at h
  split at h
  · cases h
  · rename_i h1
    split at h
    · cases h
    · cases h
      have := fTrunc_pos (Bool.eq_false_iff.2 h1) (fIsNaN_eq_false.2 hq)
      omega

theorem fMag_spreadMs_le {spread : Word} (h0 : fs ≠ 0) (h53 : fs.toNat < 2 ^ 53) (hs : spread.toNat < 2 ^ 53) :
    fMag (spreadMs spread fs) ≤ fInfMag := by
  obtain ⟨hfin, hnz⟩ := toF_rate h0 h53
  exact fMag_fDiv_le_of_ne_zero (fMag_fMul_le (fFinite_toF (Nat.le_of_lt hs)) (by decide)) hfin hnz

theorem newFilters_shaped {cap : Nat} {mss gains : List F} {cs : List CombState} (h0 : fs ≠ 0) (h53 : fs.toNat < 2 ^ 53)
    (hms : ∀ ms ∈ mss, fMag ms ≤ fInfMag) (h : newFilters cap fs (mss.zip gains) = .ok cs) :
    cs.all (fun c => delayOk c.d) = true := by
  rw [List.all_eq_true]
  intro c hc
  obtain ⟨ms, hmem, g, -, L, hL, e⟩ := exists_of_mem_newFilters h hc
  rw [e]
  exact delayOk_fresh (msToSamples_pos h0 h53 (hms ms hmem) hL)

end

/-! ### Shape (10_state R31 to R38) -/

@[simp] theorem freshDelay_L (L : Nat) : (freshDelay L).L = L := rfl

theorem slotShaped_of_configures {cap : Nat} {i : Instr} {s : State} {u : Byte} {x : Slot} (hok : operandsOk i s = true)
    (h0 : (rateOperands i).head? ≠ some 0) (h : Configures cap i u x) : slotShaped x = true := by
  simp only [operandsOk, Bool.and_eq_true, List.all_eq_true, decide_eq_true_eq] at hok
  obtain ⟨⟨-, hf⟩, h53⟩ := hok
  have hne : ∀ {fs : Word} {l : List Word}, rateOperands i = fs :: l → fs ≠ 0 := fun e hz => h0 (by rw [e, hz]; rfl)
  have hmag : ∀ {v : F}, v ∈ floatOperands i → fMag v ≤ fInfMag := fun hv => Nat.le_of_lt (fFinite_iff.1 (hf _ hv))
  cases h with
  | lfo | tri | tr => rfl
  | @dl u ms fs L hL | @firc u ms g fs L hL | @iirc u ms g fs L hL | @ap u ms g fs L hL =>
    exact delayOk_fresh (msToSamples_pos (hne rfl) (h53 fs (by simp [rateOperands])) (hmag (by simp [floatOperands])) hL)
  | @fl u mn mx rate depth fs maxD minD l hmax =>
    have hpos := msToSamples_pos (hne rfl) (h53 fs (by simp [rateOperands])) (hmag (by simp [floatOperands])) hmax
    simp only [slotShaped, delayOk_fresh hpos, freshDelay_L, BEq.rfl, Bool.and_self]
  | @ps u ms fs W hW =>
    have hpos := msToSamples_pos (hne rfl) (h53 fs (by simp [rateOperands])) (hmag (by simp [floatOperands])) hW
    have hfresh : delayOk (freshDelay (2 * W)) = true := delayOk_fresh (by omega)
    simp only [slotShaped, hfresh, freshDelay_L, BEq.rfl, Bool.and_self]
  | @rv u fs wet spread cd cg ad ag comb ap _ _ _ hlen hnil hcomb hap =>
    have hfs : fs ≠ 0 := hne rfl
    have hfs53 : fs.toNat < 2 ^ 53 := h53 fs (by simp [rateOperands])
    have hspread := fMag_spreadMs_le hfs hfs53 (h53 spread (by simp [rateOperands]))
    have hcd : ∀ ms ∈ cd.map (fAdd · (spreadMs spread fs)), fMag ms ≤ fInfMag := by
      intro ms hms
      obtain ⟨v, hv, rfl⟩ := List.mem_map.1 hms
      exact fMag_fAdd_le_of_finite (hf v (by simp [floatOperands, hv])) hspread
    have had : ∀ ms ∈ ad, fMag ms ≤ fInfMag := fun ms hms => hmag (by simp [floatOperands, hms])
    have hlength : comb.length ≠ 0 := by
      have := (newFilters_eq_ok.1 hcomb).length_eq
      simp only [List.length_zip, List.length_map, ← hlen, Nat.min_self] at this
      omega
    have hcomb0 : comb.isEmpty = false := by simpa [List.length_eq_zero_iff] using hlength
    simp only [slotShaped, hcomb0, newFilters_shaped hfs hfs53 hcd hcomb, newFilters_shaped hfs hfs53 had hap,
      Bool.not_false, Bool.and_self]

theorem slotShaped_of_samples {z z' : Slot} (h : Samples z z') (hz : slotShaped z = true) : slotShaped z' = true := by
  cases h with
  | @store _ d v hd =>
    cases z <;> simp only [viewDelay, Option.some.injEq, reduceCtorEq] at hd <;> subst hd <;> exact delayOk_push v hz
  | lfo | tri | tr => rfl
  | @fl f x y f' _ h =>
    obtain ⟨-, dl, -, -, -, e⟩ := h
    simp only [e, slotShaped, Bool.and_eq_true, push_L] at hz ⊢
    exact ⟨delayOk_push x hz.1, hz.2⟩
  | @rv r x y r' h =>
    obtain ⟨-, e, -, hst⟩ := h
    simp only [slotShaped, Bool.and_eq_true] at hz ⊢
    obtain ⟨hc, ha⟩ := all_rvNext (Q := fun c => delayOk c.d) (fun _ hc => delayOk_push _ hc) hst hz.1.2 hz.2
    rw [e]
    exact ⟨⟨by simpa [rvNext] using hz.1.1, hc⟩, ha⟩
  | @ps q x y q' _ h =>
    obtain ⟨-, -, -, -, -, -, vA, vB, -, -, -, -, e⟩ := psStep_eq_ok.1 h
    simp only [e, slotShaped, Bool.and_eq_true, push_L] at hz ⊢
    exact ⟨delayOk_push x hz.1, hz.2⟩

theorem slotShaped_of_psShift {p p' : PSState} {x : F} (h : psShift p x = .ok p') (hp : slotShaped (.ps p) = true) :
    slotShaped (.ps p') = true := by
  obtain ⟨-, -, -, e⟩ := psShift_eq_ok.1 h
  rw [e]
  exact hp

/-- Settles O47, by `step_keeps_slots`: a completed configuration had finite operands and a rate that is not 0. -/
theorem stepsKeepSlotsShaped : Obligations.StepsKeepSlotsShaped := by
  intro s t hs h
  refine step_keeps_slots (fun {i u x} hw hi hne hc => ?_) slotShaped_of_samples slotShaped_of_psShift hs h
  have hok := operandsOk_of_exec_next hw hi
  exact slotShaped_of_configures hok (rate_ne_zero_of_completed hok hi hne) hc

/-! ### The phasor (43_oscillators R183) -/

theorem fInt_fTwo : fInt fTwo = 2 * fInt fOne := by decide +kernel

theorem fInt_fOne_pos : 0 < fInt fOne := by decide +kernel

/-- The bounds of a phase. -/
theorem unit_bounds {p : F} (h0 : fLe fZero p = true) (h1 : fLe p fOne = true) :
    fFinite p = true ∧ 0 ≤ fInt p ∧ fInt p ≤ fInt fOne := by
  obtain ⟨-, hp, hlo⟩ := fLe_eq_true.1 h0
  obtain ⟨-, -, hhi⟩ := fLe_eq_true.1 h1
  exact ⟨fFinite_of_between (by decide) (by decide) hp hlo hhi, by rwa [fInt_fZero] at hlo, hhi⟩

/-- The bounds of a rate. -/
theorem rate_bounds {r : F} (h : fLt (fAbs r) fOne = true) :
    fFinite r = true ∧ -fInt fOne < fInt r ∧ fInt r < fInt fOne := by
  obtain ⟨hr, -, hlt⟩ := fLt_eq_true.1 h
  rw [fMag_fAbs] at hr
  rw [fInt_fAbs, ← natAbs_fInt] at hlt
  have hneg : fInt (fNeg fOne) = -fInt fOne := fInt_fNeg fOne
  exact ⟨fFinite_of_between (a := fNeg fOne) (c := fOne) (by decide) (by decide) hr (by omega) (by omega), by omega,
    by omega⟩

theorem fLe_of_bounds {a lo hi : F} (hlo : fMag lo ≤ fInfMag) (hhi : fMag hi ≤ fInfMag) (ha : fMag a ≤ fInfMag)
    (h : fInt lo ≤ fInt a ∧ fInt a ≤ fInt hi) : fLe lo a = true ∧ fLe a hi = true :=
  ⟨(fLe_iff hlo ha).2 h.1, (fLe_iff ha hhi).2 h.2⟩

/-- One correction brings a phasor back into [0, 1]: before it the sum is between -1 and 2. -/
theorem phasorAdvance_mem_unit {p rate : F} (h0 : fLe fZero p = true) (h1 : fLe p fOne = true)
    (hr : fLt (fAbs rate) fOne = true) :
    fLe fZero (phasorAdvance p rate) = true ∧ fLe (phasorAdvance p rate) fOne = true := by
  obtain ⟨hp, hp0, hp1⟩ := unit_bounds h0 h1
  obtain ⟨hrf, hr0, hr1⟩ := rate_bounds hr
  have hone : fFinite fOne = true := by decide
  have hpos := fInt_fOne_pos
  have hneg : fInt (fNeg fOne) = -fInt fOne := fInt_fNeg fOne
  have hqm : fMag (fAdd p rate) ≤ fInfMag := fMag_fAdd_le hp hrf
  have hlo : fInt (fNeg fOne) ≤ fInt (fAdd p rate) := le_fInt_fAdd hp hrf (by decide) (by omega)
  have hhi : fInt (fAdd p rate) ≤ fInt fTwo := fInt_fAdd_le hp hrf (by decide) (by rw [fInt_fTwo]; omega)
  have hq : fFinite (fAdd p rate) = true := fFinite_of_between (by decide) (by decide) hqm hlo hhi
  rw [fInt_fTwo] at hhi
  simp only [phasorAdvance]
  split
  · rename_i hwrap
    obtain ⟨-, -, hwrap⟩ := fLe_eq_true.1 hwrap
    exact fLe_of_bounds (by decide) (by decide) (fMag_fSub_le hq hone)
      ⟨le_fInt_fSub hq hone (by decide) (by rw [fInt_fZero]; omega), fInt_fSub_le hq hone (by decide) (by omega)⟩
  · rename_i hwrap
    rw [fLe_iff (by decide) hqm] at hwrap
    split
    · rename_i hlow
      rw [fLt_iff hqm (by decide), fInt_fZero] at hlow
      exact fLe_of_bounds (by decide) (by decide) (fMag_fAdd_le hq hone)
        ⟨le_fInt_fAdd hq hone (by decide) (by rw [fInt_fZero]; omega), fInt_fAdd_le hq hone (by decide) (by omega)⟩
    · rename_i hlow
      rw [fLt_iff hqm (by decide)] at hlow
      exact fLe_of_bounds (by decide) (by decide) hqm ⟨by omega, by omega⟩

/-! ### The LFO (43_oscillators R173) -/

theorem fFinite_TWO_PI : fFinite Config.TWO_PI = true := by decide +kernel

/-- The pattern of 4π, which is exactly twice TWO_PI. -/
theorem fInt_four_pi : fInt 0x402921FB54442D18 = 2 * fInt Config.TWO_PI := by decide +kernel

/-- One subtraction of TWO_PI brings the phase of an LFO back: before it the sum is between 0 and 4π. -/
theorem lfoAdvance_mem_band {l : LFOState} (hs0 : fLe fZero l.step = true) (hs1 : fLt l.step Config.TWO_PI = true)
    (hp0 : fLe fZero l.phase = true) (hp1 : fLe l.phase Config.TWO_PI = true) :
    fLe fZero (lfoAdvance l) = true ∧ fLe (lfoAdvance l) Config.TWO_PI = true := by
  have hpi := fFinite_TWO_PI
  have hpim := Nat.le_of_lt (fFinite_iff.1 hpi)
  obtain ⟨-, hsm, hs0⟩ := fLe_eq_true.1 hs0
  obtain ⟨-, -, hs1⟩ := fLt_eq_true.1 hs1
  obtain ⟨-, hpm, hp0⟩ := fLe_eq_true.1 hp0
  obtain ⟨-, -, hp1⟩ := fLe_eq_true.1 hp1
  have hs : fFinite l.step = true := fFinite_of_between (by decide) hpi hsm hs0 (Int.le_of_lt hs1)
  have hp : fFinite l.phase = true := fFinite_of_between (by decide) hpi hpm hp0 hp1
  have hfour := fInt_four_pi
  have hzero := fInt_fZero
  have hqm : fMag (fAdd l.phase l.step) ≤ fInfMag := fMag_fAdd_le hp hs
  have hlo : fInt fZero ≤ fInt (fAdd l.phase l.step) := le_fInt_fAdd hp hs (by decide) (by omega)
  have hhi : fInt (fAdd l.phase l.step) ≤ fInt 0x402921FB54442D18 := fInt_fAdd_le hp hs (by decide) (by omega)
  have hq : fFinite (fAdd l.phase l.step) = true := fFinite_of_between (by decide) (by decide) hqm hlo hhi
  simp only [lfoAdvance]
  split
  · rename_i hwrap
    obtain ⟨-, -, hwrap⟩ := fLt_eq_true.1 hwrap
    exact fLe_of_bounds (by decide) hpim (fMag_fSub_le hq hpi)
      ⟨le_fInt_fSub hq hpi (by decide) (by omega), fInt_fSub_le hq hpi hpim (by omega)⟩
  · rename_i hwrap
    rw [fLt_iff hpim hqm] at hwrap
    exact fLe_of_bounds (by decide) hpim hqm ⟨hlo, by omega⟩

theorem lfoNext_phase (l : LFOState) : (lfoNext l).phase = lfoAdvance l := by simp only [lfoNext, lfoAdvance]

theorem lfoBandOk_iff {l : LFOState} :
    lfoBandOk l = true ↔ (fLe fZero l.step = true → fLt l.step Config.TWO_PI = true →
      fLe fZero l.phase = true ∧ fLe l.phase Config.TWO_PI = true) := by
  simp only [lfoBandOk, Bool.or_eq_true, Bool.not_eq_true', Bool.and_eq_true,
    ← Bool.not_eq_true]
  tauto

theorem lfoBandOk_lfoNext {l : LFOState} (h : lfoBandOk l = true) : lfoBandOk (lfoNext l) = true := by
  rw [lfoBandOk_iff] at *
  rw [lfoNext_step, lfoNext_phase]
  intro h0 h1
  exact lfoAdvance_mem_band h0 h1 (h h0 h1).1 (h h0 h1).2

theorem lfoBandOk_lfoNew {rate center range : F} {fs : Word} {l : LFOState} (h : lfoNew rate center range fs = .ok l) :
    lfoBandOk l = true := by
  obtain ⟨-, e⟩ := lfoNew_eq_ok.1 h
  have hzero : fLe fZero fZero = true ∧ fLe fZero Config.TWO_PI = true := by decide +kernel
  rw [lfoBandOk_iff, e]
  exact fun _ _ => hzero

/-! ### Every oscillator of the slots -/

/-- A finite rate that passes the test of R185. -/
theorem fLt_of_fLe_eq_false {r : F} (hr : fFinite r = true) (h : fLe fOne (fAbs r) = false) :
    fLt (fAbs r) fOne = true := by
  have hm : fMag (fAbs r) ≤ fInfMag := by rw [fMag_fAbs]; exact Nat.le_of_lt (fFinite_iff.1 hr)
  rw [← Bool.not_eq_true, fLe_iff (by decide) hm] at h
  rw [fLt_iff hm (by decide)]
  omega

theorem phasorOk_iff {t : TRIState} :
    phasorOk t = true ↔ fLe fZero t.p = true ∧ fLe t.p fOne = true ∧ fLt (fAbs t.rate) fOne = true := by
  simp [phasorOk, and_assoc]

theorem phasorOk_advance {t : TRIState} (h : phasorOk t = true) :
    phasorOk { t with p := phasorAdvance t.p t.rate } = true := by
  rw [phasorOk_iff] at *
  obtain ⟨h0, h1, hr⟩ := h
  exact ⟨(phasorAdvance_mem_unit h0 h1 hr).1, (phasorAdvance_mem_unit h0 h1 hr).2, hr⟩

/-- A fresh phasor is at +0.0. -/
theorem phasorOk_fresh {r : F} (hr : fLt (fAbs r) fOne = true) : phasorOk ⟨fZero, r⟩ = true := by
  have hzero : fLe fZero fZero = true ∧ fLe fZero fOne = true := by decide +kernel
  exact phasorOk_iff.2 ⟨hzero.1, hzero.2, hr⟩

theorem slotPhasesOk_of_configures {cap : Nat} {i : Instr} {u : Byte} {x : Slot} (h : Configures cap i u x) :
    slotPhasesOk x = true := by
  cases h with
  | dl | firc | iirc | ap | rv => rfl
  | lfo hl => exact lfoBandOk_lfoNew hl
  | tri hf hr => exact phasorOk_fresh (fLt_of_fLe_eq_false hf hr)
  | fl _ _ _ _ hl => exact lfoBandOk_lfoNew hl
  | tr _ _ hl => exact lfoBandOk_lfoNew hl
  | ps => exact phasorOk_fresh (by decide +kernel)

theorem slotPhasesOk_of_samples {z z' : Slot} (h : Samples z z') (hz : slotPhasesOk z = true) :
    slotPhasesOk z' = true := by
  cases h with
  | @store _ d v hd => cases z <;> simp only [viewDelay, reduceCtorEq] at hd <;> rfl
  | lfo => exact lfoBandOk_lfoNext hz
  | tri h =>
    obtain ⟨-, -, -, -, -, e⟩ := triTick_eq_ok.1 h
    rw [e]
    exact phasorOk_advance hz
  | fl _ h =>
    obtain ⟨-, dl, -, -, -, e⟩ := h
    rw [e]
    exact lfoBandOk_lfoNext hz
  | rv => rfl
  | tr h =>
    obtain ⟨-, -, -, e⟩ := h
    rw [e]
    exact lfoBandOk_lfoNext hz
  | @ps q _ _ _ _ h =>
    obtain ⟨-, -, -, -, -, -, vA, vB, -, -, -, -, e⟩ := psStep_eq_ok.1 h
    rw [e]
    exact phasorOk_advance (t := q.tri) hz

theorem slotPhasesOk_of_psShift {p p' : PSState} {x : F} (h : psShift p x = .ok p')
    (hp : slotPhasesOk (.ps p) = true) : slotPhasesOk (.ps p') = true := by
  obtain ⟨-, hr, hle, e⟩ := psShift_eq_ok.1 h
  rw [slotPhasesOk, phasorOk_iff] at *
  rw [e]
  exact ⟨hp.1, hp.2.1, fLt_of_fLe_eq_false hr hle⟩

/-- Settles O56: the two intervals of one correction, and `step_keeps_slots`. -/
theorem phasesStayInTheirIntervals : Obligations.PhasesStayInTheirIntervals := by
  refine ⟨fun p rate h0 h1 hr => ?_, fun l => lfoAdvance_mem_band, fun s t hs h => ?_⟩
  · obtain ⟨hb0, hb1⟩ := phaseB_mem_unit h0 h1
    obtain ⟨hbm, -, hb1⟩ := fLt_eq_true.1 hb1
    obtain ⟨ha0, ha1⟩ := phasorAdvance_mem_unit h0 h1 hr
    exact ⟨ha0, ha1, hb0, (fLe_iff hbm (by decide)).2 (Int.le_of_lt hb1)⟩
  · exact step_keeps_slots (fun _ _ _ => slotPhasesOk_of_configures) slotPhasesOk_of_samples slotPhasesOk_of_psShift hs h

end Sys2Proof.Machine
end

section
/-! PROOFS. What the commands on one sample answer: the values and instances of the rules' formulas where every computed
value is finite, and the refusals of 93 U2 to U6. -/

namespace Sys2Proof.Machine

section
variable {s : State} {u : Byte} {z : Slot}

/-! ### Raw commands on a delay line (40_delay_line R129) -/

theorem finiteOperands_singleton {x : F} (hx : fFinite x = true) : finiteOperands [x] = .ok () :=
  finiteOperands_of_finite (by simpa using hx)

theorem exec_dlWrite {x : F} {d : DLState} (hx : fFinite x = true) (hz : s.U[u.toNat]? = some z)
    (hd : viewDelay z = some d) :
    exec (.dlWrite u x) s = .next (advance 1 (setSlot u (withDelay (push d x) z) s)) := by
  rw [exec, execDlWrite, finiteOperands_singleton hx, ok_bind, slotAs_of_view hz hd, ok_bind, pure_eq_ok, finish_ok,
    setDelay_of_getElem? hz]

/-- Settles O23: the four kinds that `viewDelay` accepts. -/
theorem delayWriteStoresAtTheCursor : Obligations.DelayWriteStoresAtTheCursor := fun _ _ _ hx =>
  ⟨fun _ h => exec_dlWrite hx h rfl, fun _ h => exec_dlWrite hx h rfl, fun _ h => exec_dlWrite hx h rfl,
    fun _ h => exec_dlWrite hx h rfl⟩

theorem exec_dlRead {o : F} {d : DLState} (ho : fFinite o = true) (hz : s.U[u.toNat]? = some z)
    (hd : viewDelay z = some d) :
    exec (.dlRead u o) s = finish 1 s (fracRead d o >>= fun y => pure (writeRes0 y s)) := by
  rw [exec, execDlRead, finiteOperands_singleton ho, ok_bind, slotAs_of_view hz hd, ok_bind]

theorem fracRead_of_not_finite {d : DLState} {o : F} (h : fFinite (fSub (toF d.cur) o) = false) :
    fracRead d o = refuse .nonFiniteResult := by rw [fracRead, checked_of_not_finite h, refuse_bind]

theorem fracRead_of_below {d : DLState} {o : F} (h : fFinite (fSub (toF d.cur) o) = true)
    (hlt : fLt (fSub (toF d.cur) o) fWrapLimit = true) : fracRead d o = refuse .readOutOfRange := by
  rw [fracRead, checked_of_finite h, ok_bind, if_pos hlt, refuse_bind]

/-- A position that the loop brings up, at which the interpolation is not finite. -/
theorem fracRead_of_interpolate {d : DLState} {o : F} {n : Nat} (hn : n ≤ wrapFuel)
    (h : fFinite (fSub (toF d.cur) o) = true) (hlt : fLt (fSub (toF d.cur) o) fWrapLimit = false)
    (hk : ∀ k < n, fLt ((fun p => fAdd p (toF d.L))^[k] (fSub (toF d.cur) o)) fZero = true)
    (hend : fLt ((fun p => fAdd p (toF d.L))^[n] (fSub (toF d.cur) o)) fZero = false)
    (hv : fFinite (interpolate d ((fun p => fAdd p (toF d.L))^[n] (fSub (toF d.cur) o))) = false) :
    fracRead d o = refuse .nonFiniteResult := by
  rw [fracRead, checked_of_finite h, ok_bind, if_neg (ne_true_of_eq_false hlt)]
  dsimp only
  rw [wrapAdd_eq_ok.2 ⟨n, hn, hk, hend, rfl⟩, ok_bind, checked_of_not_finite hv]

/-- Settles O24: what `FracRead` answers, and where it stops. -/
theorem delayReadInterpolates : Obligations.DelayReadInterpolates := by
  intro s u o d ho hkind pos after
  obtain ⟨z, hz, hd⟩ : ∃ z, s.U[u.toNat]? = some z ∧ viewDelay z = some d := by
    rcases hkind with h | ⟨g, h | h | h⟩ <;> exact ⟨_, h, rfl⟩
  rw [exec_dlRead ho hz hd]
  refine ⟨fun v hv => ?_, fun hf hlt => ?_, fun hf => ?_, fun n hn hf hlt hk hend hv => ?_⟩
  · rw [fracRead_eq_ok.2 hv]; rfl
  · rw [fracRead_of_below hf hlt]; rfl
  · rw [fracRead_of_not_finite hf]; rfl
  · rw [fracRead_of_interpolate hn hf hlt hk hend hv]; rfl

/-- DL.PROC on a slot with a delay line: completion and refusal. -/
theorem exec_dlProc {x g : F} {d : DLState} (hx : fFinite x = true) (hg : fFinite g = true)
    (hz : s.U[u.toNat]? = some z) (hd : viewDelay z = some d) :
    (fFinite (fAdd x (fMul g (bufAt d d.cur))) = true → exec (.dlProc u x g) s =
      .next (advance 2 (writeRes0 (bufAt d d.cur)
        (setSlot u (withDelay (push d (fAdd x (fMul g (bufAt d d.cur)))) z) s)))) ∧
    (fFinite (fAdd x (fMul g (bufAt d d.cur))) = false → exec (.dlProc u x g) s = .refused .nonFiniteResult) := by
  have hops : finiteOperands [x, g] = .ok () := finiteOperands_of_finite (by simp [hx, hg])
  rw [exec, execDlProc, hops, ok_bind, slotAs_of_view hz hd, ok_bind]
  refine ⟨fun hw => ?_, fun hw => ?_⟩
  · rw [dlProc_eq_ok.2 ⟨hw, rfl, rfl⟩, ok_bind]
    dsimp only
    rw [setDelay_of_getElem? hz, pure_eq_ok, finish_ok]
  · rw [dlProc, checked_of_not_finite hw]; rfl

/-- Settles O25: the four kinds that `viewDelay` accepts. -/
theorem delayProcReturnsTheStoredElement : Obligations.DelayProcReturnsTheStoredElement := fun _ _ _ _ _ hx hg =>
  ⟨fun h => exec_dlProc hx hg h rfl, fun _ h => exec_dlProc hx hg h rfl, fun _ h => exec_dlProc hx hg h rfl,
    fun _ h => exec_dlProc hx hg h rfl⟩

/-! ### Commands made of one step of a unit -/

section
variable {α : Type} {view : Slot → Option α} {wrap : α → Slot} {f : α → Run (F × α)} {a : α}

theorem stepCommand_of_ok {x y : F} {a' : α} (hx : fFinite x = true) (hz : s.U[u.toNat]? = some z)
    (ha : view z = some a) (hf : f a = .ok (y, a')) :
    finish 1 s (finiteOperands [x] >>= fun _ => stepUnit view wrap f u s) =
      .next (advance 1 (writeRes0 y (setSlot u (wrap a') s))) := by
  rw [finiteOperands_singleton hx, ok_bind, stepUnit_of_ok hz ha hf, finish_ok]

theorem stepCommand_of_refuse {x : F} {r : Refusal} (hx : fFinite x = true) (hz : s.U[u.toNat]? = some z)
    (ha : view z = some a) (hf : f a = refuse r) :
    finish 1 s (finiteOperands [x] >>= fun _ => stepUnit view wrap f u s) = .refused r := by
  rw [finiteOperands_singleton hx, ok_bind, stepUnit_of_error hz ha hf]
  rfl

end

theorem combProc_of_not_finite {x : F} {c : CombState} (h : fFinite (fAdd x (fMul c.gain (bufAt c.d c.d.cur))) = false) :
    combProc x c = refuse .nonFiniteResult :=
  (onlyNonFinite_combProc x c).of_ne_ok fun ⟨_, _⟩ hok => Bool.false_ne_true (h.symm.trans (combProc_eq_ok.1 hok).1)

/-- Settles O26: both combs are `combProc`. -/
theorem combsReturnTheStoredElement : Obligations.CombsReturnTheStoredElement := by
  intro s u x g d hx out w d' does
  refine ⟨fun h => ⟨fun hw => ?_, fun hw => ?_⟩, fun h => ⟨fun hw => ?_, fun hw => ?_⟩⟩
  · exact stepCommand_of_ok hx h rfl (combProc_eq_ok.2 ⟨hw, rfl, rfl⟩)
  · exact stepCommand_of_refuse hx h rfl (combProc_of_not_finite hw)
  · exact stepCommand_of_ok hx h rfl (combProc_eq_ok.2 ⟨hw, rfl, rfl⟩)
  · exact stepCommand_of_refuse hx h rfl (combProc_of_not_finite hw)

/-- Settles O27. -/
theorem allPassIsSchroederCanonical : Obligations.AllPassIsSchroederCanonical := by
  intro s u x a h hx delayed bufferIn out
  refine ⟨fun hin hout => ?_, fun hnot => ?_⟩
  · exact stepCommand_of_ok hx h rfl (apProc_eq_ok.2 ⟨hin, hout, rfl, rfl⟩)
  · refine stepCommand_of_refuse hx h rfl ((onlyNonFinite_apProc x a).of_ne_ok fun ⟨y, a'⟩ hok => ?_)
    obtain ⟨hin, hout, -⟩ := apProc_eq_ok.1 hok
    exact hnot.elim (fun e => Bool.false_ne_true (e.symm.trans hin)) fun e => Bool.false_ne_true (e.symm.trans hout)

theorem lfoTickFinite_iff {l : LFOState} :
    lfoTickFinite l = true ↔ fFinite (lfoValue l) = true ∧ fFinite (lfoNext l).phase = true := by simp [lfoTickFinite]

theorem lfoTick_of_not_finite {l : LFOState} (h : lfoTickFinite l = false) : lfoTick l = refuse .nonFiniteResult :=
  (onlyNonFinite_lfoTick l).of_ne_ok fun ⟨_, _⟩ hok => Bool.false_ne_true (h.symm.trans (lfoTick_eq_ok.1 hok).1)

/-- Settles O28. -/
theorem lfoTickAdvancesThePhase : Obligations.LfoTickAdvancesThePhase := by
  intro s u l h v p phase
  have hexec : exec (.lfoTick u) s = finish 0 s (stepUnit viewLfo .lfo lfoTick u s) := rfl
  have hview : viewLfo (.lfo l) = some l := rfl
  have hnext : lfoNext l = { l with phase := phase } := by simp only [lfoNext, phase, p]
  have hiff : lfoTickFinite l = true ↔ fFinite v = true ∧ fFinite phase = true := by
    rw [lfoTickFinite_iff, hnext, lfoValue]
  rw [hexec]
  refine ⟨fun hv hp => ?_, fun hnot => ?_⟩
  · rw [stepUnit_of_ok h hview (lfoTick_eq_ok.2 ⟨hiff.2 ⟨hv, hp⟩, rfl, rfl⟩), hnext]
    rfl
  · have hfalse : lfoTickFinite l = false := by
      rw [← Bool.not_eq_true, hiff]
      rintro ⟨hv, hp⟩
      exact hnot.elim (fun e => Bool.false_ne_true (e.symm.trans hv)) fun e => Bool.false_ne_true (e.symm.trans hp)
    rw [stepUnit_of_error h hview (lfoTick_of_not_finite hfalse)]
    rfl

/-! ### The triangular oscillator on a legal phasor (43_oscillators R186) -/

/-- The triangle of a phase in [0, 1] is in [0, 1]: twice a distance of at most 0.5 from 0.5. -/
theorem fFinite_tri {p : F} (h0 : fLe fZero p = true) (h1 : fLe p fOne = true) : fFinite (tri p) = true := by
  obtain ⟨hp, hp0, hp1⟩ := unit_bounds h0 h1
  have hhalf : fFinite fHalf = true := by decide
  have hone : fFinite fOne = true := by decide
  have htwo : fFinite fTwo = true := by decide
  have heq := fInt_fOne_eq_two_halves
  have hneg : fInt (fNeg fHalf) = -fInt fHalf := fInt_fNeg fHalf
  have hlo : fInt (fNeg fHalf) ≤ fInt (fSub p fHalf) := le_fInt_fSub hp hhalf (by decide) (by omega)
  have hhi : fInt (fSub p fHalf) ≤ fInt fHalf := fInt_fSub_le hp hhalf (by decide) (by omega)
  have hd : fFinite (fSub p fHalf) = true :=
    fFinite_of_between (a := fNeg fHalf) (by decide) hhalf (fMag_fSub_le hp hhalf) hlo hhi
  have hdm : fMag (fSub p fHalf) ≤ fMag fHalf := by
    have hsize := natAbs_fInt (fSub p fHalf)
    have hsize' := natAbs_fInt fHalf
    exact (unitsOf_le_iff (Nat.le_of_lt (fFinite_iff.1 hd)) (by decide)).1 (by omega)
  have hm : fMag (fMul fTwo (fAbs (fSub p fHalf))) ≤ fMag fOne := by
    have hunits : unitsOf (fMag fTwo) * unitsOf (fMag fHalf) = unitsOf (fMag fOne) * fScale := by decide +kernel
    rw [fMul_of_finite htwo (by simpa using hd), fMag_fRound, fMag_fAbs]
    refine roundMag_le_of_le fScale_pos (by decide) (Nat.le_trans (Nat.mul_le_mul_left _ ?_) (Nat.le_of_eq hunits))
    exact (unitsOf_le_iff (Nat.le_of_lt (fFinite_iff.1 hd)) (by decide)).2 hdm
  have hmf : fFinite (fMul fTwo (fAbs (fSub p fHalf))) = true :=
    fFinite_iff.2 (Nat.lt_of_le_of_lt hm (by decide))
  have hunit := (unitsOf_le_iff (Nat.le_of_lt (fFinite_iff.1 hmf)) (by decide)).2 hm
  rw [← natAbs_fInt, ← natAbs_fInt] at hunit
  have htwo' := fInt_fTwo
  have hpos := fInt_fOne_pos
  exact fFinite_of_between (a := fNeg fTwo) (c := fTwo) (by decide) htwo (fMag_fSub_le hone hmf)
    (le_fInt_fSub hone hmf (by decide) (by rw [fInt_fNeg]; omega)) (fInt_fSub_le hone hmf (by decide) (by omega))

/-- Every value that an oscillator on a legal phasor computes is finite. -/
theorem phasorOk_finite {t : TRIState} (h : phasorOk t = true) :
    fFinite (phaseB t.p) = true ∧ fFinite (tri t.p) = true ∧ fFinite (tri (phaseB t.p)) = true ∧
      fFinite (phasorAdvance t.p t.rate) = true := by
  obtain ⟨h0, h1, hr⟩ := phasorOk_iff.1 h
  obtain ⟨hb0, hb1⟩ := phaseB_mem_unit h0 h1
  obtain ⟨hbm, -, hblt⟩ := fLt_eq_true.1 hb1
  have hb1' : fLe (phaseB t.p) fOne = true := (fLe_iff hbm (by decide)).2 (Int.le_of_lt hblt)
  obtain ⟨ha0, ha1⟩ := phasorAdvance_mem_unit h0 h1 hr
  exact ⟨(unit_bounds hb0 hb1').1, fFinite_tri h0 h1, fFinite_tri hb0 hb1', (unit_bounds ha0 ha1).1⟩

/-- Settles O29. -/
theorem triangularTickReturnsGainsAndPhases : Obligations.TriangularTickReturnsGainsAndPhases := by
  intro s u t h hok gain q pB n p'
  obtain ⟨hb, hg, hgb, ha⟩ := phasorOk_finite hok
  have hview : viewTri (.tri t) = some t := rfl
  rw [exec, execTriTick, slotAs_of_view h hview, ok_bind, triTick_eq_ok.2 ⟨hb, hg, hgb, ha, rfl, rfl⟩]
  rfl

/-! ### Effects -/

/-- Settles O30: the LFO, the read, the output; each may stop the step. -/
theorem flangerStepReadsThenWrites : Obligations.FlangerStepReadsThenWrites := by
  intro s u x f h hx
  refine ⟨?_, fun hl => ?_⟩
  · intro dl hl hread y
    refine ⟨fun hy => ?_, fun hy => ?_⟩
    · exact stepCommand_of_ok hx h rfl (flStep_eq_ok.2 ⟨hl, dl, hread, rfl, hy, rfl⟩)
    · refine stepCommand_of_refuse hx h rfl ?_
      rw [flStep, lfoTick_eq_ok.2 ⟨hl, rfl, rfl⟩, ok_bind]
      simp only [fracRead_eq_ok.2 hread, ok_bind]
      rw [checked_of_not_finite hy, refuse_bind]
  · refine stepCommand_of_refuse hx h rfl ?_
    rw [flStep, lfoTick_of_not_finite hl, refuse_bind]

/-- Settles O31: where `RVStep` does not answer, it stops at a value that is not finite. -/
theorem reverbStepCompletes : Obligations.ReverbStepCompletes := by
  intro s u x r h hx
  refine ⟨fun hout hst => ?_, fun hnot => ?_⟩
  · exact stepCommand_of_ok hx h rfl (rvStep_eq_ok.2 ⟨rfl, rfl, hout, hst⟩)
  · refine stepCommand_of_refuse hx h rfl ((onlyNonFinite_rvStep r x).of_ne_ok fun ⟨y, r'⟩ hok => ?_)
    obtain ⟨-, -, hout, hst⟩ := rvStep_eq_ok.1 hok
    exact hnot.elim (fun e => Bool.false_ne_true (e.symm.trans hout)) fun e => Bool.false_ne_true (e.symm.trans hst)

/-- Settles O32: where `TRStep` does not answer, it stops at a value that is not finite. -/
theorem tremoloStepMultiplies : Obligations.TremoloStepMultiplies := by
  intro s u x t h hx
  refine ⟨fun hl hy => ?_, fun hnot => ?_⟩
  · exact stepCommand_of_ok hx h rfl (trStep_eq_ok.2 ⟨hl, rfl, hy, rfl⟩)
  · refine stepCommand_of_refuse hx h rfl ((onlyNonFinite_trStep t x).of_ne_ok fun ⟨y, t'⟩ hok => ?_)
    obtain ⟨hl, e, hy, -⟩ := trStep_eq_ok.1 hok
    exact hnot.elim (fun e' => Bool.false_ne_true (e'.symm.trans hl)) fun e' => Bool.false_ne_true (e'.symm.trans (e ▸ hy))

/-! ### The pitch shifter and semitones (47_pitch_shifter) -/

theorem psStep_of_psGives {q q' : PSState} {x y : F} (h : psGives q x y q') : psStep q x = .ok (y, q') := by
  obtain ⟨hok, hA, hB, hrest⟩ := h
  obtain ⟨hb, hg, hgb, ha⟩ := phasorOk_finite hok
  exact psStep_eq_ok.2 ⟨hb, hA, hB, hg, hgb, ha, hrest⟩

/-- On a legal phasor only the two delays, the two reads and the output can stop the step. -/
theorem psStep_of_reads {q : PSState} {x vA vB : F} (hok : phasorOk q.tri = true)
    (hA : fFinite (fMul q.tri.p (toF q.W)) = true) (hB : fFinite (fMul (phaseB q.tri.p) (toF q.W)) = true)
    (hrA : Reads q.d (fMul q.tri.p (toF q.W)) vA) (hrB : Reads q.d (fMul (phaseB q.tri.p) (toF q.W)) vB) :
    psStep q x = checked (fAdd (fMul vA (tri q.tri.p)) (fMul vB (tri (phaseB q.tri.p)))) >>= fun y =>
      pure (y, { q with d := push q.d x, tri := { q.tri with p := phasorAdvance q.tri.p q.tri.rate } }) := by
  obtain ⟨hb, hg, hgb, ha⟩ := phasorOk_finite hok
  rw [psStep, checked_of_finite hb, ok_bind]
  dsimp only
  rw [checked_of_finite hA, ok_bind, checked_of_finite hB, ok_bind, checked_of_finite hg, ok_bind,
    checked_of_finite hgb, ok_bind, fracRead_eq_ok.2 hrA, ok_bind, fracRead_eq_ok.2 hrB, ok_bind, checked_of_finite ha]
  rfl

theorem psStep_of_delay_not_finite {q : PSState} {x : F} (hok : phasorOk q.tri = true)
    (h : fFinite (fMul q.tri.p (toF q.W)) = false ∨ fFinite (fMul (phaseB q.tri.p) (toF q.W)) = false) :
    psStep q x = refuse .nonFiniteResult := by
  obtain ⟨hb, -⟩ := phasorOk_finite hok
  rw [psStep, checked_of_finite hb, ok_bind]
  by_cases hA : fFinite (fMul q.tri.p (toF q.W)) = true
  · have hB := h.resolve_left (ne_false_of_eq_true hA)
    rw [checked_of_finite hA, ok_bind, checked_of_not_finite hB, refuse_bind]
  · rw [checked_of_not_finite (Bool.eq_false_iff.2 hA), refuse_bind]

/-- Settles O33. -/
theorem pitchShifterStepCrossfadesTwoTaps : Obligations.PitchShifterStepCrossfadesTwoTaps := by
  intro s u x q h hx hok pA pB dA dB
  refine ⟨?_, fun hnot => stepCommand_of_refuse hx h rfl (psStep_of_delay_not_finite hok hnot)⟩
  intro vA vB hA hB hrA hrB y
  have hstep := psStep_of_reads (x := x) hok hA hB hrA hrB
  refine ⟨fun hy => ?_, fun hy => ?_⟩
  · rw [checked_of_finite hy, ok_bind] at hstep
    exact stepCommand_of_ok hx h rfl hstep
  · rw [checked_of_not_finite hy, refuse_bind] at hstep
    exact stepCommand_of_refuse hx h rfl hstep

theorem EXP2_zero : Config.EXP2 fZero = fOne := if_pos rfl

theorem exec_psShift {x : F} {p : PSState} (hx : fFinite x = true) (hz : s.U[u.toNat]? = some (.ps p)) :
    exec (.psShift u x) s = finish 1 s (psShift p x >>= fun p' => pure (setSlot u (.ps p') s)) := by
  have hview : viewPs (.ps p) = some p := rfl
  rw [exec, execPsShift, finiteOperands_singleton hx, ok_bind, slotAs_of_view hz hview, ok_bind]

/-- Settles O22: the factor, the rate and the test of the rate, in this order. -/
theorem pitchShiftSetsFactorAndRate : Obligations.PitchShiftSetsFactorAndRate := by
  intro s u x p h hx f r
  rw [exec_psShift hx h]
  refine ⟨fun hf hr hlt => ?_, fun hf hr hle => ?_, fun hnot => ?_, fun h0 => ?_⟩
  · rw [psShift_eq_ok.2 ⟨hf, hr, fLe_eq_false_of_fLt hlt, rfl⟩]
    rfl
  · rw [psShift, checked_of_finite hf, ok_bind, checked_of_finite hr, ok_bind, phasorRateOk, if_pos hle, refuse_bind]
    rfl
  · have hrefuse : psShift p x = refuse .nonFiniteResult := by
      by_cases hf : fFinite f = true
      · have hr : fFinite r = false := hnot.resolve_left (ne_false_of_eq_true hf)
        rw [psShift, checked_of_finite hf, ok_bind, checked_of_not_finite hr, refuse_bind]
      · rw [psShift, checked_of_not_finite (Bool.eq_false_iff.2 hf), refuse_bind]
    rw [hrefuse]
    rfl
  · have hdiv : fDiv fZero fTwelve = fZero := by decide +kernel
    exact (congrArg (fun v => Config.EXP2 (fDiv v fTwelve)) h0).trans ((congrArg Config.EXP2 hdiv).trans EXP2_zero)

/-- Settles O34: the two tests of the domain, and the value. -/
theorem semiConvertsTwoFrequencies : Obligations.SemiConvertsTwoFrequencies := by
  intro s ft fr hft hfr q y
  have hexec : exec (.semi ft fr) s = finish 2 s (semitones ft fr >>= fun v => pure (writeRes0 v s)) := by
    rw [exec, execSemi, finiteOperands_of_finite (by simp [hft, hfr]), ok_bind]
  rw [hexec, semitones]
  refine ⟨fun ht hr hq h0 => ?_, fun hnot => ?_⟩
  · rw [if_neg (by simp [fLe_eq_false_of_fLt ht, fLe_eq_false_of_fLt hr])]
    rw [if_neg (by simpa using ⟨h0, hq⟩)]
    refine ⟨fun hy => ?_, fun hy => ?_⟩
    · rw [checked_of_finite hy]; rfl
    · rw [checked_of_not_finite hy]; rfl
  · split
    · rfl
    · rename_i hpos
      rw [if_pos]
      · rfl
      · simp only [Bool.or_eq_true, not_or] at hpos
        have hq := (hnot.resolve_left hpos.1).resolve_left hpos.2
        simpa [or_comm] using hq

end

end Sys2Proof.Machine
end

section
/-! PROOFS. NORM (48_normalise R291 to R293): what it answers, and that a second pass finds nothing to divide. -/

namespace Sys2Proof.Machine

section
variable {s t : State} {c : Col} {len : BitVec 32} {vs : List F}

/-- The state after `Normalise` of a range that holds `vs` (R291). -/
def normaliseRange (c : Col) (vs : List F) (s : State) : State :=
  if fLt fOne (peakOf vs) then setNormed c true (setColumn c (writeCells (column c s) 0 (normalised vs)) s)
  else setNormed c false s

theorem exec_norm_of_le (hlen : len.toNat ≤ s.params.ylen) :
    exec (.norm c len) s = finish 0 s (normalise c len.toNat s) := by
  rw [exec, execNorm, if_neg (Nat.not_lt.2 hlen)]

/-- All that NORM answers on a length within YLEN. -/
theorem exec_norm_eq_next (hlen : len.toNat ≤ s.params.ylen) :
    exec (.norm c len) s = .next t ↔
      ∃ vs, vs.length = len.toNat ∧ Holds (column c s) vs ∧ t = advance 0 (normaliseRange c vs s) := by
  rw [exec_norm_of_le hlen, finish_eq_next]
  constructor
  · rintro (⟨t', h, rfl⟩ | ⟨e, h, -⟩)
    · obtain ⟨vs, hl, hv, rfl⟩ := normalise_eq_ok.1 h
      exact ⟨vs, hl, hv, rfl⟩
    · exact absurd h (normalise_ne_raise _ _ _ _)
  · rintro ⟨vs, hl, hv, rfl⟩
    exact .inl ⟨_, normalise_of_holds hl hv, rfl⟩

@[simp] theorem normaliseRange_pc : (normaliseRange c vs s).pc = s.pc := by
  rw [normaliseRange]; split
  · cases c <;> rfl
  · rfl

@[simp] theorem normaliseRange_params : (normaliseRange c vs s).params = s.params := by
  rw [normaliseRange]; split
  · cases c <;> rfl
  · rfl

theorem statusNormed_normaliseRange : statusNormed c (normaliseRange c vs s).STATUS = fLt fOne (peakOf vs) := by
  rw [normaliseRange]; split
  · rename_i h; rw [setNormed_STATUS, statusNormed_withNormed, h]
  · rename_i h; rw [setNormed_STATUS, statusNormed_withNormed, Bool.eq_false_iff.2 h]

theorem normaliseRange_of_low (h : fLt fOne (peakOf vs) = false) :
    normaliseRange c vs s = setNormed c false s := if_neg (ne_true_of_eq_false h)

theorem column_normaliseRange_of_high (h : fLt fOne (peakOf vs) = true) :
    column c (normaliseRange c vs s) = writeCells (column c s) 0 (normalised vs) := by
  rw [normaliseRange, if_pos h, column_setNormed, column_setColumn]

/-- The range then holds the normalised values. -/
theorem holds_normaliseRange (hv : Holds (column c s) vs) : Holds (column c (normaliseRange c vs s)) (normalised vs) := by
  by_cases h : fLt fOne (peakOf vs) = true
  · rw [column_normaliseRange_of_high h]
    exact holds_writeCells _ _ (normalised_finite (forall_finite_of_holds hv))
  · rw [normaliseRange_of_low (Bool.eq_false_iff.2 h), column_setNormed, normalised, if_neg h]
    exact hv

/-- Settles O35. -/
theorem normDividesByThePeak : Obligations.NormDividesByThePeak := by
  intro s c len vs hlen hl hv
  refine ⟨_, (exec_norm_eq_next hlen).2 ⟨vs, hl, hv, rfl⟩, ?_, statusNormed_normaliseRange, fun k hk => ?_, fun h => ?_⟩
  · rw [advance_pc, normaliseRange_pc]
  · rw [column_advance]
    exact (holds_normaliseRange hv k (by rwa [normalised_length])).1
  · rw [column_advance, normaliseRange_of_low h, column_setNormed]

/-! ### The second pass (R293) -/

/-- The value that is the peak has magnitude 1.0 after the division, and no other has more. -/
theorem peakOf_map_fDiv_peak (hvs : ∀ v ∈ vs, fFinite v = true) (hp : fLt fOne (peakOf vs) = true) :
    peakOf (vs.map (fDiv · (peakOf vs))) = fOne := by
  have hpeak := peakFrom_peakOf hvs
  have hnz := not_fIsZero_of_gt_one hp
  have hquot : ∀ q ∈ vs.map (fDiv · (peakOf vs)), fMag q ≤ fMag fOne := by
    intro q hq
    obtain ⟨v, hv, rfl⟩ := List.mem_map.1 hq
    exact fMag_fDiv_peak_le_one hvs hp hv
  have hpeak' := peakFrom_peakOf fun q hq => fFinite_iff.2 (Nat.lt_of_le_of_lt (hquot q hq) (by decide))
  have hle : fMag (peakOf (vs.map (fDiv · (peakOf vs)))) ≤ fMag fOne := by
    rcases hpeak'.attained with h | ⟨q, hq, h⟩
    · rw [h]; decide
    · rw [← h]; exact hquot q hq
  have hge : fMag fOne ≤ fMag (peakOf (vs.map (fDiv · (peakOf vs)))) := by
    rcases hpeak.attained with h | ⟨v, hv, h⟩
    · rw [h] at hnz
      exact absurd hnz (by decide)
    · rw [← fMag_fDiv_self (hvs v hv) hpeak.finite hnz h]
      exact hpeak'.le _ (List.mem_map.2 ⟨v, hv, rfl⟩)
  rw [← fEncode_fSign_fMag (peakOf (vs.map _)), hpeak'.positive, Nat.le_antisymm hle hge]
  decide

theorem peakOf_normalised_low (hvs : ∀ v ∈ vs, fFinite v = true) : fLt fOne (peakOf (normalised vs)) = false := by
  rw [normalised]
  split
  · rename_i h
    rw [peakOf_map_fDiv_peak hvs h]
    decide +kernel
  · rename_i h
    exact Bool.eq_false_iff.2 h

/-- Settles O58. -/
theorem normIsIdempotent : Obligations.NormIsIdempotent := by
  intro s t c len hlen h
  obtain ⟨vs, hl, hv, rfl⟩ := (exec_norm_eq_next hlen).1 h
  have hvs := forall_finite_of_holds hv
  have hl' : (normalised vs).length = len.toNat := by rw [normalised_length, hl]
  have hv' : Holds (column c (advance 0 (normaliseRange c vs s))) (normalised vs) := by
    rw [column_advance]
    exact holds_normaliseRange hv
  refine ⟨?_, fun hset => ⟨normalised vs, hl', hv', ?_⟩⟩
  · refine (exec_norm_eq_next ?_).2 ⟨normalised vs, hl', hv', ?_⟩
    · rw [advance_params, normaliseRange_params]; exact hlen
    · rw [normaliseRange_of_low (peakOf_normalised_low hvs)]
      rfl
  · rw [advance_STATUS, statusNormed_normaliseRange] at hset
    rw [normalised, if_pos hset, peakOf_map_fDiv_peak hvs hset]

end

end Sys2Proof.Machine
end

section
/-! PROOFS. The block commands: where they are refused, what they leave when every sample goes through, and that they do
what the per-sample commands do one after another. -/

namespace Sys2Proof.Machine

/-! ### Input cells (60_exceptions R312 item 4; 93 U1) -/

/-- A block command that passes its slot and length tests stops where reading its cells stops. -/
theorem blockBody_refused {α : Type} {slots : Run α} {len : Nat} {work : α → List F → Run State} {s : State} {b : Bool}
    {r : Refusal} (hs : SlotTest b slots) (hb : b = true) (hx : len ≤ s.params.xlen) (hy : len ≤ s.params.ylen)
    (hr : readCells s.XMEM 0 len = refuse r) : finish 0 s (blockBody slots len work s) = .refused r := by
  obtain ⟨a, ha⟩ := hs.answers hb
  rw [blockBody, ha, ok_bind, blockLen_of_le hx hy, ok_bind, hr, refuse_bind, finish_refuse]

/-- Settles O44: each block command is a `blockBody`, and NORM reads its column first. -/
theorem badInputCellsAreRefused : Obligations.BadInputCellsAreRefused := by
  intro s u v c len k r hk stops
  have hread : ∀ {m : Mem}, stops m → readCells m 0 len.toNat = refuse r := by
    intro m ⟨hbefore, hat⟩
    exact readCells_eq_error hk (by simpa using hbefore) (by simpa using hat)
  constructor
  · refine List.forall_mem_cons.2 ⟨?_, List.forall_mem_cons.2 ⟨?_, List.forall_mem_cons.2 ⟨?_, List.forall_mem_cons.2
      ⟨?_, List.forall_mem_singleton.2 ?_⟩⟩⟩⟩
    · exact fun hb hx hy hm => blockBody_refused (slotTest_slotAs views_viewFl u s) hb hx hy (hread hm)
    · exact fun hb hx hy hm => blockBody_refused (slotTest_slotAs views_viewRv u s) hb hx hy (hread hm)
    · exact fun hb hx hy hm => blockBody_refused
        (work := fun (p : RVState × RVState) xs => channel .rv rvStep u p.1 .c0 xs s >>= channel .rv rvStep v p.2 .c1 xs)
        (slotTest_stereoSlots u v s) hb hx hy (hread hm)
    · exact fun hb hx hy hm => blockBody_refused (slotTest_slotAs views_viewTr u s) hb hx hy (hread hm)
    · exact fun hb hx hy hm => blockBody_refused (slotTest_slotAs views_viewPs u s) hb hx hy (hread hm)
  · intro hlen hm
    rw [exec_norm_of_le hlen, normalise, hread hm, refuse_bind, finish_refuse]

/-! ### Samples that go through -/

/-- A unit's step and what the rules' formulas give agree; the step is never stopped by a cause, and its output is
finite. -/
structure StepGives {α : Type} (f : α → F → Run (F × α)) (gives : α → F → F → α → Prop) : Prop where
  ok : ∀ {a x y b}, gives a x y b → f a x = .ok (y, b)
  finite : ∀ {a x y b}, f a x = .ok (y, b) → fFinite y = true
  ne_raise : ∀ a x c, f a x ≠ raise c

theorem stepGives_flStep : StepGives flStep flGives where
  ok := flStep_eq_ok.2
  finite h := by obtain ⟨-, _, -, -, hy, -⟩ := flStep_eq_ok.1 h; exact hy
  ne_raise := flStep_ne_raise

theorem stepGives_rvStep : StepGives rvStep rvGives where
  ok := rvStep_eq_ok.2
  finite h := by obtain ⟨e, -, hy, -⟩ := rvStep_eq_ok.1 h; rw [e]; exact hy
  ne_raise := rvStep_ne_raise

theorem stepGives_trStep : StepGives trStep trGives where
  ok := trStep_eq_ok.2
  finite h := by obtain ⟨-, e, hy, -⟩ := trStep_eq_ok.1 h; exact hy
  ne_raise := trStep_ne_raise

theorem stepGives_psStep : StepGives psStep psGives where
  ok := psStep_of_psGives
  finite h := by obtain ⟨-, -, -, -, -, -, _, _, -, -, -, hy, -⟩ := psStep_eq_ok.1 h; exact hy
  ne_raise := psStep_ne_raise

section
variable {α : Type} {f : α → F → Run (F × α)} {gives : α → F → F → α → Prop} {a a' : α} {xs ys : List F}

theorem StepGives.stepAll (hf : StepGives f gives) (h : BlockRun gives a xs ys a') :
    stepAll f a xs = .ok (ys, a') := by
  induction xs generalizing a ys with
  | nil =>
    cases ys with
    | nil => rw [show a = a' from h]; rfl
    | cons y ys => exact h.elim
  | cons x xs ih =>
    cases ys with
    | nil => exact h.elim
    | cons y ys =>
      obtain ⟨b, hb, hrest⟩ := h
      rw [Machine.stepAll, hf.ok hb, ok_bind]
      dsimp only
      rw [ih hrest, ok_bind]
      rfl

theorem StepGives.outputs_finite (hf : StepGives f gives) (h : Machine.stepAll f a xs = .ok (ys, a')) :
    ∀ y ∈ ys, fFinite y = true :=
  (stepAll_induct (fun _ => True) (fun y => fFinite y = true) (fun _ _ _ _ _ h => ⟨hf.finite h, trivial⟩) trivial h).1

/-! ### The mono block commands (20_memory R74) -/

variable {view : Slot → Option α} {wrap : α → Slot} {u : Byte} {s : State} {z : Slot} {len : Nat}

/-- A block whose samples all go through. -/
theorem StepGives.block_of_stepAll (hf : StepGives f gives) (hz : s.U[u.toNat]? = some z) (ha : view z = some a)
    (hx : len ≤ s.params.xlen) (hy : len ≤ s.params.ylen) (hl : xs.length = len) (hh : Holds s.XMEM xs)
    (h : Machine.stepAll f a xs = .ok (ys, a')) :
    finish 0 s (blockUnit view wrap f u len s) =
      .next { s with
        pc := s.pc + 1
        U := s.U.set u.toNat (wrap a')
        YMEM0 := writeCells s.YMEM0 0 (normalised ys)
        STATUS := withNormed .c0 (fLt fOne (peakOf ys)) s.STATUS } := by
  rw [blockUnit_eq hz ha hx hy hl hh, channel_of_stepAll h (hf.outputs_finite h), finish_ok]
  rfl

end

/-- Settles O36. -/
theorem monoBlocksComplete : Obligations.MonoBlocksComplete := by
  intro s u len xs ys hx hy hl hh done
  exact
    ⟨fun _ _ hz h => stepGives_flStep.block_of_stepAll hz rfl hx hy hl hh (stepGives_flStep.stepAll h),
      fun _ _ hz h => stepGives_rvStep.block_of_stepAll hz rfl hx hy hl hh (stepGives_rvStep.stepAll h),
      fun _ _ hz h => stepGives_trStep.block_of_stepAll hz rfl hx hy hl hh (stepGives_trStep.stepAll h),
      fun _ _ hz h => stepGives_psStep.block_of_stepAll hz rfl hx hy hl hh (stepGives_psStep.stepAll h)⟩

/-- Settles O37: the second channel runs in the state that the first one leaves. -/
theorem stereoReverbNormalisesEachColumn : Obligations.StereoReverbNormalisesEachColumn := by
  intro s u v len xs ls rs l l' r r' huv hu hv hx hy hl hh hls hrs
  have hleft := stepGives_rvStep.stepAll hls
  have hright := stepGives_rvStep.stepAll hrs
  rw [exec, execRvBlock2, stereoSlots_eq_ok.2 ⟨huv, hu, hv⟩, ok_bind]
  dsimp only
  rw [blockLen_of_le hx hy, ok_bind, (readCells_eq_ok_iff_holds _ _ _).2 ⟨hl, hh⟩, ok_bind,
    channel_of_stepAll hleft (stepGives_rvStep.outputs_finite hleft), ok_bind,
    channel_of_stepAll hright (stepGives_rvStep.outputs_finite hright), finish_ok]
  rfl

/-! ### A block is its steps one after another (70_reset_and_hazards R360) -/

section
variable {α : Type} {f : α → F → Run (F × α)} {gives : α → F → F → α → Prop} {a a' : α} {x y : F} {xs ys : List F}
variable {view : Slot → Option α} {wrap : α → Slot} {u : Byte} {s : State} {ks : List Kind}

/-- `sample x` is the command of one sample `x` through the unit in slot `u`. -/
structure SampleCommand (f : α → F → Run (F × α)) (view : Slot → Option α) (wrap : α → Slot) (u : Byte)
    (sample : F → Instr) : Prop where
  view_eq_some : ∀ {z a}, view z = some a ↔ z = wrap a
  exec_sample : ∀ x s, exec (sample x) s = finish 1 s (finiteOperands [x] >>= fun _ => stepUnit view wrap (f · x) u s)

/-- A unit with a command for one sample and one for a block. -/
structure SampleUnit (f : α → F → Run (F × α)) (gives : α → F → F → α → Prop) (view : Slot → Option α)
    (wrap : α → Slot) (ks : List Kind) (u : Byte) (sample : F → Instr) (block : BitVec 32 → Instr) : Prop
    extends SampleCommand f view wrap u sample where
  step : StepGives f gives
  views : Views view ks
  exec_block : ∀ len s, exec (block len) s = finish 0 s (blockUnit view wrap f u len.toNat s)
  slotCheck_block : ∀ len s, slotCheck (block len) s = hasKind s u ks

theorem sampleUnit_fl (u : Byte) : SampleUnit flStep flGives viewFl .fl [.fl] u (.flStep u) (.flBlock u) :=
  ⟨⟨viewFl_eq_some, fun _ _ => rfl⟩, stepGives_flStep, views_viewFl, fun _ _ => rfl, fun _ _ => rfl⟩

theorem sampleUnit_rv (u : Byte) : SampleUnit rvStep rvGives viewRv .rv [.rv] u (.rvStep u) (.rvBlock u) :=
  ⟨⟨viewRv_eq_some, fun _ _ => rfl⟩, stepGives_rvStep, views_viewRv, fun _ _ => rfl, fun _ _ => rfl⟩

theorem sampleUnit_tr (u : Byte) : SampleUnit trStep trGives viewTr .tr [.tr] u (.trStep u) (.trBlock u) :=
  ⟨⟨viewTr_eq_some, fun _ _ => rfl⟩, stepGives_trStep, views_viewTr, fun _ _ => rfl, fun _ _ => rfl⟩

theorem sampleUnit_ps (u : Byte) : SampleUnit psStep psGives viewPs .ps [.ps] u (.psStep u) (.psBlock u) :=
  ⟨⟨viewPs_eq_some, fun _ _ => rfl⟩, stepGives_psStep, views_viewPs, fun _ _ => rfl, fun _ _ => rfl⟩

namespace SampleCommand
variable {sample : F → Instr}

theorem runResults_cons_of_ok (hu : SampleCommand f view wrap u sample) (hx : fFinite x = true)
    (hz : s.U[u.toNat]? = some (wrap a)) (h : f a x = .ok (y, a')) (is : List Instr) :
    runResults (sample x :: is) s =
      (runResults is (advance 1 (writeRes0 y (setSlot u (wrap a') s)))).map fun r => (y :: r.1, r.2) := by
  rw [runResults, hu.exec_sample, stepCommand_of_ok hx hz (hu.view_eq_some.2 rfl) h]
  rfl

theorem runResults_cons_of_refuse (hu : SampleCommand f view wrap u sample) {r : Refusal}
    (hx : fFinite x = true) (hz : s.U[u.toNat]? = some (wrap a)) (h : f a x = refuse r) (is : List Instr) :
    runResults (sample x :: is) s = none := by
  rw [runResults, hu.exec_sample, stepCommand_of_refuse hx hz (hu.view_eq_some.2 rfl) h]

theorem getElem?_after (hz : s.U[u.toNat]? = some (wrap a)) (y : F) (z : Slot) :
    (advance 1 (writeRes0 y (setSlot u z s))).U[u.toNat]? = some z :=
  List.getElem?_set_self (List.getElem?_eq_some_iff.1 hz).1

/-- Steps that all go through, as commands: their values, and the last instance in the slot. -/
theorem runResults_of_stepAll (hu : SampleCommand f view wrap u sample) (hxs : ∀ x ∈ xs, fFinite x = true)
    (hz : s.U[u.toNat]? = some (wrap a)) (h : stepAll f a xs = .ok (ys, a')) :
    ∃ t, runResults (xs.map sample) s = some (ys, t) ∧ t.pc = s.pc + 2 * xs.length ∧
      t.U = s.U.set u.toNat (wrap a') ∧ t.YMEM0 = s.YMEM0 ∧ t.YMEM1 = s.YMEM1 ∧ t.STATUS = s.STATUS := by
  induction xs generalizing s a ys with
  | nil =>
    obtain ⟨rfl, rfl⟩ := Prod.mk.inj (Except.ok.inj h)
    exact ⟨s, rfl, rfl, (congrArg State.U (setSlot_of_getElem? hz)).symm, rfl, rfl, rfl⟩
  | cons x xs ih =>
    obtain ⟨hx, hxs⟩ := List.forall_mem_cons.1 hxs
    simp only [stepAll, bind_eq_ok, Prod.exists] at h
    obtain ⟨y, b, hstep, zs, c, hrest, hans⟩ := h
    obtain ⟨rfl, rfl⟩ := Prod.mk.inj (Except.ok.inj hans)
    obtain ⟨t, ht, hpc, hU, h0, h1, hs⟩ := ih hxs (getElem?_after hz y (wrap b)) hrest
    refine ⟨t, ?_, ?_, ?_, h0, h1, hs⟩
    · rw [List.map_cons, hu.runResults_cons_of_ok hx hz hstep, ht]
      rfl
    · rw [hpc, advance_pc, writeRes0_pc, setSlot_pc, List.length_cons]
      omega
    · rw [hU, advance_U, writeRes0_U, setSlot_U, List.set_set]

/-- Where one of the steps stops, the commands do not all complete. -/
theorem runResults_of_error (hu : SampleCommand f view wrap u sample) (hxs : ∀ x ∈ xs, fFinite x = true)
    (hz : s.U[u.toNat]? = some (wrap a)) {r : Refusal} (h : stepAll f a xs = refuse r) :
    runResults (xs.map sample) s = none := by
  induction xs generalizing s a with
  | nil => cases h
  | cons x xs ih =>
    obtain ⟨hx, hxs⟩ := List.forall_mem_cons.1 hxs
    simp only [stepAll, refuse, bind_eq_error] at h
    rcases h with h | ⟨⟨y, b⟩, hstep, h | ⟨_, -, h⟩⟩
    · exact hu.runResults_cons_of_refuse hx hz h _
    · rw [List.map_cons, hu.runResults_cons_of_ok hx hz hstep, ih hxs (getElem?_after hz y (wrap b)) h]
      rfl
    · cases h

end SampleCommand

namespace SampleUnit
variable {sample : F → Instr} {block : BitVec 32 → Instr}

/-- The block command does what the sample commands do one after another, then normalises. -/
theorem agrees (hu : SampleUnit f gives view wrap ks u sample block) (hxs : ∀ x ∈ xs, fFinite x = true)
    (len : BitVec 32) (hslot : slotCheck (block len) s = true) (hx : len.toNat ≤ s.params.xlen)
    (hy : len.toNat ≤ s.params.ylen) (hl : xs.length = len.toNat) (hh : Holds s.XMEM xs) :
    (∀ ys t, runResults (xs.map sample) s = some (ys, t) →
      exec (block len) s =
        .next { s with
          pc := s.pc + 1
          U := t.U
          YMEM0 := writeCells s.YMEM0 0 (normalised ys)
          STATUS := withNormed .c0 (fLt fOne (peakOf ys)) s.STATUS }) ∧
      (runResults (xs.map sample) s = none → ∃ r, exec (block len) s = .refused r) := by
  obtain ⟨a, ha⟩ := (slotTest_slotAs hu.views u s).answers (hu.slotCheck_block len s ▸ hslot)
  obtain ⟨z, hz, hza⟩ := slotAs_eq_ok.1 ha
  have hzw : s.U[u.toNat]? = some (wrap a) := hu.view_eq_some.1 hza ▸ hz
  rw [hu.exec_block]
  match hall : stepAll f a xs with
  | .ok (ys', a') =>
    obtain ⟨t', ht', -, hU, -⟩ := hu.runResults_of_stepAll hxs hzw hall
    rw [ht', hu.step.block_of_stepAll hz hza hx hy hl hh hall]
    refine ⟨fun ys t h => ?_, nofun⟩
    obtain ⟨rfl, rfl⟩ := Prod.mk.inj (Option.some.inj h)
    rw [hU]
  | .error (.refuse r) =>
    rw [hu.runResults_of_error hxs hzw hall, blockUnit_eq hz hza hx hy hl hh, channel, hall]
    exact ⟨nofun, fun _ => ⟨r, rfl⟩⟩
  | .error (.raise c) => exact absurd hall (stepAll_ne_raise hu.step.ne_raise a xs c)

end SampleUnit

end

/-- Settles O59. -/
theorem blocksAreSequencesOfSteps : Obligations.BlocksAreSequencesOfSteps := by
  intro s u xs hxs agree gives
  refine ⟨⟨(sampleUnit_fl u).agrees hxs, (sampleUnit_rv u).agrees hxs, (sampleUnit_tr u).agrees hxs,
    (sampleUnit_ps u).agrees hxs⟩, ?_, ?_, ?_, ?_⟩
  · exact fun a a' ys hz h => (sampleUnit_fl u).runResults_of_stepAll hxs hz (stepGives_flStep.stepAll h)
  · exact fun a a' ys hz h => (sampleUnit_rv u).runResults_of_stepAll hxs hz (stepGives_rvStep.stepAll h)
  · exact fun a a' ys hz h => (sampleUnit_tr u).runResults_of_stepAll hxs hz (stepGives_trStep.stepAll h)
  · exact fun a a' ys hz h => (sampleUnit_ps u).runResults_of_stepAll hxs hz (stepGives_psStep.stepAll h)

/-! ### A signal cut into two blocks (47_pitch_shifter R270) -/

/-- Samples loaded by the host and run as one block. -/
theorem exec_psBlock_hostLoad {s : State} {u : Byte} {len : BitVec 32} {q q' : PSState} {xs ys : List F}
    (hz : s.U[u.toNat]? = some (.ps q)) (hxs : ∀ x ∈ xs, fFinite x = true) (hl : xs.length = len.toNat)
    (hx : len.toNat ≤ s.params.xlen) (hy : len.toNat ≤ s.params.ylen) (h : stepAll psStep q xs = .ok (ys, q')) :
    ∃ t, exec (.psBlock u len) (hostLoad 0 xs s) = .next t ∧ t.U = s.U.set u.toNat (.ps q') ∧ t.params = s.params :=
  ⟨_, stepGives_psStep.block_of_stepAll (s := hostLoad 0 xs s) (view := viewPs) hz rfl hx hy hl
    (holds_writeCells s.XMEM xs hxs) h, rfl, rfl⟩

/-- Settles O60. -/
theorem pitchShifterStreamsAcrossBlocks : Obligations.PitchShifterStreamsAcrossBlocks := by
  intro s u xs ys zs q q' n m nm hz hfin hn hm hnm hx hy hrun
  have hall := stepGives_psStep.stepAll hrun
  obtain ⟨zs1, zs2, b, h1, h2, -⟩ := stepAll_append.1 hall
  have hsum : n.toNat + m.toNat = nm.toNat := by rw [← hn, ← hm, ← hnm, List.length_append]
  obtain ⟨hxs, hys⟩ := List.forall_mem_append.1 hfin
  obtain ⟨t1, ht1, hU1, hp1⟩ := exec_psBlock_hostLoad hz hxs hn (by omega) (by omega) h1
  have hlt : u.toNat < s.U.length := (List.getElem?_eq_some_iff.1 hz).1
  have hz1 : t1.U[u.toNat]? = some (.ps b) := by rw [hU1]; exact List.getElem?_set_self hlt
  obtain ⟨t2, ht2, hU2, -⟩ := exec_psBlock_hostLoad hz1 hys hm (by rw [hp1]; omega) (by rw [hp1]; omega) h2
  obtain ⟨t, ht, hU, -⟩ := exec_psBlock_hostLoad hz hfin hnm hx hy hall
  refine ⟨t1, t2, t, ht1, ht2, ht, ?_, ?_⟩
  · rw [hU]; exact List.getElem?_set_self hlt
  · rw [hU2, hU1, hU, List.set_set]

end Sys2Proof.Machine
end

section
/-! PROOFS. Silence in, silence out (44_flanger R204, 45_reverb_bank R223, 46_tremolo R252; 95_test_vectors T4). -/

namespace Sys2Proof.Machine

/-! ### Zeros -/

theorem fFinite_of_fIsZero {a : F} (h : fIsZero a = true) : fFinite a = true :=
  fFinite_iff.2 (by rw [fIsZero_iff.1 h]; decide)

theorem fInt_of_fIsZero {a : F} (h : fIsZero a = true) : fInt a = 0 :=
  (fInt_eq_zero (Nat.le_of_lt (fFinite_iff.1 (fFinite_of_fIsZero h)))).2 (fIsZero_iff.1 h)

theorem fIsZero_fAdd {a b : F} (ha : fIsZero a = true) (hb : fIsZero b = true) : fIsZero (fAdd a b) = true := by
  have hsum : fInt a + fInt b = 0 := by rw [fInt_of_fIsZero ha, fInt_of_fIsZero hb]; rfl
  rw [fAdd_of_finite (fFinite_of_fIsZero ha) (fFinite_of_fIsZero hb), if_pos hsum, fIsZero_iff, fMag_fEncode (by decide)]

theorem fIsZero_fSub {a b : F} (ha : fIsZero a = true) (hb : fIsZero b = true) : fIsZero (fSub a b) = true :=
  fIsZero_fAdd ha (by rwa [fIsZero_fNeg])

/-- A finite product of which a factor is a zero: the other factor is finite too. -/
theorem fIsZero_fMul_of_finite {a b : F} (hfin : fFinite (fMul a b) = true) (h : fIsZero a = true ∨ fIsZero b = true) :
    fIsZero (fMul a b) = true := by
  obtain ⟨ha, hb⟩ := fFinite_of_fMul hfin
  exact fIsZero_fMul ha hb h

theorem fIsZero_bufAt {d : DLState} (h : silent d.buf = true) (i : Nat) : fIsZero (bufAt d i) = true := by
  rw [bufAt, List.getD_eq_getElem?_getD]
  cases hv : d.buf[i]? with
  | none => decide
  | some v => exact List.all_eq_true.1 h v (List.mem_of_getElem? hv)

theorem silent_push {d : DLState} {v : F} (h : silent d.buf = true) (hv : fIsZero v = true) :
    silent (push d v).buf = true := by
  refine List.all_eq_true.2 fun w hw => ?_
  rcases List.mem_or_eq_of_mem_set hw with hw | e
  · exact List.all_eq_true.1 h w hw
  · rw [e]; exact hv

/-! ### The reverberator -/

theorem fIsZero_bankSum {cs : List CombState} {acc : F} (h : ∀ c ∈ cs, silent c.d.buf = true) (hacc : fIsZero acc = true) :
    fIsZero (cs.foldl (fun acc c => fAdd acc (bufAt c.d c.d.cur)) acc) = true := by
  induction cs generalizing acc with
  | nil => exact hacc
  | cons c cs ih =>
    obtain ⟨hc, hcs⟩ := List.forall_mem_cons.1 h
    exact ih hcs (fIsZero_fAdd hacc (fIsZero_bufAt hc _))

/-- What a comb or an all-pass filter stores on a zero input. -/
theorem fIsZero_stored {c : CombState} {x : F} (hc : silent c.d.buf = true) (hx : fIsZero x = true)
    (hfin : fFinite (fAdd x (fMul c.gain (bufAt c.d c.d.cur))) = true) :
    fIsZero (fAdd x (fMul c.gain (bufAt c.d c.d.cur))) = true :=
  fIsZero_fAdd hx (fIsZero_fMul_of_finite (fFinite_of_fAdd hfin).2 (.inr (fIsZero_bufAt hc _)))

/-- A zero through a chain of silent filters. -/
theorem chain_silent {as : List CombState} {w : F} (h : ∀ a ∈ as, silent a.d.buf = true) (hw : fIsZero w = true)
    (hout : fFinite (chainOut w as) = true) (hst : ∀ v ∈ chainStored w as, fFinite v = true) :
    fIsZero (chainOut w as) = true ∧ ∀ a ∈ chainNext w as, silent a.d.buf = true := by
  induction as generalizing w with
  | nil => exact ⟨hw, fun _ h => nomatch h⟩
  | cons a as ih =>
    obtain ⟨ha, has⟩ := List.forall_mem_cons.1 h
    obtain ⟨hin, hrest⟩ := List.forall_mem_cons.1 hst
    have hstored : fIsZero (apIn w a) = true := fIsZero_stored ha hw hin
    have hapOut : fFinite (apOut w a) = true := chainOut_start as _ hout
    have hnext : fIsZero (apOut w a) = true :=
      fIsZero_fSub (fIsZero_bufAt ha _) (fIsZero_fMul_of_finite (fFinite_of_fSub hapOut).2 (.inr hstored))
    obtain ⟨hz, hs⟩ := ih has hnext hout hrest
    exact ⟨hz, List.forall_mem_cons.2 ⟨silent_push ha hstored, hs⟩⟩

theorem rvStep_silent {r r' : RVState} {x y : F} (hr : rvSilent r = true) (hx : fIsZero x = true)
    (h : rvStep r x = .ok (y, r')) : fIsZero y = true ∧ rvSilent r' = true := by
  obtain ⟨e, e', hout, hst⟩ := rvStep_eq_ok.1 h
  simp only [rvSilent, rvStoredFinite, Bool.and_eq_true, List.all_eq_true] at hr hst
  obtain ⟨hcomb, hap⟩ := hr
  obtain ⟨hfc, hfa⟩ := hst
  obtain ⟨-, hprod⟩ := fFinite_of_fAdd hout
  have hchain := (fFinite_of_fMul hprod).1
  have hwet : fIsZero (rvWet r) = true :=
    fIsZero_fMul_of_finite (chainOut_start _ _ hchain) (.inl (fIsZero_bankSum hcomb (by decide)))
  obtain ⟨hz, hs⟩ := chain_silent hap hwet hchain hfa
  refine ⟨?_, ?_⟩
  · rw [e]
    exact fIsZero_fAdd hx (fIsZero_fMul_of_finite hprod (.inl hz))
  · rw [e']
    simp only [rvSilent, Bool.and_eq_true, List.all_eq_true]
    refine ⟨fun c hc => ?_, hs⟩
    obtain ⟨b, hb, rfl⟩ := List.mem_map.1 hc
    exact silent_push (hcomb b hb) (fIsZero_stored (hcomb b hb) hx (hfc b hb))

/-! ### The flanger -/

/-- A finite fractional read of a silent line is a zero. -/
theorem fIsZero_of_reads {d : DLState} {o v : F} (hd : silent d.buf = true) (h : Reads d o v) : fIsZero v = true := by
  obtain ⟨-, -, n, -, -, -, e, hv⟩ := h
  rw [e, interpolate] at hv
  obtain ⟨h1, h2⟩ := fFinite_of_fAdd hv
  rw [e, interpolate]
  exact fIsZero_fAdd (fIsZero_fMul_of_finite h1 (.inr (fIsZero_bufAt hd _)))
    (fIsZero_fMul_of_finite h2 (.inr (fIsZero_bufAt hd _)))

/-- Settles O57. -/
theorem silenceInGivesSilenceOut : Obligations.SilenceInGivesSilenceOut := by
  refine ⟨fun r r' x y => rvStep_silent, fun t t' x y hx h => ?_, fun f f' x y hf _ hx h => ?_⟩
  · obtain ⟨-, e, hy, -⟩ := trStep_eq_ok.1 h
    rw [e] at hy ⊢
    exact fIsZero_fMul_of_finite hy (.inl hx)
  · obtain ⟨-, dl, hread, e, hy, e'⟩ := flStep_eq_ok.1 h
    rw [e] at hy ⊢
    rw [e']
    exact ⟨fIsZero_fAdd hx (fIsZero_fMul_of_finite (fFinite_of_fAdd hy).2 (.inr (fIsZero_of_reads hf hread))),
      silent_push hf hx⟩

end Sys2Proof.Machine
end

section
/-! PROOFS. A delay line over many writes (40_delay_line R123, R126, R128): what stands behind the cursor, and the combs
as delays of what they store (41_comb_filters R147). -/

namespace Sys2Proof.Machine

/-- Many writes, the last of them last. -/
theorem foldl_push_append (d : DLState) (xs : List F) (x : F) : (xs ++ [x]).foldl push d = push (xs.foldl push d) x :=
  List.foldl_append

theorem foldl_push_L (d : DLState) (xs : List F) : (xs.foldl push d).L = d.L := by
  induction xs generalizing d with
  | nil => rfl
  | cons x xs ih => exact ih (push d x)

theorem delayOk_foldl_push {d : DLState} (h : delayOk d = true) (xs : List F) : delayOk (xs.foldl push d) = true := by
  induction xs generalizing d with
  | nil => exact h
  | cons x xs ih => exact ih (delayOk_push x h)

theorem bufAt_push_same {d : DLState} (h : delayOk d = true) (x : F) : bufAt (push d x) d.cur = x := by
  obtain ⟨hlen, hcur⟩ := delayOk_iff.1 h
  rw [bufAt, push_buf, List.getD_eq_getElem?_getD, List.getElem?_set_self (hlen ▸ hcur)]
  rfl

theorem bufAt_push_of_ne {d : DLState} {i : Nat} (h : i ≠ d.cur) (x : F) : bufAt (push d x) i = bufAt d i := by
  rw [bufAt, push_buf, List.getD_eq_getElem?_getD, List.getElem?_set_ne h.symm, bufAt, List.getD_eq_getElem?_getD]

/-- `k` behind the advanced cursor is `k - 1` behind the cursor. -/
theorem behind_advanced {cur L k : Nat} (hcur : cur < L) (hk : k < L) :
    ((cur + 1) % L + L - (k + 1)) % L = (cur + L - k) % L := by
  by_cases h : cur + 1 = L
  · have hback : cur + L - k = L - (k + 1) + L := by omega
    rw [h, Nat.mod_self, Nat.zero_add, hback, Nat.add_mod_right]
  · have hsame : cur + 1 + L - (k + 1) = cur + L - k := by omega
    rw [Nat.mod_eq_of_lt (a := cur + 1) (by omega), hsame]

theorem behind_ne_cursor {cur L k : Nat} (hcur : cur < L) (h1 : 1 ≤ k) (hk : k < L) : (cur + L - k) % L ≠ cur := by
  by_cases h : k ≤ cur
  · have hwrap : cur + L - k = cur - k + L := by omega
    rw [hwrap, Nat.add_mod_right, Nat.mod_eq_of_lt (by omega)]
    omega
  · rw [Nat.mod_eq_of_lt (by omega)]
    omega

/-- What was written `k + 1` writes ago stands `k + 1` positions behind the cursor. -/
theorem bufAt_behind {d : DLState} (h : delayOk d = true) (xs : List F) {k : Nat} (hk : k < d.L) (hx : k < xs.length) :
    some (bufAt (xs.foldl push d) (((xs.foldl push d).cur + d.L - (k + 1)) % d.L)) = xs[xs.length - (k + 1)]? := by
  induction xs using List.reverseRecOn generalizing k with
  | nil => exact absurd hx (Nat.not_lt_zero k)
  | append_singleton xs x ih =>
    have hok := delayOk_foldl_push h xs
    have hcur : (xs.foldl push d).cur < d.L := foldl_push_L d xs ▸ (delayOk_iff.1 hok).2
    rw [foldl_push_append, push_cur, foldl_push_L, behind_advanced hcur hk]
    cases k with
    | zero =>
      rw [Nat.sub_zero, Nat.add_mod_right, Nat.mod_eq_of_lt hcur, bufAt_push_same hok]
      simp
    | succ k =>
      rw [List.length_append, List.length_singleton] at hx ⊢
      rw [bufAt_push_of_ne (behind_ne_cursor hcur (Nat.succ_le_succ (Nat.zero_le k)) hk), ih (by omega) (by omega),
        List.getElem?_append_left (by omega)]
      congr 1
      omega

/-- Settles O52. -/
theorem writtenValuesStandBehindTheCursor : Obligations.WrittenValuesStandBehindTheCursor := by
  intro d xs k h h1 hk hx e
  obtain ⟨k, rfl⟩ := Nat.exists_eq_add_one.2 h1
  refine ⟨delayOk_foldl_push h xs, foldl_push_L d xs, ?_⟩
  rw [foldl_push_L]
  exact bufAt_behind h xs hk hx

/-! ### From a zeroed buffer -/

/-- Writing zeros to a zeroed line only moves its cursor. -/
theorem foldl_push_zeros {L c : Nat} (hc : c < L) (m : Nat) :
    (List.replicate m fZero).foldl push ⟨L, List.replicate L fZero, c⟩ = ⟨L, List.replicate L fZero, (c + m) % L⟩ := by
  induction m generalizing c with
  | zero => rw [Nat.add_zero, Nat.mod_eq_of_lt hc]; rfl
  | succ m ih =>
    have hpush : push ⟨L, List.replicate L fZero, c⟩ fZero = ⟨L, List.replicate L fZero, (c + 1) % L⟩ := by
      rw [push, List.set_replicate_self]
    rw [List.replicate_succ, List.foldl_cons, hpush, ih (Nat.mod_lt _ (by omega)), Nat.mod_add_mod, Nat.add_assoc,
      Nat.add_comm 1 m]

/-- A zeroed line is one to which `L` zeros were written: at the cursor stands what was written `L` writes ago. -/
theorem bufAt_cursor_of_fresh {L : Nat} (hL : 0 < L) (ws : List F) :
    bufAt (ws.foldl push (freshDelay L)) (ws.foldl push (freshDelay L)).cur =
      (List.replicate L fZero ++ ws).getD ws.length fZero := by
  have hfresh : (List.replicate L fZero ++ ws).foldl push (freshDelay L) = ws.foldl push (freshDelay L) := by
    have hzeros : (List.replicate L fZero).foldl push (freshDelay L) = freshDelay L := by
      rw [freshDelay, foldl_push_zeros hL L, Nat.zero_add, Nat.mod_self]
    rw [List.foldl_append, hzeros]
  have hok := delayOk_fresh hL
  have hcur : (ws.foldl push (freshDelay L)).cur < L := by
    have h := (delayOk_iff.1 (delayOk_foldl_push hok ws)).2
    rwa [foldl_push_L] at h
  have hbehind := bufAt_behind hok (List.replicate L fZero ++ ws) (k := L - 1) (Nat.sub_lt hL Nat.one_pos)
    (by rw [List.length_append, List.length_replicate]; omega)
  rw [hfresh, Nat.sub_add_cancel hL, show (freshDelay L).L = L from rfl, Nat.add_sub_cancel, Nat.mod_eq_of_lt hcur,
    List.length_append, List.length_replicate, Nat.add_sub_cancel_left] at hbehind
  rw [List.getD_eq_getElem?_getD, ← hbehind]
  rfl

/-! ### The combs (41_comb_filters R147) -/

theorem sampleCommand_firc (u : Byte) : SampleCommand (fun c x => combProc x c) viewFirc .firc u (.fircProc u) :=
  ⟨viewFirc_eq_some, fun _ _ => rfl⟩

theorem sampleCommand_iirc (u : Byte) : SampleCommand (fun c x => combProc x c) viewIirc .iirc u (.iircProc u) :=
  ⟨viewIirc_eq_some, fun _ _ => rfl⟩

/-- What the sequence `w` stored so far leaves for the next output. -/
theorem bufAt_cursor_of_range {L : Nat} (hL : 0 < L) (w : Nat → F) (n : Nat) :
    bufAt (((List.range n).map w).foldl push (freshDelay L)) (((List.range n).map w).foldl push (freshDelay L)).cur =
      if n < L then fZero else w (n - L) := by
  rw [bufAt_cursor_of_fresh hL, List.length_map, List.length_range, List.getD_eq_getElem?_getD]
  split
  · rename_i h
    rw [List.getElem?_append_left (by rw [List.length_replicate]; exact h), List.getElem?_replicate_of_lt h]
    rfl
  · rename_i h
    rw [List.getElem?_append_right (by rw [List.length_replicate]; omega), List.length_replicate, List.getElem?_map,
      List.getElem?_range (by omega)]
    rfl

/-- The first `m` samples: the outputs, and the line with what was stored. -/
theorem stepAll_comb {L m : Nat} {g : F} {xs out : List F} (hL : 0 < L) (hlen : out.length = xs.length) (hm : m ≤ xs.length)
    {w : Nat → F} (hw : ∀ n, w n = fAdd (xs.getD n fZero) (fMul g (out.getD n fZero)))
    (hfin : ∀ n < xs.length, fFinite (w n) = true)
    (hout : ∀ n < xs.length, out.getD n fZero = if n < L then fZero else w (n - L)) :
    stepAll (fun c x => combProc x c) ⟨freshDelay L, g⟩ (xs.take m) =
      .ok (out.take m, ⟨((List.range m).map w).foldl push (freshDelay L), g⟩) := by
  induction m with
  | zero => rfl
  | succ m ih =>
    have hx : xs.getD m fZero = xs[m] := List.getD_eq_getElem _ _ _
    have hy : out.getD m fZero = out[m] := List.getD_eq_getElem _ _ _
    have hread := (bufAt_cursor_of_range hL w m).trans (hout m hm).symm
    have hstore : w m = fAdd xs[m] (fMul g out[m]) := by rw [hw, hx, hy]
    have hone : stepAll (fun c x => combProc x c) ⟨((List.range m).map w).foldl push (freshDelay L), g⟩ [xs[m]] =
        .ok ([out[m]], ⟨push (((List.range m).map w).foldl push (freshDelay L)) (w m), g⟩) := by
      have hstep : combProc xs[m] ⟨((List.range m).map w).foldl push (freshDelay L), g⟩ =
          .ok (out[m], ⟨push (((List.range m).map w).foldl push (freshDelay L)) (w m), g⟩) := by
        refine combProc_eq_ok.2 ⟨?_, ?_, ?_⟩
        · rw [hread, hy, ← hstore]; exact hfin m hm
        · rw [hread, hy]
        · rw [combNext, hread, hy, ← hstore]
      rw [stepAll, hstep]
      rfl
    rw [List.take_succ_eq_append_getElem hm, List.take_succ_eq_append_getElem (hlen ▸ hm)]
    refine stepAll_append.2 ⟨_, _, _, ih (by omega), hone.trans ?_, rfl⟩
    rw [List.range_succ, List.map_append, List.map_singleton, foldl_push_append]

/-- Settles O53. -/
theorem combOutputIsTheStoredSequenceDelayed : Obligations.CombOutputIsTheStoredSequenceDelayed := by
  intro s u L g xs out hL hxs hlen w hfin hout done
  have hall := stepAll_comb hL hlen (Nat.le_refl _) (w := w) (fun _ => rfl) hfin hout
  rw [List.take_length, ← hlen, List.take_length, hlen] at hall
  refine ⟨fun h => ?_, fun h => ?_⟩
  · obtain ⟨t, ht, hpc, hU, -⟩ := (sampleCommand_firc u).runResults_of_stepAll hxs h hall
    exact ⟨_, t, ht, hpc, hU, foldl_push_L _ _⟩
  · obtain ⟨t, ht, hpc, hU, -⟩ := (sampleCommand_iirc u).runResults_of_stepAll hxs h hall
    exact ⟨_, t, ht, hpc, hU, foldl_push_L _ _⟩

end Sys2Proof.Machine
end

section
/-! PROOFS. The fractional read (40_delay_line R124, R126, R130): the wrap-add loop ends, and at an integer offset the read
gives the stored element. -/

namespace Sys2Proof.Machine

/-! ### The wrap-add loop (R130) -/

theorem fInt_fOne : fInt fOne = (fScale : Int) := by decide +kernel

theorem fInt_fWrapLimit : fInt fWrapLimit = -(2 ^ 52 * fInt fOne) := by decide +kernel

/-- Up to 2^52 a magnitude less 1.0 is a magnitude's value: its last bit stands for at most 1.0. -/
theorem exists_unitsOf_sub_fScale {m : Nat} (hm : m ≤ fMag fWrapLimit) :
    ∃ k ≤ fInfMag, unitsOf k = unitsOf m - fScale := by
  obtain ⟨q, hq, hqm⟩ := exists_significand m
  have hexp : m / 2 ^ 52 - 1 ≤ 1074 := by
    have hlim : fMag fWrapLimit / 2 ^ 52 - 1 = 1074 := by decide +kernel
    have hdiv := Nat.div_le_div_right (c := 2 ^ 52) hm
    omega
  obtain ⟨j, hj⟩ := Nat.exists_eq_add_of_le hexp
  have hsub : unitsOf m - fScale = (q - 2 ^ j) * 2 ^ (m / 2 ^ 52 - 1) := by
    rw [hqm, fScale, hj, Nat.pow_add, Nat.sub_mul, Nat.mul_comm (2 ^ j)]
  have hle : unitsOf m - fScale ≤ unitsOf fInfMag :=
    Nat.le_trans (Nat.sub_le _ _) ((unitsOf_le_iff (Nat.le_trans hm (by decide)) (Nat.le_refl _)).2
      (Nat.le_trans hm (by decide)))
  rw [hsub] at hle ⊢
  exact exists_unitsOf (Nat.le_of_lt (Nat.lt_of_le_of_lt (Nat.sub_le _ _) hq)) hle

/-- From -(2^52) to -1.0 the next integer step up is a representable value. -/
theorem exists_fInt_add_fOne {p : F} (hp : fFinite p = true) (h1 : fInt p ≤ -fInt fOne)
    (hlim : fInt fWrapLimit ≤ fInt p) : ∃ c, fMag c ≤ fInfMag ∧ fInt c = fInt p + fInt fOne := by
  have hsize := natAbs_fInt p
  have hsize' := natAbs_fInt fWrapLimit
  have hone := fInt_fOne
  have hm : fMag p ≤ fMag fWrapLimit :=
    (unitsOf_le_iff (Nat.le_of_lt (fFinite_iff.1 hp)) (by decide)).1 (by omega)
  obtain ⟨k, hk, hku⟩ := exists_unitsOf_sub_fScale hm
  exact exists_fInt_eq hk (by omega)

/-- One addition of at least 1.0 that leaves the position negative raises it by at least 1.0. -/
theorem wrapAdd_step {p l : F} (hp : fFinite p = true) (hl : fFinite l = true) (hlim : fInt fWrapLimit ≤ fInt p)
    (h1 : fInt fOne ≤ fInt l) (hneg : fInt (fAdd p l) < 0) : fInt p + fInt fOne ≤ fInt (fAdd p l) := by
  by_cases hfar : fInt p ≤ -fInt fOne
  · obtain ⟨c, hc, hcv⟩ := exists_fInt_add_fOne hp hfar hlim
    rw [← hcv]
    exact le_fInt_fAdd hp hl hc (by omega)
  · have hzero := le_fInt_fAdd (c := fZero) hp hl (by decide) (by rw [fInt_fZero]; omega)
    rw [fInt_fZero] at hzero
    omega

theorem fInt_fOne_le_fInt_toF {L : Nat} (hL : 1 ≤ L) : fInt fOne ≤ fInt (toF L) := by
  rw [fInt_eq (toF L), fSign_toF, fInt_fOne, ← unitsOf_fOne]
  exact Int.ofNat_le.2 ((unitsOf_le_iff (by decide) (fMag_toF_le L)).2 (fMag_fOne_le_fMag_toF (Nat.ne_of_gt hL)))

/-- As long as the position stays negative it is finite, and has gained 1.0 with each addition. -/
theorem wrapAdd_gains {l pos : F} {n : Nat} (hpos : fFinite pos = true) (hl : fFinite l = true)
    (hlim : fInt fWrapLimit ≤ fInt pos) (h1 : fInt fOne ≤ fInt l)
    (hneg : ∀ k ≤ n, fLt ((fun p => fAdd p l)^[k] pos) fZero = true) :
    fFinite ((fun p => fAdd p l)^[n] pos) = true ∧ fInt pos + n * fInt fOne ≤ fInt ((fun p => fAdd p l)^[n] pos) := by
  have hone := fInt_fOne_pos
  induction n with
  | zero => exact ⟨hpos, by simp⟩
  | succ n ih =>
    obtain ⟨hfin, hgain⟩ := ih fun k hk => hneg k (Nat.le_succ_of_le hk)
    obtain ⟨hmag, -, hlt⟩ := fLt_eq_true.1 (hneg (n + 1) (Nat.le_refl _))
    rw [fInt_fZero] at hlt
    rw [Function.iterate_succ_apply'] at hmag hlt ⊢
    have hn : 0 ≤ (n : Int) * fInt fOne := Int.mul_nonneg (Int.natCast_nonneg n) (Int.le_of_lt hone)
    have hstep := wrapAdd_step hfin hl (by omega) h1 hlt
    refine ⟨fFinite_of_between hfin (c := fZero) (by decide) hmag (by omega) (by rw [fInt_fZero]; omega), ?_⟩
    rw [Int.natCast_succ, Int.add_mul, Int.one_mul]
    omega

theorem fAdd_of_infinite {a b : F} (ha : fFinite a = true) (hb : fIsInf b = true) : fAdd a b = b := by
  have hnan : fIsNaN b = false := fIsNaN_eq_false.2 (Nat.le_of_eq (by simpa [fIsInf] using hb))
  simp [fAdd, fIsNaN_of_finite ha, fIsInf_of_finite ha, hnan, hb]

theorem fInt_toF_nonneg (n : Nat) : 0 ≤ fInt (toF n) := by
  rw [fInt_eq, fSign_toF]
  exact Int.natCast_nonneg _

theorem fLt_fZero_of_nonneg {a : F} (h : 0 ≤ fInt a) : fLt a fZero = false := by
  rw [← Bool.not_eq_true, fLt_eq_true, fInt_fZero]
  rintro ⟨-, -, hlt⟩
  omega

/-- Settles O50: after 2^52 additions that leave it negative, a position would not be negative. An infinite capacity ends
the loop at once. -/
theorem wrapAddLoopEnds : Obligations.WrapAddLoopEnds := by
  intro L pos hL hpos hneg hlim
  rcases fIsInf_or_finite (fMag_toF_le L) with hinf | hfin
  · refine ⟨1, by decide, ?_⟩
    rw [Function.iterate_one, fAdd_of_infinite hpos hinf]
    exact fLt_fZero_of_nonneg (fInt_toF_nonneg L)
  · by_contra hnever
    have hall : ∀ k ≤ 2 ^ 52, fLt ((fun p => fAdd p (toF L))^[k] pos) fZero = true := fun k hk => by
      by_contra h
      exact hnever ⟨k, Nat.le_trans hk (by decide), Bool.eq_false_iff.2 h⟩
    have hlim' : fInt fWrapLimit ≤ fInt pos := by
      rw [← Bool.not_eq_true, fLt_iff (Nat.le_of_lt (fFinite_iff.1 hpos)) (by decide)] at hlim
      exact Int.not_lt.1 hlim
    obtain ⟨-, hgain⟩ := wrapAdd_gains hpos hfin hlim' (fInt_fOne_le_fInt_toF hL) hall
    obtain ⟨-, -, hlt⟩ := fLt_eq_true.1 (hall _ (Nat.le_refl _))
    rw [fInt_fWrapLimit] at hlim'
    rw [fInt_fZero] at hlt
    rw [show ((2 ^ 52 : Nat) : Int) = 2 ^ 52 from rfl] at hgain
    omega

/-! ### Integer offsets (R126, first row) -/

/-- Between integers up to 2^53 subtraction is exact. -/
theorem fInt_fSub_toF {a b : Nat} (ha : a ≤ 2 ^ 53) (hb : b ≤ 2 ^ 53) :
    fInt (fSub (toF a) (toF b)) = ((a : Int) - b) * fScale := by
  obtain ⟨c, hc, hcv⟩ : ∃ c, fMag c ≤ fInfMag ∧ fInt c = ((a : Int) - b) * fScale := by
    rcases Nat.le_total b a with h | h
    · exact ⟨toF (a - b), fMag_toF_le _, by rw [fInt_toF (by omega), Int.natCast_sub h]⟩
    · refine ⟨fNeg (toF (b - a)), by rw [fMag_fNeg]; exact fMag_toF_le _, ?_⟩
      rw [fInt_fNeg, fInt_toF (by omega), Int.natCast_sub h, ← Int.neg_mul, Int.neg_sub]
  rw [fInt_fSub_exact (fFinite_toF ha) (fFinite_toF hb) hc ?_, hcv]
  rw [fInt_toF ha, fInt_toF hb, hcv, Int.sub_mul]

theorem fFinite_fSub_toF {a b : Nat} (ha : a ≤ 2 ^ 53) (hb : b ≤ 2 ^ 53) : fFinite (fSub (toF a) (toF b)) = true := by
  have hneg : fFinite (fNeg (toF b)) = true := by rw [fFinite_fNeg]; exact fFinite_toF hb
  have ha0 := fInt_toF_nonneg a
  have hb0 := fInt_toF_nonneg b
  exact fFinite_of_between hneg (fFinite_toF ha) (fMag_fSub_le (fFinite_toF ha) (fFinite_toF hb))
    (le_fInt_fSub (fFinite_toF ha) (fFinite_toF hb) (Nat.le_of_lt (fFinite_iff.1 hneg)) (by rw [fInt_fNeg]; omega))
    (fInt_fSub_le (fFinite_toF ha) (fFinite_toF hb) (fMag_toF_le a) (by omega))

theorem fFinite_bufAt {d : DLState} (h : delayFinite d = true) (i : Nat) : fFinite (bufAt d i) = true := by
  rw [bufAt, List.getD_eq_getElem?_getD]
  cases hv : d.buf[i]? with
  | none => decide
  | some v => exact List.all_eq_true.1 h v (List.mem_of_getElem? hv)

/-- At an integer position the fraction is a zero, and the other weight 1.0: the element itself, plus a zero. -/
theorem interpolate_of_integer {d : DLState} {pos : F} {i : Nat} (hd : delayFinite d = true) (hpos : fFinite pos = true)
    (hi : i ≤ 2 ^ 53) (h : fInt pos = (i : Int) * fScale) :
    fFinite (interpolate d pos) = true ∧ fInt (interpolate d pos) = fInt (bufAt d (i % d.L)) := by
  have hscale : (fScale : Int) ≠ 0 := Int.natCast_ne_zero.2 (Nat.ne_of_gt fScale_pos)
  have hfloor : (fFloor pos).toNat = i := by rw [fFloor, h, Int.mul_ediv_cancel _ hscale, Int.toNat_natCast]
  have hfrac : fIsZero (fSub pos (toF i)) = true := by
    have hmag := fMag_fSub_le hpos (fFinite_toF hi)
    have hval := fInt_fSub_exact (c := fZero) hpos (fFinite_toF hi) (by decide)
      (by rw [h, fInt_toF hi, fInt_fZero, Int.sub_self])
    exact fIsZero_iff.2 ((fInt_eq_zero hmag).1 (hval.trans fInt_fZero))
  have hfrac' := fFinite_of_fIsZero hfrac
  have hweight : fSub fOne (fSub pos (toF i)) = fOne := by
    have hval : fInt (fSub fOne (fSub pos (toF i))) = fInt fOne :=
      fInt_fSub_exact (by decide) hfrac' (by decide) (by rw [fInt_of_fIsZero hfrac, Int.sub_zero])
    exact eq_of_fInt_eq (fMag_fSub_le (by decide) hfrac') (by decide) hval
      (by rw [hval]; exact Int.ne_of_gt fInt_fOne_pos)
  have hx := fFinite_bufAt hd (i % d.L)
  have hz := fIsZero_fMul hfrac' (fFinite_bufAt hd ((i + 1) % d.L)) (.inl hfrac)
  have hv : interpolate d pos =
      fAdd (bufAt d (i % d.L)) (fMul (fSub pos (toF i)) (bufAt d ((i + 1) % d.L))) := by
    simp only [interpolate, hfloor, hweight, fOne_mul hx]
  have hval := fInt_fAdd_exact hx (fFinite_of_fIsZero hz) (Nat.le_of_lt (fFinite_iff.1 hx))
    (by rw [fInt_of_fIsZero hz, Int.add_zero])
  rw [hv]
  exact ⟨fFinite_of_between hx hx (fMag_fAdd_le hx (fFinite_of_fIsZero hz)) (Int.le_of_eq hval.symm) (Int.le_of_eq hval),
    hval⟩

theorem reads_of_iterate {d : DLState} {o pos : F} {n : Nat} (hfin : fFinite (fSub (toF d.cur) o) = true)
    (hlim : fLt (fSub (toF d.cur) o) fWrapLimit = false) (hn : n ≤ wrapFuel)
    (hiter : (fun p => fAdd p (toF d.L))^[n] (fSub (toF d.cur) o) = pos)
    (hneg : ∀ k < n, fLt ((fun p => fAdd p (toF d.L))^[k] (fSub (toF d.cur) o)) fZero = true)
    (hend : fLt pos fZero = false) (hv : fFinite (interpolate d pos) = true) : Reads d o (interpolate d pos) :=
  ⟨hfin, hlim, n, hn, hneg, by rw [hiter]; exact hend, by rw [hiter], hv⟩

theorem fInt_fWrapLimit_le {z : Int} (h : -(2 ^ 52) ≤ z) : fInt fWrapLimit ≤ z * fScale := by
  rw [fInt_fWrapLimit, fInt_fOne, ← Int.neg_mul]
  exact Int.mul_le_mul_of_nonneg_right h (Int.natCast_nonneg _)

/-- An integer offset reads at the integer `k` positions behind the cursor: the position itself, or after one addition of
the capacity. -/
theorem reads_of_integer {d : DLState} {k : Nat} (hok : delayOk d = true) (hd : delayFinite d = true)
    (hL : d.L < 2 ^ 52) (hk : k ≤ d.L) :
    ∃ v, Reads d (toF k) v ∧ fInt v = fInt (bufAt d ((d.cur + d.L - k) % d.L)) := by
  obtain ⟨-, hcur⟩ := delayOk_iff.1 hok
  have hpos : (0 : Int) < fScale := Int.natCast_pos.2 fScale_pos
  have hc : d.cur ≤ 2 ^ 53 := by omega
  have hk' : k ≤ 2 ^ 53 := by omega
  have hval := fInt_fSub_toF hc hk'
  have hmag := fMag_fSub_le (fFinite_toF hc) (fFinite_toF hk')
  have hlim : fLt (fSub (toF d.cur) (toF k)) fWrapLimit = false := by
    rw [← Bool.not_eq_true, fLt_iff hmag (by decide), hval]
    exact Int.not_lt.2 (fInt_fWrapLimit_le (by omega))
  have hfin := fFinite_fSub_toF hc hk'
  rcases Nat.lt_or_ge d.cur k with h | h
  · have hneg : fLt (fSub (toF d.cur) (toF k)) fZero = true := by
      rw [fLt_iff hmag (by decide), hval, fInt_fZero]
      exact Int.mul_neg_of_neg_of_pos (by omega) hpos
    have hLfin := fFinite_toF (n := d.L) (by omega)
    have hi : d.cur + d.L - k ≤ 2 ^ 53 := by omega
    have hsum : fInt (fAdd (fSub (toF d.cur) (toF k)) (toF d.L)) = fInt (toF (d.cur + d.L - k)) := by
      refine fInt_fAdd_exact hfin hLfin (fMag_toF_le _) ?_
      have hindex : (d.cur : Int) - k + d.L = ((d.cur + d.L - k : Nat) : Int) := by omega
      rw [hval, fInt_toF (n := d.L) (by omega), fInt_toF hi, ← Int.add_mul, hindex]
    have hmag' := fMag_fAdd_le hfin hLfin
    have hfin' := fFinite_of_between (fFinite_toF hi) (fFinite_toF hi) hmag' (Int.le_of_eq hsum.symm) (Int.le_of_eq hsum)
    obtain ⟨hv, hx⟩ := interpolate_of_integer hd hfin' hi (hsum.trans (fInt_toF hi))
    refine ⟨_, reads_of_iterate hfin hlim (n := 1) (by decide) (congrFun (Function.iterate_one _) _) (fun j hj => ?_)
      (fLt_fZero_of_nonneg (by rw [hsum]; exact fInt_toF_nonneg _)) hv, hx⟩
    rw [Nat.lt_one_iff.1 hj, Function.iterate_zero, id]
    exact hneg
  · have hval' : fInt (fSub (toF d.cur) (toF k)) = ((d.cur - k : Nat) : Int) * fScale := by rw [hval, Int.natCast_sub h]
    obtain ⟨hv, hx⟩ := interpolate_of_integer hd hfin (by omega) hval'
    have hback : d.cur + d.L - k = d.cur - k + d.L := by omega
    rw [hback, Nat.add_mod_right]
    refine ⟨_, reads_of_iterate hfin hlim (n := 0) (pos := fSub (toF d.cur) (toF k)) (Nat.zero_le _)
      (by rw [Function.iterate_zero, id])
      (fun j hj => absurd hj (Nat.not_lt_zero j)) (fLt_fZero_of_nonneg ?_) hv, hx⟩
    rw [hval']
    exact Int.mul_nonneg (Int.natCast_nonneg _) (Int.le_of_lt hpos)

/-- Settles O51. -/
theorem integerOffsetReadsTheElement : Obligations.IntegerOffsetReadsTheElement := by
  intro d k hok hd hL _ hk
  obtain ⟨v, hv, hval⟩ := reads_of_integer hok hd hL hk
  have hvmag : fMag v ≤ fInfMag := by
    obtain ⟨-, -, -, -, -, -, -, hfin⟩ := hv
    exact Nat.le_of_lt (fFinite_iff.1 hfin)
  have hxmag := Nat.le_of_lt (fFinite_iff.1 (fFinite_bufAt hd ((d.cur + d.L - k) % d.L)))
  refine ⟨v, fracRead_eq_ok.2 hv, fEq_eq_true.2 ⟨hvmag, hxmag, hval⟩, fun hnz => ?_⟩
  refine eq_of_fInt_eq hvmag hxmag hval ?_
  rw [hval, ne_eq, fInt_eq_zero hxmag, ← fIsZero_iff]
  exact ne_true_of_eq_false hnz

end Sys2Proof.Machine
end
